-- ==== Sys2Proof/Word.lean ====
section
/-! DEFINITION. The word types of RSZP-1 (00_scope.md R10, R11): all values are unsigned, bit 0 is the least significant. -/

namespace Sys2Proof

/-- A word of the host port: a command word or a register value (R10). -/
abbrev Word := BitVec 32

/-- A codeword, a GF(256) element, a coefficient or a row or column number (R10). -/
abbrev Byte := BitVec 8

/-- A module code: bits 2 and 1 are the kind, bit 0 is the dark bit (20_memory.md R41). -/
abbrev ModCode := BitVec 3

/-- A word address of the host port (20_memory.md R46). -/
abbrev PortAddr := BitVec 3

/-- `zext_32` (R11): zero bits on the left. -/
def zext32 {n : Nat} (v : BitVec n) : Word := v.setWidth 32

end Sys2Proof
end

