-- ==== Sys2Proof/Syntax.lean ====
section
/-! DEFINITION. The commands of RSZP (30_encoding.md R53, one constructor per row of the opcode map), the names of the port
registers (10_state.md R21) and the lines of the assembler (R57, R58). -/

namespace Sys2Proof

/-- A command with its operand fields (R51, R52): every field has exactly its encoded width. -/
inductive Instr where
  | nop
  | reset
  | gfMul (a b : Byte)
  | gfDiv (a b : Byte)
  | gfExp (e : Byte)
  | gfLog (a : Byte)
  | rsStart (n : Byte)
  | rsData (d : Byte)
  | rsRdec (i : Byte)
  | rsRdgen (i : Byte)
  | mtxInit (v : Byte)
  | modRsv (row col : Byte) (dark : Bool)
  | modRd (row col : Byte)
  | plData (d : Byte)
  | plFinish
  deriving DecidableEq, Repr

/-- The eight registers of the host port (R21). -/
inductive PortReg where
  | cmd
  | result
  | status
  | cursor
  | rsinfo
  | plinfo
  | faultcmd
  | id
  deriving DecidableEq, Repr

/-- One line of an assembler text after its tokens are read (R57, R58). Operands are the numbers written, of any size. -/
inductive AsmLine where
  /-- A command line: the mnemonic and its operands (R57). -/
  | command (mnemonic : String) (operands : List Nat)
  /-- `READ <register name>`, a bus read (R57). -/
  | read (reg : PortReg)
  /-- `RS_BLOCK n, d0, …` (R58). -/
  | rsBlock (n : Nat) (data : List Nat)
  /-- `RS_READALL n` (R58). -/
  | rsReadAll (n : Nat)
  /-- `PL_STREAM d0, …` (R58). -/
  | plStream (data : List Nat)
  /-- `MOD_RSV_RECT r0, c0, h, w, dark` (R58). -/
  | modRsvRect (r0 c0 h w dark : Nat)
  deriving DecidableEq, Repr

end Sys2Proof
end

