-- ==== Sys2Proof/Decode.lean ====
section
/-! DEFINITION. The encoding of commands (30_encoding.md R50 to R56): fields, the opcode map, the decoder, total on every
word and rejecting by name, and after it the encoder. -/

namespace Sys2Proof

/-- Why a word is no command (R54, R55). -/
inductive DecodeError where
  | illegalOpcode
  | reservedBits
  deriving DecidableEq, Repr

/-- w[31:24] (R50). -/
def opcodeField (w : Word) : Byte := w.extractLsb' 24 8

/-- w[7:0]: imm8, or operand b of format P (R52). -/
def imm8Field (w : Word) : Byte := w.extractLsb' 0 8

/-- w[15:8]: operand a of format P (R52). -/
def aField (w : Word) : Byte := w.extractLsb' 8 8

/-- w[7:0]: operand b of format P (R52). -/
def bField (w : Word) : Byte := w.extractLsb' 0 8

/-- w[23:16]: row (R52). -/
def rowField (w : Word) : Byte := w.extractLsb' 16 8

/-- w[15:8]: col (R52). -/
def colField (w : Word) : Byte := w.extractLsb' 8 8

/-- w[0]: dark (R52). -/
def darkField (w : Word) : Bool := w.getLsbD 0

/-- One row of the opcode map: the opcode byte, match, mask, and the command its fields make (R53). -/
structure OpRow where
  opcode : Byte
  pattern : Word
  mask : Word
  build : Word → Instr

/-- Rows 0x00 and 0x01, control (R53). -/
def controlRows : List OpRow :=
  [ { opcode := 0x00#8, pattern := 0x00000000#32, mask := 0xFFFFFFFF#32, build := fun _ => .nop },
    { opcode := 0x01#8, pattern := 0x01000000#32, mask := 0xFFFFFFFF#32, build := fun _ => .reset } ]

/-- Rows 0x10 to 0x13, GF arithmetic (R53). -/
def gfRows : List OpRow :=
  [ { opcode := 0x10#8, pattern := 0x10000000#32, mask := 0xFFFF0000#32, build := fun w => .gfMul (aField w) (bField w) },
    { opcode := 0x11#8, pattern := 0x11000000#32, mask := 0xFFFF0000#32, build := fun w => .gfDiv (aField w) (bField w) },
    { opcode := 0x12#8, pattern := 0x12000000#32, mask := 0xFFFFFF00#32, build := fun w => .gfExp (imm8Field w) },
    { opcode := 0x13#8, pattern := 0x13000000#32, mask := 0xFFFFFF00#32, build := fun w => .gfLog (imm8Field w) } ]

/-- Rows 0x20 to 0x23, the RS unit (R53). -/
def rsRows : List OpRow :=
  [ { opcode := 0x20#8, pattern := 0x20000000#32, mask := 0xFFFFFF00#32, build := fun w => .rsStart (imm8Field w) },
    { opcode := 0x21#8, pattern := 0x21000000#32, mask := 0xFFFFFF00#32, build := fun w => .rsData (imm8Field w) },
    { opcode := 0x22#8, pattern := 0x22000000#32, mask := 0xFFFFFF00#32, build := fun w => .rsRdec (imm8Field w) },
    { opcode := 0x23#8, pattern := 0x23000000#32, mask := 0xFFFFFF00#32, build := fun w => .rsRdgen (imm8Field w) } ]

/-- Rows 0x30 to 0x34, the placement unit (R53). -/
def placerRows : List OpRow :=
  [ { opcode := 0x30#8, pattern := 0x30000000#32, mask := 0xFFFFFF00#32, build := fun w => .mtxInit (imm8Field w) },
    { opcode := 0x31#8, pattern := 0x31000000#32, mask := 0xFF0000FE#32,
      build := fun w => .modRsv (rowField w) (colField w) (darkField w) },
    { opcode := 0x32#8, pattern := 0x32000000#32, mask := 0xFF0000FF#32, build := fun w => .modRd (rowField w) (colField w) },
    { opcode := 0x33#8, pattern := 0x33000000#32, mask := 0xFFFFFF00#32, build := fun w => .plData (imm8Field w) },
    { opcode := 0x34#8, pattern := 0x34000000#32, mask := 0xFFFFFFFF#32, build := fun _ => .plFinish } ]

/-- The complete opcode map (R53). -/
def opcodeMap : List OpRow := controlRows ++ gfRows ++ rsRows ++ placerRows

/-- R56: the row of the opcode byte, then the reserved bits of its format. -/
def decode (w : Word) : Except DecodeError Instr :=
  match opcodeMap.find? (fun row => row.opcode == opcodeField w) with
  | none => .error .illegalOpcode
  | some row => if w &&& row.mask = row.pattern then .ok (row.build w) else .error .reservedBits

/-- The decoder on a word given as a natural number (the host's numbering: bit 0 of `w` is bit 0 of the word). -/
def decodeTableWord (nbits w : Nat) : Option Instr :=
  match decode (BitVec.ofNat 32 (w % 2 ^ nbits)) with
  | .ok i => some i
  | .error _ => none

/-- The value `v` standing in a word from bit `k` up (R11, R57: `v << k`). -/
def fieldAt {n : Nat} (k : Nat) (v : BitVec n) : Word := zext32 v <<< k

/-- Format Z: no operand (R51, R57). -/
def formatZ (opcode : Byte) : Word := fieldAt 24 opcode

/-- Format B: one byte (R51, R57). -/
def formatB (opcode imm8 : Byte) : Word := fieldAt 24 opcode ||| fieldAt 0 imm8

/-- Format P: a byte pair (R51, R57). -/
def formatP (opcode a b : Byte) : Word := fieldAt 24 opcode ||| fieldAt 8 a ||| fieldAt 0 b

/-- Format C: a cell (R51, R57). -/
def formatC (opcode row col : Byte) : Word := fieldAt 24 opcode ||| fieldAt 16 row ||| fieldAt 8 col

/-- Format D: a cell and a dark bit (R51, R57). -/
def formatD (opcode row col : Byte) (dark : Bool) : Word :=
  fieldAt 24 opcode ||| fieldAt 16 row ||| fieldAt 8 col ||| fieldAt 0 (BitVec.ofBool dark)

/-- The word of a command (R51, R53, R57). -/
def encode : Instr → Word
  | .nop => formatZ 0x00#8
  | .reset => formatZ 0x01#8
  | .gfMul a b => formatP 0x10#8 a b
  | .gfDiv a b => formatP 0x11#8 a b
  | .gfExp e => formatB 0x12#8 e
  | .gfLog a => formatB 0x13#8 a
  | .rsStart n => formatB 0x20#8 n
  | .rsData d => formatB 0x21#8 d
  | .rsRdec i => formatB 0x22#8 i
  | .rsRdgen i => formatB 0x23#8 i
  | .mtxInit v => formatB 0x30#8 v
  | .modRsv row col dark => formatD 0x31#8 row col dark
  | .modRd row col => formatC 0x32#8 row col
  | .plData d => formatB 0x33#8 d
  | .plFinish => formatZ 0x34#8

end Sys2Proof
end

