-- ==== Sys2Proof/Config.lean ====
section
/-! DEFINITION. What an implementation fixes (the two parameters of 00_scope.md R6, R7) and the free values: what the
spec leaves unspecified, as constants without a body. -/

namespace Sys2Proof

/-- REMAINDER_POLICY (R7): what PL_FINISH does when Unset modules remain on the path. -/
inductive Policy where
  | fatal
  | zeroFill
  deriving DecidableEq, Repr

/-- The two parameters a model of RSZP takes (R6, R7). They are data of the instance: no command and no reset changes them. -/
structure Params where
  /-- EC_MAX, legal values 1 to 255 (R6). -/
  ecMax : Byte
  /-- REMAINDER_POLICY (R7). -/
  policy : Policy
  deriving DecidableEq, Repr

/-- RSZP-1: EC_MAX = 30, Fatal (R6, R7, R31). -/
def Params.rszp1 : Params := { ecMax := 30#8, policy := .fatal }

/-- The number of entries of MODMEM, 177 * 177 (20_memory.md R41). -/
def Config.modmemSize : Nat := 31329

/-- A bound on the cells a walk of the path can visit, above 31152 (42_placer.md R133): the recursion bound of `seek`
(DESIGN CHOICE: log entry 9). -/
def Config.pathFuel : Nat := 31330

/-- The unspecified contents of G[i] after the reset numbered by the first argument (10_state.md R34; DESIGN CHOICE: log entry 6). -/
opaque Config.freeG : Nat → Nat → Byte

/-- The unspecified contents of R[i] after the reset numbered by the first argument (10_state.md R35; DESIGN CHOICE: log entry 6). -/
opaque Config.freeR : Nat → Nat → Byte

/-- The unspecified contents of MODMEM[i] after the reset numbered by the first argument (20_memory.md R41; DESIGN CHOICE: log entries 5, 6). -/
opaque Config.freeModule : Nat → Nat → ModCode

end Sys2Proof
end

