-- ==== Sys2Proof/Machine/State.lean ====
section
/-! DEFINITION. The state of RSZP (10_state.md, 20_memory.md R41) as plain data, with the port's transactions the host will
present (DESIGN CHOICE: log entry 1), and the state after reset (70_reset_and_hazards.md R180). -/

namespace Sys2Proof.Machine

/-- PL_PHASE, the placement unit's life-cycle (R26). -/
inductive Phase where
  | idle
  | build
  | place
  | finished
  deriving DecidableEq, Repr

/-- The placement cursor CROW, CCOL, CUP, CRIGHT, CDONE (R38). -/
structure Cursor where
  row : Byte
  col : Byte
  up : Bool
  right : Bool
  done : Bool
  deriving DecidableEq, Repr

/-- What an entry of MODMEM that is not listed holds. -/
inductive Fill where
  /-- Unset: MTX_INIT has written every entry (42_placer.md R135). -/
  | unset
  /-- The unspecified contents left by the reset with this number (R41, R180): a free value per entry. -/
  | unspecified (epoch : Nat)
  deriving DecidableEq, Repr

/-- MODMEM (R41): the entries that differ from `fill`, by strictly rising index. -/
structure ModMem where
  fill : Fill
  cells : List (Nat × ModCode)
  deriving DecidableEq, Repr

/-- A register file of the RS unit (R34, R35): its bytes, or the unspecified contents left by the reset with this number. -/
inductive RegFile where
  | held (bytes : List Byte)
  | unspecified (epoch : Nat)
  deriving DecidableEq, Repr

/-- The eight fault codes of the hardware (60_exceptions.md R161). The machine takes them: they are no stop of the model. -/
inductive FaultCode where
  | illegalOpcode
  | reservedBits
  | sequence
  | operandRange
  | gfDomain
  | moduleOverwrite
  | plOverrun
  | plUnderrun
  deriving DecidableEq, Repr

/-- What the spec assumes the host never does (93_implementation_defined.md part C): the model has no move for it. -/
inductive HostViolation where
  /-- H1: a second transaction before the first is acknowledged. -/
  | overlappingTransaction
  /-- H2: req, we, addr or wdata changed between req and ack. -/
  | unstableSignals
  /-- H3: rst_n driven asynchronously to clk. -/
  | asynchronousReset
  /-- H4: a second bus master. -/
  | secondMaster
  deriving DecidableEq, Repr

/-- One atomic event at the port (20_memory.md R46, R48; 70_reset_and_hazards.md R180, R181). -/
inductive HostEvent where
  /-- `Read(A)`. -/
  | read (a : PortAddr)
  /-- `Write(A, w)`. -/
  | write (a : PortAddr) (w : Word)
  /-- rst_n sampled low; `cut` is the command word of a CMD write that was still waiting for ack, if there was one (R181). -/
  | resetLow (cut : Option Word)
  /-- Something outside the spec (93 part C). -/
  | outside (v : HostViolation)
  deriving DecidableEq, Repr

/-- What the latest step gave the host (R46): ack with rdata for a Read, ack alone for a Write, or no ack. -/
inductive Reply where
  | none
  | acked
  | data (w : Word)
  deriving DecidableEq, Repr

/-- The state of RSZP. -/
structure State where
  /-- EC_MAX and REMAINDER_POLICY (00_scope.md R6, R7). -/
  params : Params
  /-- The transactions the host will present, oldest first (DESIGN CHOICE: log entry 1). -/
  host : List HostEvent
  /-- ack and rdata of the latest step (R46; DESIGN CHOICE: log entry 2). -/
  reply : Reply
  /-- RESULT (R23). -/
  result : Word
  /-- FAULT (R30). -/
  fault : Bool
  /-- FCODE (R30). -/
  fcode : BitVec 4
  /-- FAULTCMD (R29). -/
  faultCmd : Word
  /-- RS_ACTIVE (R32). -/
  rsActive : Bool
  /-- RS_N (R33). -/
  rsN : Byte
  /-- G[0..EC_MAX] (R34). -/
  g : RegFile
  /-- R[0..EC_MAX-1] (R35). -/
  r : RegFile
  /-- RS_CNT (R36). -/
  rsCnt : BitVec 16
  /-- PL_PHASE (R26). -/
  phase : Phase
  /-- VER (R37). -/
  ver : Byte
  /-- CROW, CCOL, CUP, CRIGHT, CDONE (R38). -/
  cursor : Cursor
  /-- PLCNT (R39). -/
  plCnt : BitVec 16
  /-- MODMEM (R41). -/
  modmem : ModMem
  /-- The number the next reset draws its free values at (DESIGN CHOICE: log entry 6). -/
  epoch : Nat
  deriving DecidableEq, Repr

/-- The machine's stops. The hardware's own faults are no stops (`FaultCode`); no state a run reaches meets these. -/
inductive Fault where
  /-- Raised by `memRead` and `memWrite` at an index outside MODMEM's 31329 entries (R41), which no range check lets through
  while VER is a legal version. Safe (DESIGN CHOICE: log entry 8). -/
  | noSuchModule
  /-- Raised by `seek` and `zeroFill` when a walk has visited more cells than any path has (42_placer.md R133), which no
  cursor on the path can. Safe (DESIGN CHOICE: log entry 9). -/
  | endlessWalk
  deriving DecidableEq, Repr

/-- Why a step has no move. -/
inductive Refusal where
  /-- Raised by an arm of `exec` for an instruction without a meaning yet. Safe. No arm uses it now. -/
  | notModelled (mnemonic : String)
  /-- Raised by `step` when the host's next event is outside the spec (93 part C). Safe (DESIGN CHOICE: log entry 7). -/
  | hostOutsideSpec (v : HostViolation)
  deriving DecidableEq, Repr

/-- The cursor after reset (R38, R180): all five fields 0. -/
def Cursor.zero : Cursor := { row := 0#8, col := 0#8, up := false, right := false, done := false }

/-- The machine right after reset (R180), for RSZP-1 (R6, R7). G and R hold zeros (the spec gives none: DESIGN CHOICE: log entry 4), MODMEM
holds free values (DESIGN CHOICE: log entry 5), and the host has presented nothing (DESIGN CHOICE: log entry 1). -/
def State.reset : State where
  params := .rszp1
  host := []
  reply := .none
  result := 0#32
  fault := false
  fcode := 0#4
  faultCmd := 0#32
  rsActive := false
  rsN := 0#8
  g := .held (List.replicate 31 0#8)
  r := .held (List.replicate 30 0#8)
  rsCnt := 0#16
  phase := .idle
  ver := 0#8
  cursor := .zero
  plCnt := 0#16
  modmem := { fill := .unspecified 0, cells := [] }
  epoch := 1

end Sys2Proof.Machine
end

