-- ==== Sys2Proof/Machine/Ops.lean ====
section
/-! DEFINITION. The named operations over memory, register files and RESULT, taking a fault (60_exceptions.md R160 to R163),
the lock and the frame of a command (43_control.md R150, R151), and reset (70_reset_and_hazards.md R180). -/

namespace Sys2Proof.Machine

/-- What a command's pseudocode comes to: it ends, it raises a fault of the hardware with the state it had reached (R160), or
it stops the model. -/
inductive Ran where
  | done (s : State)
  | raised (c : FaultCode) (s : State)
  | halted (f : Fault)
  deriving DecidableEq, Repr

/-- Sequencing of pseudocode: the next part runs when this one ended. -/
def Ran.andThen (x : Ran) (k : State → Ran) : Ran :=
  match x with
  | .done s => k s
  | .raised c s => .raised c s
  | .halted f => .halted f

/-! ### MODMEM -/

/-- What an entry that is not listed reads as (20_memory.md R41; 42_placer.md R135; DESIGN CHOICE: log entries 5, 6). -/
def Fill.code (fill : Fill) (idx : Nat) : ModCode :=
  match fill with
  | .unset => 0b000#3
  | .unspecified epoch => Config.freeModule epoch idx

/-- The listed code at an index, if there is one. -/
def cellAt : List (Nat × ModCode) → Nat → Option ModCode
  | [], _ => none
  | (i, c) :: rest, idx => if i = idx then some c else cellAt rest idx

/-- The list without its entries at an index. -/
def cellErase (cells : List (Nat × ModCode)) (idx : Nat) : List (Nat × ModCode) := cells.filter (fun p => p.1 != idx)

/-- The list with the entry at an index set, in rising order of index. -/
def cellSet : List (Nat × ModCode) → Nat → ModCode → List (Nat × ModCode)
  | [], idx, c => [(idx, c)]
  | (i, d) :: rest, idx, c =>
    if idx < i then (idx, c) :: (i, d) :: rest
    else if i = idx then (idx, c) :: rest
    else (i, d) :: cellSet rest idx c

/-- The entry of MODMEM at an index. -/
def ModMem.get (m : ModMem) (idx : Nat) : ModCode := (cellAt m.cells idx).getD (m.fill.code idx)

/-- MODMEM with the entry at an index replaced; the canonical form is kept. -/
def ModMem.put (m : ModMem) (idx : Nat) (c : ModCode) : ModMem :=
  if c = m.fill.code idx then { m with cells := cellErase m.cells idx } else { m with cells := cellSet m.cells idx c }

/-- MODMEM after every entry was set to Unset (42_placer.md R135; DESIGN CHOICE: log entry 14). -/
def ModMem.allUnset : ModMem := { fill := .unset, cells := [] }

/-- The canonical form: indexes strictly rising, inside MODMEM, and no entry equal to what an unlisted one reads as. -/
abbrev ModMem.wf (m : ModMem) : Prop :=
  (m.cells.map Prod.fst).Pairwise (· < ·) ∧ ∀ p ∈ m.cells, p.1 < Config.modmemSize ∧ p.2 ≠ m.fill.code p.1

/-- `MemRead(idx, 1)` (00_scope.md R12; R41). An index outside MODMEM does not exist. -/
def memRead (idx : Nat) (s : State) : Except Fault ModCode :=
  if idx < Config.modmemSize then .ok (s.modmem.get idx) else .error .noSuchModule

/-- `MemWrite(idx, 1, c)` (00_scope.md R12; R41). -/
def memWrite (idx : Nat) (c : ModCode) (s : State) : Ran :=
  if idx < Config.modmemSize then .done { s with modmem := s.modmem.put idx c } else .halted .noSuchModule

/-- c[2:1] (R41): 0 Unset, 1 Reserved, 2 Data. -/
def moduleKind (c : ModCode) : BitVec 2 := c.extractLsb' 1 2

/-- {0b01, dark} (R41, R136). -/
def reservedCode (dark : Bool) : ModCode := 0b01#2 ++ BitVec.ofBool dark

/-- {0b10, dark} (R41, R134). -/
def dataCode (dark : Bool) : ModCode := 0b10#2 ++ BitVec.ofBool dark

/-! ### The register files G and R -/

/-- G[i] (10_state.md R34). -/
def readG (s : State) (i : Nat) : Byte :=
  match s.g with
  | .held bytes => bytes.getD i 0#8
  | .unspecified epoch => Config.freeG epoch i

/-- R[i] (10_state.md R35). -/
def readR (s : State) (i : Nat) : Byte :=
  match s.r with
  | .held bytes => bytes.getD i 0#8
  | .unspecified epoch => Config.freeR epoch i

/-! ### RESULT -/

/-- `RESULT <- zext_32(v)` (10_state.md R23). -/
def setResult {n : Nat} (v : BitVec n) (s : State) : State := { s with result := zext32 v }

/-! ### Faults -/

/-- The value of FCODE for a fault (60_exceptions.md R161). -/
def FaultCode.code : FaultCode → BitVec 4
  | .illegalOpcode => 1#4
  | .reservedBits => 2#4
  | .sequence => 3#4
  | .operandRange => 4#4
  | .gfDomain => 5#4
  | .moduleOverwrite => 6#4
  | .plOverrun => 7#4
  | .plUnderrun => 8#4

/-- The fault of a word that is no command (30_encoding.md R54, R55). -/
def decodeFault : DecodeError → FaultCode
  | .illegalOpcode => .illegalOpcode
  | .reservedBits => .reservedBits

/-- `record_fault(code, w)` (R163): taking a fault. -/
def recordFault (c : FaultCode) (w : Word) (s : State) : State :=
  { s with fault := true, fcode := c.code, faultCmd := w }

/-- `if cond: raise Fault(code)`, then the rest (R160, R162). -/
def raiseIf (cond : Prop) [Decidable cond] (c : FaultCode) (k : State → Ran) (s : State) : Ran :=
  if cond then .raised c s else k s

/-- How a command ends (43_control.md R150): a fault it raised is recorded with its word. -/
def Ran.outcome (x : Ran) (w : Word) : Host.Outcome State Fault Refusal :=
  match x with
  | .done s => .next s
  | .raised c s => .next (recordFault c w s)
  | .halted f => .fault f

/-- A word while FAULT = 1 is ignored (R151), whatever it would do otherwise. RESET does not pass here. -/
def unlessLocked (s : State) (x : Host.Outcome State Fault Refusal) : Host.Outcome State Fault Refusal :=
  if s.fault then .next s else x

/-- The frame of every command but RESET (R150, R151): ignored while locked, else its pseudocode, whose fault is recorded
with the command's word (DEDUCED: log entries 10, 11). -/
def command (i : Instr) (body : State → Ran) (s : State) : Host.Outcome State Fault Refusal :=
  unlessLocked s ((body s).outcome (encode i))

/-- A word that is no command (30_encoding.md R54, R55; R150, R151). -/
def rejectWord (e : DecodeError) (w : Word) (s : State) : Host.Outcome State Fault Refusal :=
  unlessLocked s (.next (recordFault (decodeFault e) w s))

/-! ### Reset -/

/-- `reset_state()` (70_reset_and_hazards.md R180). MODMEM, G and R become unspecified: free values drawn at `epoch` (DESIGN CHOICE: log entry
6). The parameters, the host's list and the reply are no state of the reset. -/
def resetState (s : State) : State where
  params := s.params
  host := s.host
  reply := s.reply
  result := 0#32
  fault := false
  fcode := 0#4
  faultCmd := 0#32
  rsActive := false
  rsN := 0#8
  g := .unspecified s.epoch
  r := .unspecified s.epoch
  rsCnt := 0#16
  phase := .idle
  ver := 0#8
  cursor := .zero
  plCnt := 0#16
  modmem := { fill := .unspecified s.epoch, cells := [] }
  epoch := s.epoch + 1

end Sys2Proof.Machine
end

