-- ==== Sys2Proof/Machine/Control.lean ====
section
/-! DEFINITION. The meanings of NOP and RESET (43_control.md R152, R153). -/

namespace Sys2Proof.Machine

/-- NOP (R152). -/
def execNop (s : State) : Host.Outcome State Fault Refusal := command .nop .done s

/-- RESET (R153): obeyed while locked too, so it does not pass the lock. -/
def execReset (s : State) : Host.Outcome State Fault Refusal := .next (resetState s)

end Sys2Proof.Machine
end

