-- ==== Sys2Proof/Machine/Operands.lean ====
section
/-! DEFINITION. The operand checks of the commands (30_encoding.md R52), SIZE, module indexes and the bit order of a codeword. -/

namespace Sys2Proof.Machine

/-- SIZE (10_state.md R37): 0 when VER = 0, else 4 * VER + 17. -/
def sideOf (ver : Byte) : Nat := if ver = 0#8 then 0 else 4 * ver.toNat + 17

/-- S of the current matrix (R37). -/
def State.size (s : State) : Nat := sideOf s.ver

/-- n > EC_MAX (41_rs_encoder.md R84). -/
abbrev ecCountTooLarge (n : Byte) (s : State) : Prop := s.params.ecMax < n

/-- v < 1 or v > 40 (42_placer.md R135; 00_scope.md R8). -/
abbrev versionOutside (v : Byte) : Prop := v < 1#8 ∨ 40#8 < v

/-- row >= S or col >= S (42_placer.md R136, R137). -/
abbrev cellOutside (row col : Byte) (s : State) : Prop := s.size ≤ row.toNat ∨ s.size ≤ col.toNat

/-- idx(r, c) = r * S + c (20_memory.md R42). -/
def cellIndex (size row col : Nat) : Nat := row * size + col

/-- The bits of a codeword in the order they are placed, bit 7 first (00_scope.md R15; 42_placer.md R138). -/
def bitsMsbFirst (d : Byte) : List Bool :=
  [d.getLsbD 7, d.getLsbD 6, d.getLsbD 5, d.getLsbD 4, d.getLsbD 3, d.getLsbD 2, d.getLsbD 1, d.getLsbD 0]

end Sys2Proof.Machine
end

