-- ==== Sys2Proof/Machine/GfArith.lean ====
section
/-! DEFINITION. The meanings of GF_MUL, GF_DIV, GF_EXP and GF_LOG (40_gf_arith.md R66 to R69). -/

namespace Sys2Proof.Machine

/-- GF_MUL a, b (R66). -/
def execGfMul (a b : Byte) (s : State) : Host.Outcome State Fault Refusal :=
  command (.gfMul a b) (fun s => .done (setResult (gmul a b) s)) s

/-- GF_DIV a, b (R67): GF_DOMAIN for b = 0, whatever a is (R65). -/
def execGfDiv (a b : Byte) (s : State) : Host.Outcome State Fault Refusal :=
  command (.gfDiv a b) (raiseIf (b = 0#8) .gfDomain (fun s => .done (setResult (gdiv a b) s))) s

/-- GF_EXP e (R68). -/
def execGfExp (e : Byte) (s : State) : Host.Outcome State Fault Refusal :=
  command (.gfExp e) (fun s => .done (setResult (gfExp (e.toNat % 255)) s)) s

/-- GF_LOG a (R69): GF_DOMAIN for a = 0 (R65). -/
def execGfLog (a : Byte) (s : State) : Host.Outcome State Fault Refusal :=
  command (.gfLog a) (raiseIf (a = 0#8) .gfDomain (fun s => .done (setResult (gfLog a) s))) s

end Sys2Proof.Machine
end

