-- ==== Sys2Proof/Machine/Path.lean ====
section
/-! DEFINITION. The placement path (42_placer.md R130 to R134, R139): cursor start and step, seek, placing bits, zero fill. -/

namespace Sys2Proof.Machine

/-- The cursor at the start of the path (R130). -/
def cursorStart (size : Nat) : Cursor :=
  { row := BitVec.ofNat 8 (size - 1), col := BitVec.ofNat 8 (size - 1), up := true, right := true, done := false }

/-- The right column of the pair after the one whose right column is `right` (R131): two further left, and one more over
column 6. -/
def nextRightColumn (right : Nat) : Nat := if right - 2 = 6 then 5 else right - 2

/-- `step()` (R131). -/
def pathStep (size : Nat) (c : Cursor) : Cursor :=
  if c.right then { c with col := BitVec.ofNat 8 (c.col.toNat - 1), right := false }
  else if c.up ∧ c.row.toNat ≠ 0 then
    { c with col := BitVec.ofNat 8 (c.col.toNat + 1), right := true, row := BitVec.ofNat 8 (c.row.toNat - 1) }
  else if ¬ c.up ∧ c.row.toNat ≠ size - 1 then
    { c with col := BitVec.ofNat 8 (c.col.toNat + 1), right := true, row := BitVec.ofNat 8 (c.row.toNat + 1) }
  else if c.col.toNat + 1 = 1 then { c with done := true }
  else { c with col := BitVec.ofNat 8 (nextRightColumn (c.col.toNat + 1)), right := true, up := !c.up }

/-- The index of the cursor's cell (20_memory.md R42). -/
def cursorIndex (s : State) : Nat := cellIndex s.size s.cursor.row.toNat s.cursor.col.toNat

/-- `step()` on the state (R131). -/
def stepCursor (s : State) : State := { s with cursor := pathStep s.size s.cursor }

/-- `seek()` (R132): over every cell that is not Unset. The first argument bounds the walk (DESIGN CHOICE: log entry 9). -/
def seekWithin : Nat → State → Ran
  | 0, _ => .halted .endlessWalk
  | k + 1, s =>
    if s.cursor.done then .done s
    else
      match memRead (cursorIndex s) s with
      | .error f => .halted f
      | .ok c => if moduleKind c = 0b00#2 then .done s else seekWithin k (stepCursor s)

/-- `seek()` (R132). -/
def seek (s : State) : Ran := seekWithin Config.pathFuel s

/-- `place_bit(b)` (R134). -/
def placeBit (b : Bool) (s : State) : Ran :=
  (seek s).andThen fun s =>
    raiseIf (s.cursor.done = true) .plOverrun (fun s =>
      (memWrite (cursorIndex s) (dataCode b) s).andThen fun s =>
        .done (stepCursor { s with plCnt := s.plCnt + 1#16 })) s

/-- `place_bit` for each bit of a list, in order (R138). -/
def placeBits : List Bool → State → Ran
  | [], s => .done s
  | b :: bs, s => (placeBit b s).andThen (placeBits bs)

/-- `zero_fill()` (R139). The first argument bounds the number of cells filled (DESIGN CHOICE: log entry 9). -/
def zeroFillWithin : Nat → State → Ran
  | 0, _ => .halted .endlessWalk
  | k + 1, s =>
    (seek s).andThen fun s =>
      if s.cursor.done then .done s
      else (memWrite (cursorIndex s) 0b100#3 s).andThen fun s => zeroFillWithin k (stepCursor s)

/-- `zero_fill()` (R139). -/
def zeroFill (s : State) : Ran := zeroFillWithin Config.pathFuel s

end Sys2Proof.Machine
end

