-- ==== Sys2Proof/Machine/Placer.lean ====
section
/-! DEFINITION. The meanings of MTX_INIT, MOD_RSV, MOD_RD, PL_DATA and PL_FINISH (42_placer.md R135 to R140). -/

namespace Sys2Proof.Machine

/-- MTX_INIT v (R135). -/
def execMtxInit (v : Byte) (s : State) : Host.Outcome State Fault Refusal :=
  command (.mtxInit v)
    (raiseIf (versionOutside v) .operandRange fun s =>
      .done { s with ver := v, modmem := .allUnset, cursor := cursorStart (sideOf v), plCnt := 0#16, phase := .build }) s

/-- MOD_RSV row, col, dark (R136). -/
def execModRsv (row col : Byte) (dark : Bool) (s : State) : Host.Outcome State Fault Refusal :=
  command (.modRsv row col dark)
    (raiseIf (s.phase ≠ .build) .sequence <| raiseIf (cellOutside row col s) .operandRange fun s =>
      let idx := cellIndex s.size row.toNat col.toNat
      match memRead idx s with
      | .error f => .halted f
      | .ok c => raiseIf (moduleKind c ≠ 0b00#2) .moduleOverwrite (memWrite idx (reservedCode dark)) s) s

/-- MOD_RD row, col (R137). -/
def execModRd (row col : Byte) (s : State) : Host.Outcome State Fault Refusal :=
  command (.modRd row col)
    (raiseIf (s.phase = .idle) .sequence <| raiseIf (cellOutside row col s) .operandRange fun s =>
      match memRead (cellIndex s.size row.toNat col.toNat) s with
      | .error f => .halted f
      | .ok c => .done (setResult c s)) s

/-- PL_DATA d (R138). -/
def execPlData (d : Byte) (s : State) : Host.Outcome State Fault Refusal :=
  command (.plData d)
    (raiseIf (s.phase ≠ .build ∧ s.phase ≠ .place) .sequence fun s =>
      placeBits (bitsMsbFirst d) { s with phase := .place }) s

/-- What PL_FINISH does after its seek, when Unset cells remain (R140): PL_UNDERRUN or zero fill, by REMAINDER_POLICY. -/
def finishRemainder (s : State) : Ran :=
  if s.cursor.done then .done s
  else
    match s.params.policy with
    | .fatal => .raised .plUnderrun s
    | .zeroFill => zeroFill s

/-- PL_FINISH (R140). -/
def execPlFinish (s : State) : Host.Outcome State Fault Refusal :=
  command .plFinish
    (raiseIf (s.phase ≠ .build ∧ s.phase ≠ .place) .sequence fun s =>
      ((seek s).andThen finishRemainder).andThen fun s => .done { s with phase := .finished }) s

end Sys2Proof.Machine
end

