-- ==== Sys2Proof/Machine/RsUnit.lean ====
section
/-! DEFINITION. The RS unit (41_rs_encoder.md): the generator polynomial, the remainder step, and the meanings of RS_START,
RS_DATA, RS_RDEC and RS_RDGEN (R80, R82, R84 to R87). -/

namespace Sys2Proof.Machine

/-- A polynomial, highest degree first, multiplied by [1, e] (R80): coefficient j of the product is p[j] plus p[j-1] times e. -/
def timesLinear (p : List Byte) (e : Byte) : List Byte :=
  List.zipWith (· ^^^ ·) (p ++ [0#8]) (0#8 :: p.map (fun c => gmul c e))

/-- The coefficients of g_n, highest degree first (R80): start with [1], multiply by [1, exp[i]] for i in 0..n. -/
def generator : Nat → List Byte
  | 0 => [1#8]
  | i + 1 => timesLinear (generator i) (gfExp i)

/-- The register file G after `gen(n)` (R80): g_n and zeros above it (DEDUCED: log entry 16). -/
def generatorFile (n : Nat) (s : State) : List Byte := generator n ++ List.replicate (s.params.ecMax.toNat - n) 0#8

/-- `rs_step(d)` (R82) with n = RS_N: the new contents of R. Entries at n and above stay. -/
def remainderStep (d : Byte) (s : State) : List Byte :=
  let n := s.rsN.toNat
  let f := d ^^^ readR s 0
  (List.range s.params.ecMax.toNat).map fun i =>
    if i + 1 < n then readR s (i + 1) ^^^ gmul (readG s (i + 1)) f
    else if i + 1 = n then gmul (readG s n) f
    else readR s i

/-- RS_START n (R84). -/
def execRsStart (n : Byte) (s : State) : Host.Outcome State Fault Refusal :=
  command (.rsStart n)
    (raiseIf (ecCountTooLarge n s) .operandRange fun s =>
      .done { s with g := .held (generatorFile n.toNat s), r := .held (List.replicate s.params.ecMax.toNat 0#8),
                     rsN := n, rsCnt := 0#16, rsActive := true }) s

/-- RS_DATA d (R85). -/
def execRsData (d : Byte) (s : State) : Host.Outcome State Fault Refusal :=
  command (.rsData d)
    (raiseIf (s.rsActive = false) .sequence fun s =>
      .done { s with r := .held (remainderStep d s), rsCnt := s.rsCnt + 1#16 }) s

/-- RS_RDEC i (R86). -/
def execRsRdec (i : Byte) (s : State) : Host.Outcome State Fault Refusal :=
  command (.rsRdec i)
    (raiseIf (s.rsActive = false) .sequence <| raiseIf (s.rsN ≤ i) .operandRange fun s =>
      .done (setResult (readR s i.toNat) s)) s

/-- RS_RDGEN i (R87). -/
def execRsRdgen (i : Byte) (s : State) : Host.Outcome State Fault Refusal :=
  command (.rsRdgen i)
    (raiseIf (s.rsActive = false) .sequence <| raiseIf (s.rsN < i) .operandRange fun s =>
      .done (setResult (readG s i.toNat) s)) s

end Sys2Proof.Machine
end

