-- ==== Sys2Proof/Machine/Dispatch.lean ====
section
/-! DEFINITION. The meaning of every command, one arm per constructor of Instr. -/

namespace Sys2Proof.Machine

def exec (i : Instr) (s : State) : Host.Outcome State Fault Refusal :=
  match i with
  | .nop => Sys2Proof.Machine.execNop s
  | .reset => Sys2Proof.Machine.execReset s
  | .gfMul a b => Sys2Proof.Machine.execGfMul a b s
  | .gfDiv a b => Sys2Proof.Machine.execGfDiv a b s
  | .gfExp e => Sys2Proof.Machine.execGfExp e s
  | .gfLog a => Sys2Proof.Machine.execGfLog a s
  | .rsStart n => Sys2Proof.Machine.execRsStart n s
  | .rsData d => Sys2Proof.Machine.execRsData d s
  | .rsRdec k => Sys2Proof.Machine.execRsRdec k s
  | .rsRdgen k => Sys2Proof.Machine.execRsRdgen k s
  | .mtxInit v => Sys2Proof.Machine.execMtxInit v s
  | .modRsv row col dark => Sys2Proof.Machine.execModRsv row col dark s
  | .modRd row col => Sys2Proof.Machine.execModRd row col s
  | .plData d => Sys2Proof.Machine.execPlData d s
  | .plFinish => Sys2Proof.Machine.execPlFinish s

end Sys2Proof.Machine
end

