-- ==== Sys2Proof/Machine/Flags.lean ====
section
/-! DEFINITION. The status fields and the port registers assembled from the state at each read (10_state.md R21 to R31). -/

namespace Sys2Proof.Machine

/-- PL_PHASE as its 2-bit value (R26). -/
def Phase.bits : Phase → BitVec 2
  | .idle => 0#2
  | .build => 1#2
  | .place => 2#2
  | .finished => 3#2

/-- REMAINDER_POLICY as ID[0] (R31). -/
def policyBit : Policy → BitVec 1
  | .fatal => 0#1
  | .zeroFill => 1#1

/-- STATUS (R24). -/
def statusWord (s : State) : Word :=
  fieldAt 0 (BitVec.ofBool s.rsActive) ||| fieldAt 1 s.phase.bits ||| fieldAt 3 (BitVec.ofBool s.cursor.done) |||
    fieldAt 4 (BitVec.ofBool s.fault) ||| fieldAt 8 s.fcode

/-- CURSOR (R25). -/
def cursorWord (s : State) : Word :=
  fieldAt 0 s.cursor.col ||| fieldAt 8 s.cursor.row ||| fieldAt 16 (BitVec.ofBool s.cursor.up) |||
    fieldAt 17 (BitVec.ofBool s.cursor.right) ||| fieldAt 18 (BitVec.ofBool s.cursor.done)

/-- RSINFO (R27). -/
def rsinfoWord (s : State) : Word := fieldAt 0 s.rsN ||| fieldAt 16 s.rsCnt

/-- PLINFO (R28). -/
def plinfoWord (s : State) : Word := fieldAt 0 s.plCnt ||| fieldAt 16 s.ver ||| fieldAt 24 (BitVec.ofNat 8 s.size)

/-- ID (R31). -/
def idWord (s : State) : Word :=
  fieldAt 0 (policyBit s.params.policy) ||| fieldAt 8 s.params.ecMax ||| fieldAt 16 0x525A#16

/-- The address of a port register (R21). -/
def portAddress : PortReg → PortAddr
  | .cmd => 0#3
  | .result => 1#3
  | .status => 2#3
  | .cursor => 3#3
  | .rsinfo => 4#3
  | .plinfo => 5#3
  | .faultcmd => 6#3
  | .id => 7#3

/-- `Read(A)` (20_memory.md R47; R21): every address reads, and CMD reads 0. -/
def readPort (s : State) (a : PortAddr) : Word :=
  if a = 1#3 then s.result
  else if a = 2#3 then statusWord s
  else if a = 3#3 then cursorWord s
  else if a = 4#3 then rsinfoWord s
  else if a = 5#3 then plinfoWord s
  else if a = 6#3 then s.faultCmd
  else if a = 7#3 then idWord s
  else 0#32

/-- The output `fault_o` (60_exceptions.md R166): equals FAULT at all times. -/
def faultOutput (s : State) : Bool := s.fault

end Sys2Proof.Machine
end

