-- ==== Sys2Proof/Machine/Port.lean ====
section
/-! DEFINITION. The host port (20_memory.md R45 to R48): what one transaction does, and the issue of a command word
(43_control.md R150). -/

namespace Sys2Proof.Machine

/-- `issue(w)` (R150). The lock of R151 stands in `command` and `rejectWord` (DEDUCED: log entry 11). -/
def issue (w : Word) (s : State) : Host.Outcome State Fault Refusal :=
  match decode w with
  | .ok i => exec i s
  | .error e => rejectWord e w s

/-- `Write(A, w)` (R47): to CMD it issues w, elsewhere it changes nothing. -/
def writePort (a : PortAddr) (w : Word) (s : State) : Host.Outcome State Fault Refusal :=
  if a = 0#3 then issue w s else .next s

/-- One event at the port (R46, R48; 70_reset_and_hazards.md R180, R181), with the state's list already shortened. A write is
acknowledged, a read gives its word, and rst_n low gives nothing: a CMD write it cuts leaves only the reset state. -/
def portEvent (e : HostEvent) (s : State) : Host.Outcome State Fault Refusal :=
  match e with
  | .read a => .next { s with reply := .data (readPort s a) }
  | .write a w => writePort a w { s with reply := .acked }
  | .resetLow _ => .next { resetState s with reply := .none }
  | .outside v => .refused (.hostOutsideSpec v)

/-- The block between transactions (60_exceptions.md R173): it holds its state, and the port acknowledges nothing. -/
def idleCycle (s : State) : State := { s with reply := .none }

/-- The state with a transaction put before those the host has yet to present. -/
def presentFirst (e : HostEvent) (s : State) : State := { s with host := e :: s.host }

end Sys2Proof.Machine
end

