-- ==== Sys2Proof/Machine/Step.lean ====
section
/-! DEFINITION. One step of the machine: the host's next transaction, or an idle cycle when it presents none (DESIGN CHOICE: log entry 1). -/

namespace Sys2Proof.Machine

/-- One step: the oldest event of the host's list is performed as one atomic event (20_memory.md R46, R48). -/
def step (s : State) : Host.Outcome State Fault Refusal :=
  match s.host with
  | [] => .next (idleCycle s)
  | e :: rest => portEvent e { s with host := rest }

/-- The state in which the host next writes the command word `w` to CMD (DESIGN CHOICE: log entry 1). -/
def State.withFetchWord (s : State) (nbits w : Nat) : State :=
  presentFirst (.write 0#3 (BitVec.ofNat 32 (w % 2 ^ nbits))) s

end Sys2Proof.Machine
end

