-- ==== Sys2Proof/WellFormed.lean ====
section
/-! DEFINITION. What is well formed. A term of `Instr` cannot be ill formed: its fields have the widths of R51. What can be
is a line of the assembler ("An operand outside its field width is an assembly error, not a command", 30_encoding.md R57)
and a choice of the parameters (00_scope.md R6). -/

namespace Sys2Proof

/-- EC_MAX is 1 to 255 (R6). -/
def Params.wellFormed (p : Params) : Bool := p.ecMax != 0#8

/-- The widths of the operand fields of a mnemonic, in the order they are written (R51, R57); none for a name that is no
mnemonic. -/
def operandWidths (mnemonic : String) : Option (List Nat) :=
  if mnemonic = "NOP" ∨ mnemonic = "RESET" ∨ mnemonic = "PL_FINISH" then some []
  else if mnemonic = "GF_EXP" ∨ mnemonic = "GF_LOG" ∨ mnemonic = "RS_START" ∨ mnemonic = "RS_DATA" ∨
      mnemonic = "RS_RDEC" ∨ mnemonic = "RS_RDGEN" ∨ mnemonic = "MTX_INIT" ∨ mnemonic = "PL_DATA" then some [8]
  else if mnemonic = "GF_MUL" ∨ mnemonic = "GF_DIV" ∨ mnemonic = "MOD_RD" then some [8, 8]
  else if mnemonic = "MOD_RSV" then some [8, 8, 1]
  else none

/-- A command line is well formed when its mnemonic exists, it has that mnemonic's number of operands, and each fits its
field (R57). -/
def commandWellFormed (mnemonic : String) (operands : List Nat) : Bool :=
  match operandWidths mnemonic with
  | none => false
  | some ws => operands.length == ws.length && (operands.zip ws).all (fun p => p.1 < 2 ^ p.2)

end Sys2Proof
end

