-- ==== Sys2Proof/Safety.lean ====
section
/-! DEFINITION. What claims are stated in: the field of 40_gf_arith.md R60, the long division of 41_rs_encoder.md R81, the path
of 42_placer.md R131, R133 seen as a list of cells, runs of commands, and the legal states of the block. -/

namespace Sys2Proof.Machine

/-! ### The field, from polynomials (R60) -/

/-- The product of two polynomials over GF(2) of degree below 8, exactly (R60). -/
def polyTimes (a b : Byte) : BitVec 16 :=
  ((List.range 8).map fun i => if b.getLsbD i then a.setWidth 16 <<< i else 0#16).foldl (· ^^^ ·) 0#16

/-- The remainder modulo p(x), bit pattern 0x11D (R60): a term of degree 14 down to 8 is removed by adding a multiple of p. -/
def polyReduce (v : BitVec 16) : Byte :=
  ([14, 13, 12, 11, 10, 9, 8].foldl (fun v i => if v.getLsbD i then v ^^^ (0x11D#16 <<< (i - 8)) else v) v).setWidth 8

/-- Multiplication in GF(256) as R60 defines it, without tables. -/
def polyProduct (a b : Byte) : Byte := polyReduce (polyTimes a b)

/-- The value at x of a polynomial given highest degree first (00_scope.md R14). -/
def evalPoly (p : List Byte) (x : Byte) : Byte := p.foldl (fun acc c => gmul acc x ^^^ c) 0#8

/-! ### The long division (R81) -/

/-- Coefficientwise addition of `g` to the front of `m`. -/
def addToFront : List Byte → List Byte → List Byte
  | [], _ => []
  | m, [] => m
  | a :: m, b :: g => (a ^^^ b) :: addToFront m g

/-- One reduction: the leading term f of the dividend is removed by adding f times the divisor (R81). -/
def reduceLeading (divisor : List Byte) : List Byte → List Byte
  | [] => []
  | f :: rest => if f = 0#8 then rest else addToFront rest (divisor.tail.map fun c => gmul c f)

/-- Reductions for the first `k` terms of the dividend (R81). -/
def longDivision (divisor : List Byte) : Nat → List Byte → List Byte
  | 0, m => m
  | k + 1, m => longDivision divisor k (reduceLeading divisor m)

/-- `ec_codewords(d, n)` (R81): the dividend is the data followed by n zeros, and the n terms left are the result. -/
def ecCodewords (data : List Byte) (n : Nat) : List Byte :=
  longDivision (generator n) data.length (data ++ List.replicate n 0#8)

/-! ### The printed generators (R83) -/

/-- Rows 0 to 11 of the table of 41_rs_encoder.md R83: g_n[0] first. -/
def generatorRows0 : List (List Byte) :=
  [ [0x01#8],
    [0x01#8, 0x01#8],
    [0x01#8, 0x03#8, 0x02#8],
    [0x01#8, 0x07#8, 0x0E#8, 0x08#8],
    [0x01#8, 0x0F#8, 0x36#8, 0x78#8, 0x40#8],
    [0x01#8, 0x1F#8, 0xC6#8, 0x3F#8, 0x93#8, 0x74#8],
    [0x01#8, 0x3F#8, 0x01#8, 0xDA#8, 0x20#8, 0xE3#8, 0x26#8],
    [0x01#8, 0x7F#8, 0x7A#8, 0x9A#8, 0xA4#8, 0x0B#8, 0x44#8, 0x75#8],
    [0x01#8, 0xFF#8, 0x0B#8, 0x51#8, 0x36#8, 0xEF#8, 0xAD#8, 0xC8#8, 0x18#8],
    [0x01#8, 0xE2#8, 0xCF#8, 0x9E#8, 0xF5#8, 0xEB#8, 0xA4#8, 0xE8#8, 0xC5#8, 0x25#8],
    [0x01#8, 0xD8#8, 0xC2#8, 0x9F#8, 0x6F#8, 0xC7#8, 0x5E#8, 0x5F#8, 0x71#8, 0x9D#8, 0xC1#8],
    [0x01#8, 0xAC#8, 0x82#8, 0xA3#8, 0x32#8, 0x7B#8, 0xDB#8, 0xA2#8, 0xF8#8, 0x90#8, 0x74#8, 0xA0#8] ]

/-- Rows 12 to 21 of the table of 41_rs_encoder.md R83: g_n[0] first. -/
def generatorRows1 : List (List Byte) :=
  [ [0x01#8, 0x44#8, 0x77#8, 0x43#8, 0x76#8, 0xDC#8, 0x1F#8, 0x07#8, 0x54#8, 0x5C#8, 0x7F#8, 0xD5#8, 0x61#8],
    [0x01#8, 0x89#8, 0x49#8, 0xE3#8, 0x11#8, 0xB1#8, 0x11#8, 0x34#8, 0x0D#8, 0x2E#8, 0x2B#8, 0x53#8, 0x84#8, 0x78#8],
    [0x01#8, 0x0E#8, 0x36#8, 0x72#8, 0x46#8, 0xAE#8, 0x97#8, 0x2B#8, 0x9E#8, 0xC3#8, 0x7F#8, 0xA6#8, 0xD2#8, 0xEA#8, 0xA3#8],
    [0x01#8, 0x1D#8, 0xC4#8, 0x6F#8, 0xA3#8, 0x70#8, 0x4A#8, 0x0A#8, 0x69#8, 0x69#8, 0x8B#8, 0x84#8, 0x97#8, 0x20#8, 0x86#8, 0x1A#8],
    [0x01#8, 0x3B#8, 0x0D#8, 0x68#8, 0xBD#8, 0x44#8, 0xD1#8, 0x1E#8, 0x08#8, 0xA3#8, 0x41#8, 0x29#8, 0xE5#8, 0x62#8, 0x32#8, 0x24#8, 0x3B#8],
    [0x01#8, 0x77#8, 0x42#8, 0x53#8, 0x78#8, 0x77#8, 0x16#8, 0xC5#8, 0x53#8, 0xF9#8, 0x29#8, 0x8F#8, 0x86#8, 0x55#8, 0x35#8, 0x7D#8, 0x63#8, 0x4F#8],
    [0x01#8, 0xEF#8, 0xFB#8, 0xB7#8, 0x71#8, 0x95#8, 0xAF#8, 0xC7#8, 0xD7#8, 0xF0#8, 0xDC#8, 0x49#8, 0x52#8, 0xAD#8, 0x4B#8, 0x20#8, 0x43#8, 0xD9#8, 0x92#8],
    [0x01#8, 0xC2#8, 0x08#8, 0x1A#8, 0x92#8, 0x14#8, 0xDF#8, 0xBB#8, 0x98#8, 0x55#8, 0x73#8, 0xEE#8, 0x85#8, 0x92#8, 0x6D#8, 0xAD#8, 0x8A#8, 0x21#8, 0xAC#8, 0xB3#8],
    [0x01#8, 0x98#8, 0xB9#8, 0xF0#8, 0x05#8, 0x6F#8, 0x63#8, 0x06#8, 0xDC#8, 0x70#8, 0x96#8, 0x45#8, 0x24#8, 0xBB#8, 0x16#8, 0xE4#8, 0xC6#8, 0x79#8, 0x79#8, 0xA5#8, 0xAE#8],
    [0x01#8, 0x2C#8, 0xF3#8, 0x0D#8, 0x83#8, 0x31#8, 0x84#8, 0xC2#8, 0x43#8, 0xD6#8, 0x1C#8, 0x59#8, 0x7C#8, 0x52#8, 0x9E#8, 0xF4#8, 0x25#8, 0xEC#8, 0x8E#8, 0x52#8, 0xFF#8, 0x59#8] ]

/-- Rows 22 to 30 of the table of 41_rs_encoder.md R83: g_n[0] first. -/
def generatorRows2 : List (List Byte) :=
  [ [0x01#8, 0x59#8, 0xB3#8, 0x83#8, 0xB0#8, 0xB6#8, 0xF4#8, 0x13#8, 0xBD#8, 0x45#8, 0x28#8, 0x1C#8, 0x89#8, 0x1D#8, 0x7B#8, 0x43#8, 0xFD#8, 0x56#8, 0xDA#8, 0xE6#8, 0x1A#8, 0x91#8, 0xF5#8],
    [0x01#8, 0xB3#8, 0x44#8, 0x9A#8, 0xA3#8, 0x8C#8, 0x88#8, 0xBE#8, 0x98#8, 0x19#8, 0x55#8, 0x13#8, 0x03#8, 0xC4#8, 0x1B#8, 0x71#8, 0xC6#8, 0x12#8, 0x82#8, 0x02#8, 0x78#8, 0x5D#8, 0x29#8, 0x47#8],
    [0x01#8, 0x7A#8, 0x76#8, 0xA9#8, 0x46#8, 0xB2#8, 0xED#8, 0xD8#8, 0x66#8, 0x73#8, 0x96#8, 0xE5#8, 0x49#8, 0x82#8, 0x48#8, 0x3D#8, 0x2B#8, 0xCE#8, 0x01#8, 0xED#8, 0xF7#8, 0x7F#8, 0xD9#8, 0x90#8, 0x75#8],
    [0x01#8, 0xF5#8, 0x31#8, 0xE4#8, 0x35#8, 0xD7#8, 0x06#8, 0xCD#8, 0xD2#8, 0x26#8, 0x52#8, 0x38#8, 0x50#8, 0x61#8, 0x8B#8, 0x51#8, 0x86#8, 0x7E#8, 0xA8#8, 0x62#8, 0xE2#8, 0x7D#8, 0x17#8, 0xAB#8, 0xAD#8, 0xC1#8],
    [0x01#8, 0xF6#8, 0x33#8, 0xB7#8, 0x04#8, 0x88#8, 0x62#8, 0xC7#8, 0x98#8, 0x4D#8, 0x38#8, 0xCE#8, 0x18#8, 0x91#8, 0x28#8, 0xD1#8, 0x75#8, 0xE9#8, 0x2A#8, 0x87#8, 0x44#8, 0x46#8, 0x90#8, 0x92#8, 0x4D#8, 0x2B#8, 0x5E#8],
    [0x01#8, 0xF0#8, 0x3D#8, 0x1D#8, 0x91#8, 0x90#8, 0x75#8, 0x96#8, 0x30#8, 0x3A#8, 0x8B#8, 0x5E#8, 0x86#8, 0xC1#8, 0x69#8, 0x21#8, 0xA9#8, 0xCA#8, 0x66#8, 0x7B#8, 0x71#8, 0xC3#8, 0x19#8, 0xD5#8, 0x06#8, 0x98#8, 0xA4#8, 0xD9#8],
    [0x01#8, 0xFC#8, 0x09#8, 0x1C#8, 0x0D#8, 0x12#8, 0xFB#8, 0xD0#8, 0x96#8, 0x67#8, 0xAE#8, 0x64#8, 0x29#8, 0xA7#8, 0x0C#8, 0xF7#8, 0x38#8, 0x75#8, 0x77#8, 0xE9#8, 0x7F#8, 0xB5#8, 0x64#8, 0x79#8, 0x93#8, 0xB0#8, 0x4A#8, 0x3A#8, 0xC5#8],
    [0x01#8, 0xE4#8, 0xC1#8, 0xC4#8, 0x30#8, 0xAA#8, 0x56#8, 0x50#8, 0xD9#8, 0x36#8, 0x8F#8, 0x4F#8, 0x20#8, 0x58#8, 0xFF#8, 0x57#8, 0x18#8, 0x0F#8, 0xFB#8, 0x55#8, 0x52#8, 0xC9#8, 0x3A#8, 0x70#8, 0xBF#8, 0x99#8, 0x6C#8, 0x84#8, 0x8F#8, 0xAA#8],
    [0x01#8, 0xD4#8, 0xF6#8, 0x4D#8, 0x49#8, 0xC3#8, 0xC0#8, 0x4B#8, 0x62#8, 0x05#8, 0x46#8, 0x67#8, 0xB1#8, 0x16#8, 0xD9#8, 0x8A#8, 0x33#8, 0xB5#8, 0xF6#8, 0x48#8, 0x19#8, 0x12#8, 0x2E#8, 0xE4#8, 0x4A#8, 0xD8#8, 0xC3#8, 0x0B#8, 0x6A#8, 0x82#8, 0x96#8] ]

/-- The table of 41_rs_encoder.md R83, entry n being g_n. -/
def generatorRows : List (List Byte) := generatorRows0 ++ generatorRows1 ++ generatorRows2

/-! ### Runs of commands -/

/-- The commands of a list, one after the other. -/
def execAll : List Instr → State → Host.Outcome State Fault Refusal
  | [], s => .next s
  | i :: is, s =>
    match exec i s with
    | .next t => execAll is t
    | .fault f => .fault f
    | .refused r => .refused r

/-! ### The path (42_placer.md R131, R133) -/

/-- A legal matrix side: 4v + 17 for v in 1..40 (00_scope.md R8, R9). -/
abbrev legalSize (size : Nat) : Prop := 21 ≤ size ∧ size ≤ 177 ∧ size % 4 = 1

/-- The right column of the cursor's column pair. -/
def pairRight (c : Cursor) : Nat := if c.right then c.col.toNat else c.col.toNat + 1

/-- The right columns of the pairs: S-1, S-3, ..., 8, then 5, 3, 1 (R131). -/
abbrev isPairRight (size right : Nat) : Prop := (8 ≤ right ∧ right < size ∧ right % 2 = 0) ∨ right = 5 ∨ right = 3 ∨ right = 1

/-- The direction alternates from pair to pair, starting upward at S-1 (R131). -/
def pairGoesUp (right : Nat) : Bool := if 8 ≤ right then right % 4 == 0 else right == 3

/-- The cursor after the walk has ended: on (S-1, 0), which it reached moving down (R133). -/
def cursorEnd (size : Nat) : Cursor :=
  { row := BitVec.ofNat 8 (size - 1), col := 0#8, up := false, right := false, done := true }

/-- The cursor is one that the path passes. -/
abbrev Cursor.onPath (size : Nat) (c : Cursor) : Prop :=
  c.row.toNat < size ∧ isPairRight size (pairRight c) ∧ c.up = pairGoesUp (pairRight c) ∧
  (c.done = true → c = cursorEnd size)

/-- How many pairs come after one. -/
def pairsAfter (right : Nat) : Nat := if 8 ≤ right then (right - 2) / 2 else (right - 1) / 2

/-- How many cells of the path are left, the cursor's own among them (R133). -/
def cellsLeft (size : Nat) (c : Cursor) : Nat :=
  if c.done then 0
  else pairsAfter (pairRight c) * (2 * size) + 2 * (if c.up then c.row.toNat else size - 1 - c.row.toNat) +
    (if c.right then 2 else 1)

/-- The cells of the path from a cursor on, at most `k` of them. -/
def pathCells (size : Nat) : Nat → Cursor → List Cursor
  | 0, _ => []
  | k + 1, c => if c.done then [] else c :: pathCells size k (pathStep size c)

/-- All cells of the path from a cursor on. -/
def pathFrom (size : Nat) (c : Cursor) : List Cursor := pathCells size Config.pathFuel c

/-- The entry of MODMEM of a cell of the path. -/
def cellOf (size : Nat) (c : Cursor) : Nat := cellIndex size c.row.toNat c.col.toNat

/-- The module of a cell is Unset. -/
def isUnset (m : ModMem) (size : Nat) (c : Cursor) : Bool := moduleKind (m.get (cellOf size c)) == 0#2

/-- The Unset cells that lie ahead of the cursor on the path, in path order. -/
def unsetAhead (s : State) : List Cursor := (pathFrom s.size s.cursor).filter (isUnset s.modmem s.size)

/-! ### Unspecified contents (43_control.md R154) -/

/-- Two states that differ at most in what the spec leaves unspecified: G and R before RS_START (10_state.md R34, R35), MODMEM before
MTX_INIT (20_memory.md R41). -/
abbrev sameButUnspecified (s u : State) : Prop :=
  u = { s with g := u.g, r := u.r, modmem := u.modmem } ∧ (s.rsActive = true → u.g = s.g ∧ u.r = s.r) ∧
  (s.phase ≠ .idle → u.modmem = s.modmem)

/-! ### Legal states -/

/-- The module codes that occur (20_memory.md R41). -/
def legalCodes : List ModCode := [0b000#3, 0b010#3, 0b011#3, 0b100#3, 0b101#3]

/-- MODMEM of a matrix: every entry is legal (20_memory.md R41), and those of no module are Unset (R42). -/
abbrev ModMem.legal (size : Nat) (m : ModMem) : Prop :=
  m.fill = .unset ∧ ∀ p ∈ m.cells, p.1 < size * size ∧ p.2 ∈ legalCodes

/-- The legal states: what every step keeps, and what rules out the states no run reaches. -/
structure State.Inv (s : State) : Prop where
  /-- EC_MAX is legal (00_scope.md R6). -/
  params_legal : s.params.wellFormed = true
  /-- FCODE and FAULTCMD are 0 while no fault is recorded (10_state.md R24, R29). -/
  unlocked_clear : s.fault = false → s.fcode = 0#4 ∧ s.faultCmd = 0#32
  /-- A recorded fault has one of the codes 1 to 8 (60_exceptions.md R161). -/
  locked_code : s.fault = true → 1 ≤ s.fcode.toNat ∧ s.fcode.toNat ≤ 8
  /-- 0 ≤ RS_N ≤ EC_MAX (R33). -/
  rsN_le : s.rsN.toNat ≤ s.params.ecMax.toNat
  /-- Before RS_START, RS_N and RS_CNT are 0 (R32, R33, R36). -/
  rs_inactive : s.rsActive = false → s.rsN = 0#8 ∧ s.rsCnt = 0#16
  /-- G holds the generator of degree RS_N, and zeros above it (R34). -/
  g_generator : s.rsActive = true → s.g = .held (generatorFile s.rsN.toNat s)
  /-- R has EC_MAX entries, zero from RS_N on (R35). -/
  r_tail_zero : s.rsActive = true → ∃ bytes : List Byte, s.r = .held bytes ∧ bytes.length = s.params.ecMax.toNat ∧
    ∀ i, s.rsN.toNat ≤ i → bytes.getD i 0#8 = 0#8
  /-- VER = 0 exactly when there is no matrix (R37). -/
  idle_iff : s.phase = .idle ↔ s.ver = 0#8
  /-- VER is at most 40 (R37). -/
  ver_le : s.ver.toNat ≤ 40
  /-- Without a matrix the cursor and PLCNT are 0 (R38, R39). -/
  idle_zero : s.phase = .idle → s.cursor = .zero ∧ s.plCnt = 0#16
  /-- The cursor is on the path (R131, R133). -/
  on_path : s.phase ≠ .idle → s.cursor.onPath s.size
  /-- The walk has ended in FINISHED (R140). -/
  finished_done : s.phase = .finished → s.cursor.done = true
  /-- Nothing has been placed in BUILD (R26, R39). -/
  build_empty : s.phase = .build → s.plCnt = 0#16 ∧ ∀ idx, moduleKind (s.modmem.get idx) ≠ 2#2
  /-- Until the first PL_DATA the cursor is at the start of the path (R130); only a PL_UNDERRUN has moved it (60_exceptions.md
  R164). -/
  build_start : s.phase = .build → s.fault = false → s.cursor = cursorStart s.size
  /-- PLCNT counts cells the walk has left behind (R39). -/
  count_le : s.phase ≠ .idle → s.plCnt.toNat + cellsLeft s.size s.cursor ≤ s.size * (s.size - 1)
  /-- MODMEM is in canonical form. -/
  mem_wf : s.modmem.wf
  /-- With a matrix, MODMEM holds legal modules of it (20_memory.md R41, R42). -/
  mem_legal : s.phase ≠ .idle → s.modmem.legal s.size

end Sys2Proof.Machine
end

