-- ==== Sys2Proof/Certificates/Slice0/Obligations.lean ====
section
/-! DEFINITION. The statements about RSZP for the provers. Each docstring names the rule of spec/ it formalises. -/

open Sys2Proof Sys2Proof.Machine

/-! ### Encoding -/

/-- 30_encoding.md R51, R52, R53, R56: every command's word decodes to that command, with every value of every operand. -/
def Obligations.DecodeOfEncode : Prop := ∀ i : Instr, decode (encode i) = .ok i

/-- 30_encoding.md R55, R56: decoding is strict, so a word that decodes is the word of its command. -/
def Obligations.EncodeOfDecode : Prop := ∀ (w : Word) (i : Instr), decode w = .ok i → encode i = w

/-- 30_encoding.md R53: the rows of the opcode map (opcode, match, mask, and the command of the bare match), and for each of them a
word is that row's command exactly when (w & mask) == match. -/
def Obligations.WordIsCommandWhenMaskMatches : Prop :=
  (opcodeMap.map fun row => (row.opcode, row.pattern, row.mask, row.build row.pattern)) =
    [ (0x00#8, 0x00000000#32, 0xFFFFFFFF#32, .nop), (0x01#8, 0x01000000#32, 0xFFFFFFFF#32, .reset),
      (0x10#8, 0x10000000#32, 0xFFFF0000#32, .gfMul 0#8 0#8), (0x11#8, 0x11000000#32, 0xFFFF0000#32, .gfDiv 0#8 0#8),
      (0x12#8, 0x12000000#32, 0xFFFFFF00#32, .gfExp 0#8), (0x13#8, 0x13000000#32, 0xFFFFFF00#32, .gfLog 0#8),
      (0x20#8, 0x20000000#32, 0xFFFFFF00#32, .rsStart 0#8), (0x21#8, 0x21000000#32, 0xFFFFFF00#32, .rsData 0#8),
      (0x22#8, 0x22000000#32, 0xFFFFFF00#32, .rsRdec 0#8), (0x23#8, 0x23000000#32, 0xFFFFFF00#32, .rsRdgen 0#8),
      (0x30#8, 0x30000000#32, 0xFFFFFF00#32, .mtxInit 0#8), (0x31#8, 0x31000000#32, 0xFF0000FE#32, .modRsv 0#8 0#8 false),
      (0x32#8, 0x32000000#32, 0xFF0000FF#32, .modRd 0#8 0#8), (0x33#8, 0x33000000#32, 0xFFFFFF00#32, .plData 0#8),
      (0x34#8, 0x34000000#32, 0xFFFFFFFF#32, .plFinish) ] ∧
  ∀ row ∈ opcodeMap, ∀ w : Word, decode w = .ok (row.build w) ↔ w &&& row.mask = row.pattern

/-- 30_encoding.md R54: an opcode byte outside the map raises ILLEGAL_OPCODE and has no other effect, such a word and no other;
and the only word that is NOP is the all-zero word. -/
def Obligations.IllegalOpcodesRaise : Prop :=
  (∀ (w : Word), let op := (w >>> 24).toNat
    decode w = .error .illegalOpcode ↔
      (0x02 ≤ op ∧ op ≤ 0x0F) ∨ (0x14 ≤ op ∧ op ≤ 0x1F) ∨ (0x24 ≤ op ∧ op ≤ 0x2F) ∨ (0x35 ≤ op ∧ op ≤ 0xFF)) ∧
  (∀ (w : Word) (s : State), decode w = .error .illegalOpcode → s.fault = false →
    issue w s = .next { s with fault := true, fcode := 1#4, faultCmd := w }) ∧
  (∀ w : Word, decode w = .ok .nop ↔ w = 0#32)

/-- 30_encoding.md R55: a legal opcode with a reserved-zero bit set raises RESERVED_BITS and has no other effect. -/
def Obligations.ReservedBitsRaise : Prop :=
  ∀ row ∈ opcodeMap, ∀ (w : Word) (s : State), w >>> 24 = row.pattern >>> 24 → w &&& row.mask ≠ row.pattern →
    s.fault = false → issue w s = .next { s with fault := true, fcode := 2#4, faultCmd := w }

/-- 30_encoding.md R53, R57; 95_test_vectors.md: words written out from the encodings decode to their commands. -/
def Obligations.WorkedWordsDecode : Prop :=
  decode 0x00000000#32 = .ok .nop ∧ decode 0x01000000#32 = .ok .reset ∧
  decode 0x100053CA#32 = .ok (.gfMul 0x53#8 0xCA#8) ∧ decode 0x1300001D#32 = .ok (.gfLog 0x1D#8) ∧
  decode 0x20000004#32 = .ok (.rsStart 4#8) ∧ decode 0x22000003#32 = .ok (.rsRdec 3#8) ∧
  decode 0x31141301#32 = .ok (.modRsv 20#8 19#8 true) ∧ decode 0x32001100#32 = .ok (.modRd 0#8 17#8) ∧
  decode 0x330000A5#32 = .ok (.plData 0xA5#8) ∧ decode 0x34000000#32 = .ok .plFinish ∧
  decode 0x05000000#32 = .error .illegalOpcode ∧ decode 0x31000002#32 = .error .reservedBits

/-! ### The port and the issue of commands -/

/-- 43_control.md R150; 20_memory.md R47, R48: when the host's next transaction writes a word that decodes to i to CMD, the step
is exec of i, in the state with that transaction taken from the host's list and acknowledged (DESIGN CHOICE: log entry 1). -/
def Obligations.StepRunsTheDecodedCommand : Prop :=
  ∀ (s : State) (w : Word) (rest : List HostEvent) (i : Instr), s.host = .write 0#3 w :: rest → decode w = .ok i →
    step s = exec i { s with host := rest, reply := .acked }

/-- 43_control.md R150, R151: a write to CMD runs the issue cycle as the rule writes it, the lock before the decoding (the
model has the lock in `command` and `rejectWord`, DEDUCED: log entry 11). -/
def Obligations.IssueFollowsTheCycle : Prop :=
  ∀ (w : Word) (s : State),
    issue w s =
      if s.fault = true then (if w = 0x01000000#32 then .next (resetState s) else .next s)
      else
        match decode w with
        | .ok i => exec i s
        | .error .illegalOpcode => .next { s with fault := true, fcode := 1#4, faultCmd := w }
        | .error .reservedBits => .next { s with fault := true, fcode := 2#4, faultCmd := w }

/-- 43_control.md R151: while FAULT = 1 every word written to CMD but 0x01000000 changes nothing, and reads still work. -/
def Obligations.LockedBlockIgnoresCommands : Prop :=
  ∀ (s : State) (rest : List HostEvent), s.fault = true →
    (∀ w : Word, s.host = .write 0#3 w :: rest → w ≠ 0x01000000#32 →
      step s = .next { s with host := rest, reply := .acked }) ∧
    (∀ a : PortAddr, s.host = .read a :: rest → step s = .next { s with host := rest, reply := .data (readPort s a) })

/-- 60_exceptions.md R165: only the RESET word written to CMD or rst_n low leaves the locked state, and both clear FCODE and
FAULTCMD. -/
def Obligations.OnlyResetUnlocks : Prop :=
  ∀ s t : State, s.fault = true → step s = .next t →
    (t.fault = true ∧ t.fcode = s.fcode ∧ t.faultCmd = s.faultCmd) ∨
    (t.fault = false ∧ t.fcode = 0#4 ∧ t.faultCmd = 0#32 ∧
      ∃ rest, s.host = .write 0#3 0x01000000#32 :: rest ∨ ∃ cut, s.host = .resetLow cut :: rest)

/-- 20_memory.md R47: Read(0) gives 0 and Read(1..7) the registers of R21; Write(0, w) issues w; Write(1..7, w) is acknowledged
and changes nothing. -/
def Obligations.PortAccessRules : Prop :=
  (∀ (s : State) (a : PortAddr) (rest : List HostEvent), s.host = .read a :: rest →
    ∃ v : Word, step s = .next { s with host := rest, reply := .data v } ∧
      (a = 0#3 → v = 0#32) ∧ (a = 1#3 → v = s.result) ∧ (a = 2#3 → v = statusWord s) ∧ (a = 3#3 → v = cursorWord s) ∧
      (a = 4#3 → v = rsinfoWord s) ∧ (a = 5#3 → v = plinfoWord s) ∧ (a = 6#3 → v = s.faultCmd) ∧ (a = 7#3 → v = idWord s)) ∧
  (∀ (s : State) (w : Word) (rest : List HostEvent), s.host = .write 0#3 w :: rest →
    step s = issue w { s with host := rest, reply := .acked }) ∧
  (∀ (s : State) (a : PortAddr) (w : Word) (rest : List HostEvent), s.host = .write a w :: rest → a ≠ 0#3 →
    step s = .next { s with host := rest, reply := .acked })

/-- 10_state.md R24: the fields of STATUS as address 2 reads them, its reset value, and that a write to it changes no register. -/
def Obligations.StatusFields : Prop :=
  (∀ s : State, readPort s 2#3 = statusWord s ∧
    (statusWord s).getLsbD 0 = s.rsActive ∧
    (statusWord s).extractLsb' 1 2 =
      (match s.phase with | .idle => 0#2 | .build => 1#2 | .place => 2#2 | .finished => 3#2) ∧
    (statusWord s).getLsbD 3 = s.cursor.done ∧ (statusWord s).getLsbD 4 = s.fault ∧
    (statusWord s).extractLsb' 5 3 = 0#3 ∧ (statusWord s).extractLsb' 8 4 = s.fcode ∧
    (statusWord s).extractLsb' 12 20 = 0#20) ∧
  statusWord State.reset = 0#32 ∧
  (∀ (s : State) (w : Word) (rest : List HostEvent), s.host = .write 2#3 w :: rest →
    ∃ t, step s = .next t ∧ t = { s with host := t.host, reply := t.reply })

/-- 10_state.md R25, R27, R28: the fields of CURSOR, RSINFO and PLINFO as addresses 3, 4 and 5 read them, their reset values, and that
a write to them changes no register. SIZE is 0 without a matrix and
4 * VER + 17 with one (R37); the premise bounds VER as R37 does. -/
def Obligations.InfoRegisterFields : Prop :=
  (∀ s : State, readPort s 3#3 = cursorWord s ∧ readPort s 4#3 = rsinfoWord s ∧ readPort s 5#3 = plinfoWord s ∧
    (cursorWord s).extractLsb' 0 8 = s.cursor.col ∧ (cursorWord s).extractLsb' 8 8 = s.cursor.row ∧
    (cursorWord s).getLsbD 16 = s.cursor.up ∧ (cursorWord s).getLsbD 17 = s.cursor.right ∧
    (cursorWord s).getLsbD 18 = s.cursor.done ∧ (cursorWord s).extractLsb' 19 13 = 0#13 ∧
    (rsinfoWord s).extractLsb' 0 8 = s.rsN ∧ (rsinfoWord s).extractLsb' 8 8 = 0#8 ∧
    (rsinfoWord s).extractLsb' 16 16 = s.rsCnt ∧
    (plinfoWord s).extractLsb' 0 16 = s.plCnt ∧ (plinfoWord s).extractLsb' 16 8 = s.ver ∧
    (s.ver.toNat ≤ 40 →
      ((plinfoWord s).extractLsb' 24 8).toNat = if s.ver = 0#8 then 0 else 4 * s.ver.toNat + 17)) ∧
  cursorWord State.reset = 0#32 ∧ rsinfoWord State.reset = 0#32 ∧ plinfoWord State.reset = 0#32 ∧
  (∀ (s : State) (a : PortAddr) (w : Word) (rest : List HostEvent), a = 3#3 ∨ a = 4#3 ∨ a = 5#3 → s.host = .write a w :: rest →
    ∃ t, step s = .next t ∧ t = { s with host := t.host, reply := t.reply })

/-- 10_state.md R31: the fields of ID as address 7 reads it, its value for RSZP-1, and that no step changes it. -/
def Obligations.IdNeverChanges : Prop :=
  (∀ s : State, readPort s 7#3 = idWord s ∧ (idWord s).extractLsb' 16 16 = 0x525A#16 ∧ (idWord s).extractLsb' 8 8 = s.params.ecMax ∧
    (idWord s).extractLsb' 1 7 = 0#7 ∧ (idWord s).getLsbD 0 = (s.params.policy == .zeroFill)) ∧
  idWord State.reset = 0x525A1E00#32 ∧
  (∀ s t : State, step s = .next t → t.params = s.params ∧ idWord t = idWord s)

/-- 60_exceptions.md R173: between transactions the block holds its state (DESIGN CHOICE: log entries 1, 2: an idle step only withdraws the
reply). -/
def Obligations.IdleStepHoldsTheState : Prop :=
  ∀ s : State, s.host = [] → step s = .next { s with reply := .none }

/-! ### Reset -/

/-- 43_control.md R153; 70_reset_and_hazards.md R180: RESET completes in every state, locked or not, with every register at its
reset value; the parameters stay (the host's list and the reply are the model's own: DESIGN CHOICE: log entries 1, 2). -/
def Obligations.ResetCommandCompletes : Prop :=
  ∀ s : State, ∃ t : State, exec .reset s = .next t ∧
    t.result = 0#32 ∧ t.fault = false ∧ t.fcode = 0#4 ∧ t.faultCmd = 0#32 ∧
    t.rsActive = false ∧ t.rsN = 0#8 ∧ t.rsCnt = 0#16 ∧
    t.phase = .idle ∧ t.ver = 0#8 ∧ t.size = 0 ∧ t.plCnt = 0#16 ∧
    t.cursor = { row := 0#8, col := 0#8, up := false, right := false, done := false } ∧
    faultOutput t = false ∧ t.params = s.params ∧ t.host = s.host ∧ t.reply = s.reply

/-- 70_reset_and_hazards.md R180, R181: rst_n low and the RESET command give the same state but for the acknowledgement; a CMD
write that rst_n cuts leaves nothing of its command. -/
def Obligations.ResetPinMatchesResetCommand : Prop :=
  ∀ (s : State) (rest : List HostEvent) (cut : Option Word), ∃ t : State,
    step { s with host := .resetLow cut :: rest } = .next { t with reply := .none } ∧
    step { s with host := .write 0#3 0x01000000#32 :: rest } = .next { t with reply := .acked }

/-- 70_reset_and_hazards.md R180: what the eight registers read after reset, for RSZP-1; and in every state after the RESET
command or rst_n, all but ID read 0. -/
def Obligations.RegistersReadAfterReset : Prop :=
  (readPort State.reset 0#3 = 0#32 ∧ readPort State.reset 1#3 = 0#32 ∧ readPort State.reset 2#3 = 0#32 ∧
    readPort State.reset 3#3 = 0#32 ∧ readPort State.reset 4#3 = 0#32 ∧ readPort State.reset 5#3 = 0#32 ∧
    readPort State.reset 6#3 = 0#32 ∧ readPort State.reset 7#3 = 0x525A1E00#32) ∧
  (∀ (s : State) (a : PortAddr), a ≠ 7#3 → readPort (resetState s) a = 0#32) ∧
  (∀ s : State, readPort (resetState s) 7#3 = readPort s 7#3)

/-! ### Faults -/

/-- 60_exceptions.md R160, R163: a command of an unlocked block that faults with any code but PL_OVERRUN (7) and PL_UNDERRUN
(8) has no effect but the recording of its code and its word. -/
def Obligations.OtherFaultsArePrecise : Prop :=
  ∀ (i : Instr) (s t : State), s.fault = false → exec i s = .next t → t.fault = true → t.fcode ≠ 7#4 → t.fcode ≠ 8#4 →
    t = { s with fault := true, fcode := t.fcode, faultCmd := encode i }

/-- 60_exceptions.md R161, R163: every fault a command records has a code of 3 to 8 (1 and 2 are those of words that are no
command), the faulting word in FAULTCMD, and RESULT as it was. -/
def Obligations.FaultsAreRecorded : Prop :=
  ∀ (i : Instr) (s t : State), s.fault = false → exec i s = .next t → t.fault = true →
    3 ≤ t.fcode.toNat ∧ t.fcode.toNat ≤ 8 ∧ t.faultCmd = encode i ∧ t.result = s.result ∧ faultOutput t = true

/-- 40_gf_arith.md R65: GF_LOG 0 and GF_DIV by 0 raise GF_DOMAIN, and nothing else does. -/
def Obligations.GfDomainIsLogOfZero : Prop :=
  (∀ s : State, s.fault = false →
    exec (.gfLog 0#8) s = .next { s with fault := true, fcode := 5#4, faultCmd := encode (.gfLog 0#8) }) ∧
  (∀ (a : Byte) (s : State), s.fault = false →
    exec (.gfDiv a 0#8) s = .next { s with fault := true, fcode := 5#4, faultCmd := encode (.gfDiv a 0#8) }) ∧
  (∀ (i : Instr) (s t : State), s.fault = false → exec i s = .next t → t.fcode = 5#4 → t.fault = true →
    i = .gfLog 0#8 ∨ ∃ a, i = .gfDiv a 0#8)

/-! ### GF(256) -/

/-- 40_gf_arith.md R61: exp[0] = 1, exp[i+1] = xtime(exp[i]), and the 255 values are distinct and cover every nonzero element. -/
def Obligations.ExpTableFollowsItsRule : Prop :=
  gfExp 0 = 0x01#8 ∧
  (∀ i < 254, gfExp (i + 1) = if (gfExp i).getLsbD 7 then (gfExp i <<< 1) ^^^ 0x1D#8 else gfExp i <<< 1) ∧
  (∀ i < 255, ∀ j < 255, gfExp i = gfExp j → i = j) ∧
  (∀ a : Byte, a ≠ 0#8 → ∃ i < 255, gfExp i = a)

/-- 40_gf_arith.md R62: log[exp[i]] = i for i in 0..255. -/
def Obligations.LogTableInvertsExp : Prop := ∀ i < 255, (gfLog (gfExp i)).toNat = i

/-- 40_gf_arith.md R60, R63: the product by tables is the product of polynomials modulo x^8 + x^4 + x^3 + x^2 + 1. -/
def Obligations.ProductIsPolynomialProduct : Prop := ∀ a b : Byte, gmul a b = polyProduct a b

/-- 40_gf_arith.md R64: the quotient by tables, and that division undoes multiplication. -/
def Obligations.DivisionUndoesMultiplication : Prop :=
  (∀ a b : Byte, b ≠ 0#8 →
    gdiv a b = if a = 0#8 then 0#8 else gfExp (((gfLog a).toNat + 255 - (gfLog b).toNat) % 255)) ∧
  ∀ a b : Byte, b ≠ 0#8 → gmul (gdiv a b) b = a ∧ gdiv (gmul a b) b = a

/-- 40_gf_arith.md R70: the laws of a field. -/
def Obligations.FieldLaws : Prop :=
  (∀ a b : Byte, gmul a b = gmul b a) ∧
  (∀ a b c : Byte, gmul (gmul a b) c = gmul a (gmul b c)) ∧
  (∀ a b c : Byte, gmul a (b ^^^ c) = gmul a b ^^^ gmul a c) ∧
  (∀ a : Byte, gmul a 1#8 = a ∧ gmul a 0#8 = 0#8) ∧
  (∀ a : Byte, a ≠ 0#8 → gmul a (gdiv 1#8 a) = 1#8)

/-- 40_gf_arith.md R66 to R69: GF_MUL and GF_EXP complete in every unlocked state, GF_DIV and GF_LOG in every unlocked state for a
nonzero divisor or operand, and each changes RESULT alone. -/
def Obligations.GfCommandsComplete : Prop :=
  ∀ s : State, s.fault = false →
    (∀ a b : Byte, exec (.gfMul a b) s = .next { s with result := zext32 (gmul a b) }) ∧
    (∀ e : Byte, exec (.gfExp e) s = .next { s with result := zext32 (gfExp (e.toNat % 255)) }) ∧
    (∀ a b : Byte, b ≠ 0#8 → exec (.gfDiv a b) s = .next { s with result := zext32 (gdiv a b) }) ∧
    (∀ a : Byte, a ≠ 0#8 → exec (.gfLog a) s = .next { s with result := zext32 (gfLog a) })

/-- 43_control.md R152: NOP completes in every state and leaves every register as it was. -/
def Obligations.NopCompletes : Prop := ∀ s : State, exec .nop s = .next s

/-! ### The RS unit -/

/-- 41_rs_encoder.md R83: the printed generators for n = 0 to 30, and the exponent forms of g_7 and g_10. -/
def Obligations.PrintedGenerators : Prop :=
  (∀ n ≤ 30, generator n = generatorRows.getD n []) ∧
  generator 7 = [0, 87, 229, 146, 149, 238, 102, 21].map gfExp ∧
  generator 10 = [0, 251, 67, 46, 61, 118, 70, 64, 94, 32, 45].map gfExp

/-- 41_rs_encoder.md R80: g_n is monic of degree n, and its roots are exp[0] to exp[n-1], for every n that EC_MAX can admit. -/
def Obligations.GeneratorIsMonicWithItsRoots : Prop :=
  ∀ n ≤ 255, (generator n).length = n + 1 ∧ (generator n).head? = some 1#8 ∧
    ∀ i < n, evalPoly (generator n) (gfExp i) = 0#8

/-- 41_rs_encoder.md R84; 10_state.md R34, R35: RS_START n completes in every unlocked state with n ≤ EC_MAX: G holds g_n and zeros
above it, R holds zeros, and nothing but the RS unit's registers changes. -/
def Obligations.RsStartCompletes : Prop :=
  ∀ (n : Byte) (s : State), s.fault = false → n.toNat ≤ s.params.ecMax.toNat →
    ∃ t : State, exec (.rsStart n) s = .next t ∧
      t = { s with g := t.g, r := t.r, rsN := n, rsCnt := 0#16, rsActive := true } ∧
      (∀ j ≤ n.toNat, readG t j = (generator n.toNat).getD j 0#8) ∧
      (∀ j, n.toNat < j → j ≤ s.params.ecMax.toNat → readG t j = 0#8) ∧
      (∀ j < s.params.ecMax.toNat, readR t j = 0#8)

/-- 41_rs_encoder.md R82, R85: RS_DATA d completes in every unlocked state with RS_ACTIVE = 1: one shift-register step on R[0..n-1],
the entries above stay, RS_CNT counts modulo 2^16, and nothing else changes. -/
def Obligations.RsDataCompletes : Prop :=
  ∀ (d : Byte) (s : State), s.fault = false → s.rsActive = true → s.rsN.toNat ≤ s.params.ecMax.toNat →
    ∃ t : State, exec (.rsData d) s = .next t ∧ t = { s with r := t.r, rsCnt := s.rsCnt + 1#16 } ∧
      (∀ j, j + 1 < s.rsN.toNat → readR t j = readR s (j + 1) ^^^ gmul (readG s (j + 1)) (d ^^^ readR s 0)) ∧
      (∀ j, j + 1 = s.rsN.toNat → readR t j = gmul (readG s s.rsN.toNat) (d ^^^ readR s 0)) ∧
      (∀ j, s.rsN.toNat ≤ j → j < s.params.ecMax.toNat → readR t j = readR s j)

/-- 41_rs_encoder.md R86, R87: RS_RDEC i and RS_RDGEN i complete in every unlocked state with RS_ACTIVE = 1 for an i in range, and
change RESULT alone. -/
def Obligations.RsReadsComplete : Prop :=
  ∀ (i : Byte) (s : State), s.fault = false → s.rsActive = true →
    (i.toNat < s.rsN.toNat → exec (.rsRdec i) s = .next { s with result := zext32 (readR s i.toNat) }) ∧
    (i.toNat ≤ s.rsN.toNat → exec (.rsRdgen i) s = .next { s with result := zext32 (readG s i.toNat) })

/-- 41_rs_encoder.md R84 to R87; 60_exceptions.md R161, R162: when the RS unit's commands fault, and with which code: SEQUENCE before
OPERAND_RANGE. -/
def Obligations.RsUnitFaults : Prop :=
  ∀ s : State, s.fault = false →
    (∀ n : Byte, s.params.ecMax.toNat < n.toNat →
      exec (.rsStart n) s = .next { s with fault := true, fcode := 4#4, faultCmd := encode (.rsStart n) }) ∧
    (∀ d : Byte, s.rsActive = false →
      exec (.rsData d) s = .next { s with fault := true, fcode := 3#4, faultCmd := encode (.rsData d) }) ∧
    (∀ i : Byte, s.rsActive = false ∨ s.rsN.toNat ≤ i.toNat →
      exec (.rsRdec i) s = .next { s with fault := true, fcode := if s.rsActive = false then 3#4 else 4#4,
                                          faultCmd := encode (.rsRdec i) }) ∧
    (∀ i : Byte, s.rsActive = false ∨ s.rsN.toNat < i.toNat →
      exec (.rsRdgen i) s = .next { s with fault := true, fcode := if s.rsActive = false then 3#4 else 4#4,
                                           faultCmd := encode (.rsRdgen i) })

/-- 10_state.md R32: RS_ACTIVE is set by RS_START, and only reset clears it. -/
def Obligations.OnlyResetClearsRsActive : Prop :=
  ∀ s t : State, step s = .next t →
    (s.rsActive = true → t.rsActive = false → ∃ rest,
      (∃ cut, s.host = .resetLow cut :: rest) ∨ s.host = .write 0#3 0x01000000#32 :: rest) ∧
    (s.rsActive = false → t.rsActive = true → ∃ n rest, s.host = .write 0#3 (encode (.rsStart n)) :: rest)

/-- 41_rs_encoder.md R81, R88: after RS_START n and RS_DATA for each codeword of a block, R[0..n-1] holds the EC codewords the long
division gives for the block, and the entries above are 0. -/
def Obligations.RemainderIsTheLongDivision : Prop :=
  ∀ (s : State) (n : Byte) (data : List Byte), s.fault = false → n.toNat ≤ s.params.ecMax.toNat →
    ∃ (t : State) (bytes : List Byte), execAll (.rsStart n :: data.map .rsData) s = .next t ∧ t.fault = false ∧
      t.r = .held bytes ∧ bytes.length = s.params.ecMax.toNat ∧
      bytes.take n.toNat = ecCodewords data n.toNat ∧ ∀ j, n.toNat ≤ j → bytes.getD j 0#8 = 0#8

/-- 41_rs_encoder.md R88: a block followed by its own EC codewords leaves the remainder all zero. -/
def Obligations.CodewordLeavesZeroRemainder : Prop :=
  ∀ (s : State) (n : Byte) (data : List Byte), s.fault = false → n.toNat ≤ s.params.ecMax.toNat →
    ∃ t : State, execAll (.rsStart n :: (data ++ ecCodewords data n.toNat).map .rsData) s = .next t ∧
      t.fault = false ∧ ∀ j < s.params.ecMax.toNat, readR t j = 0#8

/-- 41_rs_encoder.md R89: the EC codewords depend GF(256)-linearly on the block, an all-zero block gives zeros, and a block of one
codeword gives multiples of the generator's coefficients. -/
def Obligations.EcCodewordsAreLinear : Prop :=
  (∀ (n : Nat) (a b : List Byte), a.length = b.length →
    ecCodewords (List.zipWith (· ^^^ ·) a b) n = List.zipWith (· ^^^ ·) (ecCodewords a n) (ecCodewords b n)) ∧
  (∀ (n : Nat) (c : Byte) (a : List Byte), ecCodewords (a.map (gmul c)) n = (ecCodewords a n).map (gmul c)) ∧
  (∀ n k : Nat, ecCodewords (List.replicate k 0#8) n = List.replicate n 0#8) ∧
  (∀ (n : Nat) (d : Byte), ecCodewords [d] n = (generator n).tail.map (gmul d))

/-! ### The placement unit -/

/-- 42_placer.md R130, R135: MTX_INIT v completes in every unlocked state for v in 1..40, whatever the phase: every entry Unset, the
cursor at the start, BUILD; the RS unit and RESULT do not change. -/
def Obligations.MtxInitCompletes : Prop :=
  ∀ (v : Byte) (s : State), s.fault = false → 1 ≤ v.toNat → v.toNat ≤ 40 →
    ∃ t : State, exec (.mtxInit v) s = .next t ∧
      t = { s with ver := v, phase := .build, plCnt := 0#16, modmem := t.modmem, cursor := t.cursor } ∧
      t.size = 4 * v.toNat + 17 ∧ t.cursor.row.toNat = t.size - 1 ∧ t.cursor.col.toNat = t.size - 1 ∧
      t.cursor.up = true ∧ t.cursor.right = true ∧ t.cursor.done = false ∧ ∀ idx, t.modmem.get idx = 0#3

/-- 42_placer.md R136: MOD_RSV completes in every unlocked state in BUILD for an Unset module of the matrix, and changes that one
module alone. -/
def Obligations.ModRsvCompletes : Prop :=
  ∀ (row col : Byte) (dark : Bool) (s : State), s.fault = false → s.phase = .build → s.ver.toNat ≤ 40 →
    row.toNat < s.size → col.toNat < s.size → moduleKind (s.modmem.get (row.toNat * s.size + col.toNat)) = 0#2 →
    ∃ t : State, exec (.modRsv row col dark) s = .next t ∧ t = { s with modmem := t.modmem } ∧
      ∀ idx, t.modmem.get idx =
        if idx = row.toNat * s.size + col.toNat then (if dark = true then 0b011#3 else 0b010#3) else s.modmem.get idx

/-- 42_placer.md R137: MOD_RD completes in every unlocked state with a matrix, for a module of it, and changes RESULT alone. -/
def Obligations.ModRdCompletes : Prop :=
  ∀ (row col : Byte) (s : State), s.fault = false → s.phase ≠ .idle → s.ver.toNat ≤ 40 →
    row.toNat < s.size → col.toNat < s.size →
    exec (.modRd row col) s = .next { s with result := zext32 (s.modmem.get (row.toNat * s.size + col.toNat)) }

/-- 42_placer.md R135 to R140; 60_exceptions.md R161, R162: the precise faults of the placement commands, in their priority. -/
def Obligations.PlacerFaults : Prop :=
  ∀ s : State, s.fault = false → s.ver.toNat ≤ 40 →
    (∀ v : Byte, v.toNat < 1 ∨ 40 < v.toNat →
      exec (.mtxInit v) s = .next { s with fault := true, fcode := 4#4, faultCmd := encode (.mtxInit v) }) ∧
    (∀ (row col : Byte) (dark : Bool),
      s.phase ≠ .build ∨ s.size ≤ row.toNat ∨ s.size ≤ col.toNat ∨
        moduleKind (s.modmem.get (row.toNat * s.size + col.toNat)) ≠ 0#2 →
      exec (.modRsv row col dark) s =
        .next { s with fault := true, faultCmd := encode (.modRsv row col dark),
                       fcode := if s.phase ≠ .build then 3#4
                         else if s.size ≤ row.toNat ∨ s.size ≤ col.toNat then 4#4 else 6#4 }) ∧
    (∀ row col : Byte, s.phase = .idle ∨ s.size ≤ row.toNat ∨ s.size ≤ col.toNat →
      exec (.modRd row col) s =
        .next { s with fault := true, faultCmd := encode (.modRd row col),
                       fcode := if s.phase = .idle then 3#4 else 4#4 }) ∧
    (s.phase = .idle ∨ s.phase = .finished →
      (∀ d : Byte, exec (.plData d) s =
        .next { s with fault := true, fcode := 3#4, faultCmd := encode (.plData d) }) ∧
      exec .plFinish s = .next { s with fault := true, fcode := 3#4, faultCmd := encode .plFinish })

/-- 42_placer.md R133: the path visits every cell off column 6 once, has S * (S - 1) cells, and sets CDONE after the last of them,
(S-1, 0), which it reaches moving down, for every v in 1..40; for v = 1 it reverses after cells 42, 84, ..., 378, and goes from (0, 7)
to (0, 5) over column 6. -/
def Obligations.PathVisitsEveryCellOnce : Prop :=
  (∀ v : Nat, 1 ≤ v → v ≤ 40 →
    let size := 4 * v + 17
    let path := pathFrom size (cursorStart size)
    path.length = size * (size - 1) ∧
    (path.map fun c => (c.row.toNat, c.col.toNat)).Nodup ∧
    (∀ c ∈ path, c.row.toNat < size ∧ c.col.toNat < size ∧ c.col.toNat ≠ 6) ∧
    (∀ r q : Nat, r < size → q < size → q ≠ 6 → ∃ c ∈ path, c.row.toNat = r ∧ c.col.toNat = q) ∧
    path.getLast? = some { row := BitVec.ofNat 8 (size - 1), col := 0#8, up := false, right := false, done := false } ∧
    (∀ c, path.getLast? = some c → pathStep size c = { c with done := true })) ∧
  (∀ i < 419, ∀ c d : Cursor, (pathFrom 21 (cursorStart 21))[i]? = some c → (pathFrom 21 (cursorStart 21))[i + 1]? = some d →
    (c.up ≠ d.up ↔ (i + 1) % 42 = 0)) ∧
  (pathFrom 21 (cursorStart 21))[293]? = some { row := 0#8, col := 7#8, up := true, right := false, done := false } ∧
  (pathFrom 21 (cursorStart 21))[294]? = some { row := 0#8, col := 5#8, up := false, right := true, done := false }

/-- 42_placer.md R134, R138: PL_DATA d completes in every legal unlocked state in BUILD or PLACE with at least eight Unset cells ahead
on the path: its bits go to the first eight of them, MSB first, every other entry stays, PLCNT counts them, the cursor is one
step past the eighth, and nothing else changes. -/
def Obligations.PlDataCompletes : Prop :=
  ∀ (d : Byte) (s : State), s.Inv → s.fault = false → (s.phase = .build ∨ s.phase = .place) → 8 ≤ (unsetAhead s).length →
    ∃ t : State, exec (.plData d) s = .next t ∧
      t = { s with phase := .place, modmem := t.modmem, cursor := t.cursor, plCnt := s.plCnt + 8#16 } ∧
      (∀ j < 8, ∀ u, (unsetAhead s)[j]? = some u → t.modmem.get (cellOf s.size u) = dataCode (d.getLsbD (7 - j))) ∧
      (∀ idx, (∀ u ∈ (unsetAhead s).take 8, cellOf s.size u ≠ idx) → t.modmem.get idx = s.modmem.get idx) ∧
      (∀ u, (unsetAhead s)[7]? = some u → t.cursor = pathStep s.size u) ∧
      unsetAhead t = (unsetAhead s).drop 8

/-- 42_placer.md R138; 60_exceptions.md R164: with fewer than eight Unset cells ahead PL_DATA raises PL_OVERRUN: the bits that had a
cell stay placed and counted, the phase is PLACE, and the walk has ended. -/
def Obligations.PlDataOverruns : Prop :=
  ∀ (d : Byte) (s : State), s.Inv → s.fault = false → (s.phase = .build ∨ s.phase = .place) → (unsetAhead s).length < 8 →
    ∃ t : State, exec (.plData d) s = .next t ∧
      t = { s with phase := .place, modmem := t.modmem, cursor := cursorEnd s.size,
                   plCnt := s.plCnt + BitVec.ofNat 16 (unsetAhead s).length,
                   fault := true, fcode := 7#4, faultCmd := encode (.plData d) } ∧
      (∀ j < 8, ∀ u, (unsetAhead s)[j]? = some u → t.modmem.get (cellOf s.size u) = dataCode (d.getLsbD (7 - j))) ∧
      (∀ idx, (∀ u ∈ unsetAhead s, cellOf s.size u ≠ idx) → t.modmem.get idx = s.modmem.get idx)

/-- 42_placer.md R140: PL_FINISH completes in every legal unlocked state in BUILD or PLACE with no Unset cell ahead, under both
policies: the walk ends, the phase is FINISHED, no module changes. -/
def Obligations.PlFinishCompletes : Prop :=
  ∀ s : State, s.Inv → s.fault = false → (s.phase = .build ∨ s.phase = .place) → unsetAhead s = [] →
    exec .plFinish s = .next { s with phase := .finished, cursor := cursorEnd s.size }

/-- 42_placer.md R139, R140: under ZeroFill PL_FINISH completes too when Unset cells are ahead: each becomes Data(light), PLCNT does not
count them, and no other entry changes. -/
def Obligations.PlFinishZeroFills : Prop :=
  ∀ s : State, s.Inv → s.fault = false → (s.phase = .build ∨ s.phase = .place) → s.params.policy = .zeroFill →
    ∃ t : State, exec .plFinish s = .next t ∧
      t = { s with phase := .finished, cursor := cursorEnd s.size, modmem := t.modmem } ∧
      (∀ u ∈ unsetAhead s, t.modmem.get (cellOf s.size u) = 0b100#3) ∧
      (∀ idx, (∀ u ∈ unsetAhead s, cellOf s.size u ≠ idx) → t.modmem.get idx = s.modmem.get idx)

/-- 42_placer.md R140; 60_exceptions.md R164: under Fatal PL_FINISH raises PL_UNDERRUN when an Unset cell is ahead: no module is
written, the phase stays, and the cursor is on the first such cell. -/
def Obligations.PlFinishUnderruns : Prop :=
  ∀ (s : State) (u : Cursor), s.Inv → s.fault = false → (s.phase = .build ∨ s.phase = .place) → s.params.policy = .fatal →
    (unsetAhead s).head? = some u →
    exec .plFinish s = .next { s with cursor := u, fault := true, fcode := 8#4, faultCmd := encode .plFinish }

/-- 42_placer.md R142: bit j of codeword q of the stream lands on the (8q + 7 - j)-th Unset cell of the path, counting from 0. -/
def Obligations.BitOrderOnTheGrid : Prop :=
  ∀ (s : State) (stream : List Byte), s.Inv → s.fault = false → s.phase = .build → 8 * stream.length ≤ (unsetAhead s).length →
    ∃ t : State, execAll (stream.map .plData) s = .next t ∧ t.fault = false ∧
      ∀ (q j : Nat) (d : Byte) (u : Cursor), j < 8 → stream[q]? = some d → (unsetAhead s)[8 * q + 7 - j]? = some u →
        t.modmem.get (cellOf s.size u) = dataCode (d.getLsbD j)

/-- 42_placer.md R141: under Fatal a stream of m codewords and PL_FINISH complete without fault exactly when 8m is the number U of
Unset cells ahead; a longer stream overruns in PL_DATA number U / 8 + 1 after U bits in all, a shorter one underruns. -/
def Obligations.StreamFitsExactly : Prop :=
  ∀ (s : State) (stream : List Byte), s.Inv → s.fault = false → s.phase = .build → s.params.policy = .fatal →
    ∃ t : State, execAll (stream.map .plData ++ [.plFinish]) s = .next t ∧
      (t.fault = false ↔ 8 * stream.length = (unsetAhead s).length) ∧
      (8 * stream.length < (unsetAhead s).length → t.fcode = 8#4 ∧ t.faultCmd = encode .plFinish) ∧
      ((unsetAhead s).length < 8 * stream.length → t.fcode = 7#4 ∧ t.plCnt.toNat = (unsetAhead s).length ∧
        ∀ d, stream[(unsetAhead s).length / 8]? = some d → t.faultCmd = encode (.plData d))

/-- 42_placer.md R125, R136, R138, R139: a module that is not Unset is never overwritten by any command but MTX_INIT (RESET leaves
MODMEM unspecified, 43_control.md R153). -/
def Obligations.SetModulesAreNeverOverwritten : Prop :=
  ∀ (i : Instr) (s t : State) (idx : Nat), i ≠ .reset → (∀ v, i ≠ .mtxInit v) → exec i s = .next t →
    moduleKind (s.modmem.get idx) ≠ 0#2 → t.modmem.get idx = s.modmem.get idx

/-! ### The whole machine -/

/-- 10_state.md R23: only GF_MUL, GF_DIV, GF_EXP, GF_LOG, RS_RDEC, RS_RDGEN and MOD_RD write RESULT (and reset clears it), none of them
when it faults or is ignored, and each writes a value of at most eight bits, zero-extended. -/
def Obligations.OnlyProducersWriteResult : Prop :=
  State.reset.result = 0#32 ∧
  ∀ (i : Instr) (s t : State), exec i s = .next t → i ≠ .reset → t.result ≠ s.result →
    s.fault = false ∧ t.fault = false ∧ t.result.toNat < 256 ∧
    ((∃ a b, i = .gfMul a b) ∨ (∃ a b, i = .gfDiv a b) ∨ (∃ e, i = .gfExp e) ∨ (∃ a, i = .gfLog a) ∨
      (∃ k, i = .rsRdec k) ∨ (∃ k, i = .rsRdgen k) ∨ ∃ row col, i = .modRd row col)

/-- 43_control.md R150; 00_scope.md R3: the GF and RS commands neither write nor read the placement unit: with any other placement
state they do the same, and leave that state as it was. -/
def Obligations.RsUnitIgnoresPlacer : Prop :=
  ∀ (i : Instr) (s t : State) (phase : Phase) (ver : Byte) (cursor : Cursor) (plCnt : BitVec 16) (modmem : ModMem),
    ((∃ a b, i = .gfMul a b) ∨ (∃ a b, i = .gfDiv a b) ∨ (∃ e, i = .gfExp e) ∨ (∃ a, i = .gfLog a) ∨
      (∃ n, i = .rsStart n) ∨ (∃ d, i = .rsData d) ∨ (∃ k, i = .rsRdec k) ∨ ∃ k, i = .rsRdgen k) →
    exec i s = .next t →
    (t.phase = s.phase ∧ t.ver = s.ver ∧ t.cursor = s.cursor ∧ t.plCnt = s.plCnt ∧ t.modmem = s.modmem) ∧
    exec i { s with phase := phase, ver := ver, cursor := cursor, plCnt := plCnt, modmem := modmem } =
      .next { t with phase := phase, ver := ver, cursor := cursor, plCnt := plCnt, modmem := modmem }

/-- 43_control.md R150; 00_scope.md R3: the placement commands and the GF commands neither write nor read the RS unit. -/
def Obligations.PlacerIgnoresRsUnit : Prop :=
  ∀ (i : Instr) (s t : State) (active : Bool) (n : Byte) (g r : RegFile) (cnt : BitVec 16),
    ((∃ v, i = .mtxInit v) ∨ (∃ row col dark, i = .modRsv row col dark) ∨ (∃ row col, i = .modRd row col) ∨
      (∃ d, i = .plData d) ∨ i = .plFinish ∨ (∃ a b, i = .gfMul a b) ∨ (∃ a b, i = .gfDiv a b) ∨ (∃ e, i = .gfExp e) ∨
      ∃ a, i = .gfLog a) →
    exec i s = .next t →
    (t.rsActive = s.rsActive ∧ t.rsN = s.rsN ∧ t.g = s.g ∧ t.r = s.r ∧ t.rsCnt = s.rsCnt) ∧
    exec i { s with rsActive := active, rsN := n, g := g, r := r, rsCnt := cnt } =
      .next { t with rsActive := active, rsN := n, g := g, r := r, rsCnt := cnt }

/-- 43_control.md R154; 10_state.md R34, R35; 20_memory.md R41: no step reads the contents that reset leaves unspecified. Two states
that differ only in them (G and R before RS_START, MODMEM before MTX_INIT) take the same step, with the same RESULT, registers and
reply, to states that again differ only in them. -/
def Obligations.UnspecifiedContentsAreNeverRead : Prop :=
  ∀ s u t : State, sameButUnspecified s u → step s = .next t →
    ∃ v : State, step u = .next v ∧ sameButUnspecified t v ∧ v.result = t.result ∧ v.reply = t.reply ∧
      ∀ a : PortAddr, readPort v a = readPort t a

/-- The state after reset is legal (the premise of the statements about legal states). It holds of the values the spec gives, and of
the model's own choice for G, R and MODMEM (DESIGN CHOICE: log entries 4, 5). -/
def Obligations.ResetStateIsLegal : Prop := State.reset.Inv

/-- Every step keeps a legal state legal: RS_N ≤ EC_MAX, G holds g_n, R is zero above RS_N (10_state.md R33, R34, R35); VER, PL_PHASE and
SIZE agree (R26, R37); the cursor stays on the path (42_placer.md R131, R133); PLCNT never exceeds the cells behind the cursor (R39);
MODMEM holds legal codes (20_memory.md R41, R42), in the canonical form that is the model's own (DESIGN CHOICE: log entry 14); FCODE
is 0 or 1 to 8 (60_exceptions.md R161). -/
def Obligations.StepKeepsLegalStates : Prop := ∀ s t : State, s.Inv → step s = .next t → t.Inv

/-- 43_control.md R150, R154; 93_implementation_defined.md part C: from a legal state no step stops the machine, and the only event
it has no move for is one outside the spec. -/
def Obligations.LegalStatesNeverStop : Prop :=
  ∀ s : State, s.Inv → (∃ t, step s = .next t) ∨
    ∃ v rest, s.host = .outside v :: rest ∧ step s = .refused (.hostOutsideSpec v)

/-- Every step keeps MODMEM in its canonical form, from every state. No rule of the spec states that form: it is the model's own choice
of how it lists the module memory (DESIGN CHOICE: log entry 14). -/
def Obligations.StepKeepsCanonicalMemory : Prop := ∀ s t : State, s.modmem.wf → step s = .next t → t.modmem.wf

/-- 10_state.md R39; 42_placer.md R133: PLCNT never exceeds 31152 in a legal state, so counting a bit never wraps it. -/
def Obligations.PlacedCountNeverWraps : Prop :=
  ∀ (d : Byte) (s t : State), s.Inv → s.plCnt.toNat ≤ 31152 ∧
    (s.fault = false → exec (.plData d) s = .next t →
      s.plCnt.toNat ≤ t.plCnt.toNat ∧ t.plCnt.toNat ≤ s.plCnt.toNat + 8 ∧ t.plCnt.toNat ≤ 31152)
end

