-- ==== Sys2Proof/Laws/Bits.lean ====
section
/-! SUPPORT. The bits of a word put together from fields, and of a field taken out of one (00_scope.md R11). -/

namespace Sys2Proof

/-- Bit i of a field put at bit k. -/
theorem getLsbD_fieldAt {n : Nat} (k : Nat) (v : BitVec n) (i : Nat) :
    (fieldAt k v).getLsbD i = (decide (i < 32) && (decide (k ≤ i) && v.getLsbD (i - k))) := by
  by_cases h : i < 32 <;> by_cases hk : k ≤ i <;> simp [fieldAt, zext32, h, hk]

/-- A field of the width it was put in with is read back, when the others of its word do not reach it. -/
theorem extract_fieldAt {n k j m : Nat} (v : BitVec n) (h : j + m ≤ k ∨ k + n ≤ j) :
    (fieldAt k v).extractLsb' j m = 0#m := by
  ext i hi
  rw [BitVec.getElem_extractLsb', getLsbD_fieldAt]
  simp only [BitVec.getElem_zero]
  rcases h with h | h
  · have : ¬k ≤ j + i := by omega
    simp [this]
  · have : n ≤ j + i - k := by omega
    simp [BitVec.getLsbD_of_ge _ _ this]

theorem extract_fieldAt_same {n k : Nat} (v : BitVec n) (h : k + n ≤ 32) : (fieldAt k v).extractLsb' k n = v := by
  ext i hi
  rw [BitVec.getElem_extractLsb', getLsbD_fieldAt]
  have h1 : k + i < 32 := by omega
  simp [h1, BitVec.getLsbD_eq_getElem hi]

@[simp] theorem extract_or (v w : Word) (j m : Nat) :
    (v ||| w).extractLsb' j m = v.extractLsb' j m ||| w.extractLsb' j m := by
  ext i hi; simp [BitVec.getElem_extractLsb']

end Sys2Proof
end

