-- ==== Sys2Proof/Laws/Memory.lean ====
section
/-! SUPPORT. MODMEM: a read after a write, and the canonical form every operation keeps (20_memory.md R41). -/

namespace Sys2Proof.Machine

theorem cellAt_cellErase_same (l : List (Nat × ModCode)) (idx : Nat) : cellAt (cellErase l idx) idx = none := by
  induction l with
  | nil => rfl
  | cons p l ih =>
    obtain ⟨i, c⟩ := p
    by_cases h : i = idx
    · subst h; simpa [cellErase] using ih
    · simpa [cellErase, h, cellAt] using ih

theorem cellAt_cellErase_other (l : List (Nat × ModCode)) {idx j : Nat} (h : j ≠ idx) :
    cellAt (cellErase l idx) j = cellAt l j := by
  induction l with
  | nil => rfl
  | cons p l ih =>
    obtain ⟨i, c⟩ := p
    by_cases hi : i = idx
    · subst hi; simpa [cellErase, cellAt, Ne.symm h] using ih
    · by_cases hj : i = j
      · simp [cellErase, cellAt, hj, h]
      · simpa [cellErase, hi, cellAt, hj] using ih

theorem cellAt_cellSet_same (l : List (Nat × ModCode)) (idx : Nat) (c : ModCode) :
    cellAt (cellSet l idx c) idx = some c := by
  induction l with
  | nil => simp [cellSet, cellAt]
  | cons p l ih =>
    obtain ⟨i, d⟩ := p
    simp only [cellSet]
    split
    · simp [cellAt]
    · split
      · simp [cellAt]
      · rename_i h; simp [cellAt, h, ih]

theorem cellAt_cellSet_other (l : List (Nat × ModCode)) {idx j : Nat} (c : ModCode) (h : j ≠ idx) :
    cellAt (cellSet l idx c) j = cellAt l j := by
  induction l with
  | nil => simp [cellSet, cellAt, Ne.symm h]
  | cons p l ih =>
    obtain ⟨i, d⟩ := p
    simp only [cellSet]
    split
    · simp [cellAt, Ne.symm h]
    · split
      · rename_i hi; subst hi; simp [cellAt, Ne.symm h]
      · simp [cellAt, ih]

@[simp] theorem ModMem.put_fill (m : ModMem) (idx : Nat) (c : ModCode) : (m.put idx c).fill = m.fill := by
  unfold ModMem.put; split <;> rfl

/-- A read after a write to the same entry gives the code written. -/
@[simp] theorem ModMem.get_put_same (m : ModMem) (idx : Nat) (c : ModCode) : (m.put idx c).get idx = c := by
  unfold ModMem.put ModMem.get
  split
  · rename_i h; simp [cellAt_cellErase_same, ← h]
  · simp [cellAt_cellSet_same]

/-- A write leaves every other entry alone. -/
theorem ModMem.get_put_other (m : ModMem) {idx j : Nat} (c : ModCode) (h : j ≠ idx) : (m.put idx c).get j = m.get j := by
  unfold ModMem.put ModMem.get
  split
  · simp [cellAt_cellErase_other _ h]
  · simp [cellAt_cellSet_other _ _ h]

/-- What a read gives after a write, at any entry. -/
theorem ModMem.get_put (m : ModMem) (idx j : Nat) (c : ModCode) :
    (m.put idx c).get j = if j = idx then c else m.get j := by
  split
  · rename_i h; subst h; simp
  · rename_i h; exact m.get_put_other c h

/-- Every entry reads as Unset after MTX_INIT's writes (42_placer.md R135). -/
@[simp] theorem ModMem.allUnset_get (idx : Nat) : ModMem.allUnset.get idx = 0#3 := rfl

theorem ModMem.allUnset_wf : ModMem.allUnset.wf := by
  simp [ModMem.allUnset, ModMem.wf]

theorem ModMem.unspecified_wf (epoch : Nat) : ModMem.wf { fill := .unspecified epoch, cells := [] } := by
  simp [ModMem.wf]

theorem mem_cellSet {l : List (Nat × ModCode)} {idx : Nat} {c : ModCode} {p : Nat × ModCode}
    (h : p ∈ cellSet l idx c) : p = (idx, c) ∨ p ∈ l := by
  induction l with
  | nil => simpa [cellSet] using h
  | cons q l ih =>
    obtain ⟨i, d⟩ := q
    simp only [cellSet] at h
    split at h
    · simpa using h
    · split at h
      · rcases List.mem_cons.1 h with h | h
        · exact .inl h
        · exact .inr (List.mem_cons_of_mem _ h)
      · rcases List.mem_cons.1 h with h | h
        · exact .inr (by simp [h])
        · rcases ih h with h | h
          · exact .inl h
          · exact .inr (List.mem_cons_of_mem _ h)

theorem cellSet_sorted {l : List (Nat × ModCode)} (idx : Nat) (c : ModCode)
    (h : (l.map Prod.fst).Pairwise (· < ·)) : ((cellSet l idx c).map Prod.fst).Pairwise (· < ·) := by
  induction l with
  | nil => simp [cellSet]
  | cons q l ih =>
    obtain ⟨i, d⟩ := q
    simp only [List.map_cons, List.pairwise_cons] at h
    simp only [cellSet]
    split
    · rename_i hlt
      refine List.pairwise_cons.2 ⟨?_, List.pairwise_cons.2 h⟩
      intro a ha
      rcases List.mem_cons.1 ha with rfl | ha
      · exact hlt
      · exact lt_trans hlt (h.1 a ha)
    · split
      · rename_i hi; subst hi; exact List.pairwise_cons.2 h
      · refine List.pairwise_cons.2 ⟨?_, ih h.2⟩
        intro a ha
        obtain ⟨p, hp, rfl⟩ := List.mem_map.1 ha
        rcases mem_cellSet hp with rfl | hp
        · simp only; omega
        · exact h.1 _ (List.mem_map_of_mem hp)

/-- A write at an index of MODMEM keeps the canonical form. -/
theorem ModMem.put_wf {m : ModMem} {idx : Nat} (c : ModCode) (hm : m.wf) (hi : idx < Config.modmemSize) :
    (m.put idx c).wf := by
  unfold ModMem.put
  split
  · refine ⟨?_, fun p hp => hm.2 p (List.mem_of_mem_filter hp)⟩
    exact hm.1.sublist (List.filter_sublist.map _)
  · rename_i hc
    refine ⟨cellSet_sorted idx c hm.1, fun p hp => ?_⟩
    rcases mem_cellSet hp with rfl | hp
    · exact ⟨hi, hc⟩
    · exact hm.2 p hp

/-- Everything `memWrite` can do. -/
theorem memWrite_eq {idx : Nat} {c : ModCode} {s : State} (h : idx < Config.modmemSize) :
    memWrite idx c s = .done { s with modmem := s.modmem.put idx c } := by
  simp [memWrite, h]

/-- Everything `memRead` can do. -/
theorem memRead_eq {idx : Nat} {s : State} (h : idx < Config.modmemSize) : memRead idx s = .ok (s.modmem.get idx) := by
  simp [memRead, h]

@[simp] theorem moduleKind_dataCode (b : Bool) : moduleKind (dataCode b) = 2#2 := by cases b <;> rfl
@[simp] theorem moduleKind_reservedCode (b : Bool) : moduleKind (reservedCode b) = 1#2 := by cases b <;> rfl
@[simp] theorem moduleKind_unset : moduleKind 0#3 = 0#2 := rfl

end Sys2Proof.Machine
end

