-- ==== Sys2Proof/Laws/State.lean ====
section
/-! SUPPORT. One lemma per field per named update of the state, so that no proof unfolds a record update. -/

namespace Sys2Proof.Machine

/-! ### setResult -/

@[simp] theorem setResult_params (s : State) {n : Nat} (v : BitVec n) : (setResult v s).params = s.params := rfl
@[simp] theorem setResult_host (s : State) {n : Nat} (v : BitVec n) : (setResult v s).host = s.host := rfl
@[simp] theorem setResult_reply (s : State) {n : Nat} (v : BitVec n) : (setResult v s).reply = s.reply := rfl
@[simp] theorem setResult_result (s : State) {n : Nat} (v : BitVec n) : (setResult v s).result = zext32 v := rfl
@[simp] theorem setResult_fault (s : State) {n : Nat} (v : BitVec n) : (setResult v s).fault = s.fault := rfl
@[simp] theorem setResult_fcode (s : State) {n : Nat} (v : BitVec n) : (setResult v s).fcode = s.fcode := rfl
@[simp] theorem setResult_faultCmd (s : State) {n : Nat} (v : BitVec n) : (setResult v s).faultCmd = s.faultCmd := rfl
@[simp] theorem setResult_rsActive (s : State) {n : Nat} (v : BitVec n) : (setResult v s).rsActive = s.rsActive := rfl
@[simp] theorem setResult_rsN (s : State) {n : Nat} (v : BitVec n) : (setResult v s).rsN = s.rsN := rfl
@[simp] theorem setResult_g (s : State) {n : Nat} (v : BitVec n) : (setResult v s).g = s.g := rfl
@[simp] theorem setResult_r (s : State) {n : Nat} (v : BitVec n) : (setResult v s).r = s.r := rfl
@[simp] theorem setResult_rsCnt (s : State) {n : Nat} (v : BitVec n) : (setResult v s).rsCnt = s.rsCnt := rfl
@[simp] theorem setResult_phase (s : State) {n : Nat} (v : BitVec n) : (setResult v s).phase = s.phase := rfl
@[simp] theorem setResult_ver (s : State) {n : Nat} (v : BitVec n) : (setResult v s).ver = s.ver := rfl
@[simp] theorem setResult_cursor (s : State) {n : Nat} (v : BitVec n) : (setResult v s).cursor = s.cursor := rfl
@[simp] theorem setResult_plCnt (s : State) {n : Nat} (v : BitVec n) : (setResult v s).plCnt = s.plCnt := rfl
@[simp] theorem setResult_modmem (s : State) {n : Nat} (v : BitVec n) : (setResult v s).modmem = s.modmem := rfl
@[simp] theorem setResult_epoch (s : State) {n : Nat} (v : BitVec n) : (setResult v s).epoch = s.epoch := rfl
@[simp] theorem setResult_size (s : State) {n : Nat} (v : BitVec n) : (setResult v s).size = s.size := rfl

/-! ### recordFault -/

@[simp] theorem recordFault_params (s : State) (c : FaultCode) (w : Word) : (recordFault c w s).params = s.params := rfl
@[simp] theorem recordFault_host (s : State) (c : FaultCode) (w : Word) : (recordFault c w s).host = s.host := rfl
@[simp] theorem recordFault_reply (s : State) (c : FaultCode) (w : Word) : (recordFault c w s).reply = s.reply := rfl
@[simp] theorem recordFault_result (s : State) (c : FaultCode) (w : Word) : (recordFault c w s).result = s.result := rfl
@[simp] theorem recordFault_fault (s : State) (c : FaultCode) (w : Word) : (recordFault c w s).fault = true := rfl
@[simp] theorem recordFault_fcode (s : State) (c : FaultCode) (w : Word) : (recordFault c w s).fcode = c.code := rfl
@[simp] theorem recordFault_faultCmd (s : State) (c : FaultCode) (w : Word) : (recordFault c w s).faultCmd = w := rfl
@[simp] theorem recordFault_rsActive (s : State) (c : FaultCode) (w : Word) : (recordFault c w s).rsActive = s.rsActive := rfl
@[simp] theorem recordFault_rsN (s : State) (c : FaultCode) (w : Word) : (recordFault c w s).rsN = s.rsN := rfl
@[simp] theorem recordFault_g (s : State) (c : FaultCode) (w : Word) : (recordFault c w s).g = s.g := rfl
@[simp] theorem recordFault_r (s : State) (c : FaultCode) (w : Word) : (recordFault c w s).r = s.r := rfl
@[simp] theorem recordFault_rsCnt (s : State) (c : FaultCode) (w : Word) : (recordFault c w s).rsCnt = s.rsCnt := rfl
@[simp] theorem recordFault_phase (s : State) (c : FaultCode) (w : Word) : (recordFault c w s).phase = s.phase := rfl
@[simp] theorem recordFault_ver (s : State) (c : FaultCode) (w : Word) : (recordFault c w s).ver = s.ver := rfl
@[simp] theorem recordFault_cursor (s : State) (c : FaultCode) (w : Word) : (recordFault c w s).cursor = s.cursor := rfl
@[simp] theorem recordFault_plCnt (s : State) (c : FaultCode) (w : Word) : (recordFault c w s).plCnt = s.plCnt := rfl
@[simp] theorem recordFault_modmem (s : State) (c : FaultCode) (w : Word) : (recordFault c w s).modmem = s.modmem := rfl
@[simp] theorem recordFault_epoch (s : State) (c : FaultCode) (w : Word) : (recordFault c w s).epoch = s.epoch := rfl
@[simp] theorem recordFault_size (s : State) (c : FaultCode) (w : Word) : (recordFault c w s).size = s.size := rfl

/-! ### stepCursor -/

@[simp] theorem stepCursor_params (s : State) : (stepCursor s).params = s.params := rfl
@[simp] theorem stepCursor_host (s : State) : (stepCursor s).host = s.host := rfl
@[simp] theorem stepCursor_reply (s : State) : (stepCursor s).reply = s.reply := rfl
@[simp] theorem stepCursor_result (s : State) : (stepCursor s).result = s.result := rfl
@[simp] theorem stepCursor_fault (s : State) : (stepCursor s).fault = s.fault := rfl
@[simp] theorem stepCursor_fcode (s : State) : (stepCursor s).fcode = s.fcode := rfl
@[simp] theorem stepCursor_faultCmd (s : State) : (stepCursor s).faultCmd = s.faultCmd := rfl
@[simp] theorem stepCursor_rsActive (s : State) : (stepCursor s).rsActive = s.rsActive := rfl
@[simp] theorem stepCursor_rsN (s : State) : (stepCursor s).rsN = s.rsN := rfl
@[simp] theorem stepCursor_g (s : State) : (stepCursor s).g = s.g := rfl
@[simp] theorem stepCursor_r (s : State) : (stepCursor s).r = s.r := rfl
@[simp] theorem stepCursor_rsCnt (s : State) : (stepCursor s).rsCnt = s.rsCnt := rfl
@[simp] theorem stepCursor_phase (s : State) : (stepCursor s).phase = s.phase := rfl
@[simp] theorem stepCursor_ver (s : State) : (stepCursor s).ver = s.ver := rfl
@[simp] theorem stepCursor_cursor (s : State) : (stepCursor s).cursor = pathStep s.size s.cursor := rfl
@[simp] theorem stepCursor_plCnt (s : State) : (stepCursor s).plCnt = s.plCnt := rfl
@[simp] theorem stepCursor_modmem (s : State) : (stepCursor s).modmem = s.modmem := rfl
@[simp] theorem stepCursor_epoch (s : State) : (stepCursor s).epoch = s.epoch := rfl
@[simp] theorem stepCursor_size (s : State) : (stepCursor s).size = s.size := rfl

/-! ### idleCycle -/

@[simp] theorem idleCycle_params (s : State) : (idleCycle s).params = s.params := rfl
@[simp] theorem idleCycle_host (s : State) : (idleCycle s).host = s.host := rfl
@[simp] theorem idleCycle_reply (s : State) : (idleCycle s).reply = .none := rfl
@[simp] theorem idleCycle_result (s : State) : (idleCycle s).result = s.result := rfl
@[simp] theorem idleCycle_fault (s : State) : (idleCycle s).fault = s.fault := rfl
@[simp] theorem idleCycle_fcode (s : State) : (idleCycle s).fcode = s.fcode := rfl
@[simp] theorem idleCycle_faultCmd (s : State) : (idleCycle s).faultCmd = s.faultCmd := rfl
@[simp] theorem idleCycle_rsActive (s : State) : (idleCycle s).rsActive = s.rsActive := rfl
@[simp] theorem idleCycle_rsN (s : State) : (idleCycle s).rsN = s.rsN := rfl
@[simp] theorem idleCycle_g (s : State) : (idleCycle s).g = s.g := rfl
@[simp] theorem idleCycle_r (s : State) : (idleCycle s).r = s.r := rfl
@[simp] theorem idleCycle_rsCnt (s : State) : (idleCycle s).rsCnt = s.rsCnt := rfl
@[simp] theorem idleCycle_phase (s : State) : (idleCycle s).phase = s.phase := rfl
@[simp] theorem idleCycle_ver (s : State) : (idleCycle s).ver = s.ver := rfl
@[simp] theorem idleCycle_cursor (s : State) : (idleCycle s).cursor = s.cursor := rfl
@[simp] theorem idleCycle_plCnt (s : State) : (idleCycle s).plCnt = s.plCnt := rfl
@[simp] theorem idleCycle_modmem (s : State) : (idleCycle s).modmem = s.modmem := rfl
@[simp] theorem idleCycle_epoch (s : State) : (idleCycle s).epoch = s.epoch := rfl
@[simp] theorem idleCycle_size (s : State) : (idleCycle s).size = s.size := rfl

/-! ### presentFirst -/

@[simp] theorem presentFirst_params (s : State) (e : HostEvent) : (presentFirst e s).params = s.params := rfl
@[simp] theorem presentFirst_host (s : State) (e : HostEvent) : (presentFirst e s).host = e :: s.host := rfl
@[simp] theorem presentFirst_reply (s : State) (e : HostEvent) : (presentFirst e s).reply = s.reply := rfl
@[simp] theorem presentFirst_result (s : State) (e : HostEvent) : (presentFirst e s).result = s.result := rfl
@[simp] theorem presentFirst_fault (s : State) (e : HostEvent) : (presentFirst e s).fault = s.fault := rfl
@[simp] theorem presentFirst_fcode (s : State) (e : HostEvent) : (presentFirst e s).fcode = s.fcode := rfl
@[simp] theorem presentFirst_faultCmd (s : State) (e : HostEvent) : (presentFirst e s).faultCmd = s.faultCmd := rfl
@[simp] theorem presentFirst_rsActive (s : State) (e : HostEvent) : (presentFirst e s).rsActive = s.rsActive := rfl
@[simp] theorem presentFirst_rsN (s : State) (e : HostEvent) : (presentFirst e s).rsN = s.rsN := rfl
@[simp] theorem presentFirst_g (s : State) (e : HostEvent) : (presentFirst e s).g = s.g := rfl
@[simp] theorem presentFirst_r (s : State) (e : HostEvent) : (presentFirst e s).r = s.r := rfl
@[simp] theorem presentFirst_rsCnt (s : State) (e : HostEvent) : (presentFirst e s).rsCnt = s.rsCnt := rfl
@[simp] theorem presentFirst_phase (s : State) (e : HostEvent) : (presentFirst e s).phase = s.phase := rfl
@[simp] theorem presentFirst_ver (s : State) (e : HostEvent) : (presentFirst e s).ver = s.ver := rfl
@[simp] theorem presentFirst_cursor (s : State) (e : HostEvent) : (presentFirst e s).cursor = s.cursor := rfl
@[simp] theorem presentFirst_plCnt (s : State) (e : HostEvent) : (presentFirst e s).plCnt = s.plCnt := rfl
@[simp] theorem presentFirst_modmem (s : State) (e : HostEvent) : (presentFirst e s).modmem = s.modmem := rfl
@[simp] theorem presentFirst_epoch (s : State) (e : HostEvent) : (presentFirst e s).epoch = s.epoch := rfl
@[simp] theorem presentFirst_size (s : State) (e : HostEvent) : (presentFirst e s).size = s.size := rfl

/-! ### resetState -/

@[simp] theorem resetState_params (s : State) : (resetState s).params = s.params := rfl
@[simp] theorem resetState_host (s : State) : (resetState s).host = s.host := rfl
@[simp] theorem resetState_reply (s : State) : (resetState s).reply = s.reply := rfl
@[simp] theorem resetState_result (s : State) : (resetState s).result = 0#32 := rfl
@[simp] theorem resetState_fault (s : State) : (resetState s).fault = false := rfl
@[simp] theorem resetState_fcode (s : State) : (resetState s).fcode = 0#4 := rfl
@[simp] theorem resetState_faultCmd (s : State) : (resetState s).faultCmd = 0#32 := rfl
@[simp] theorem resetState_rsActive (s : State) : (resetState s).rsActive = false := rfl
@[simp] theorem resetState_rsN (s : State) : (resetState s).rsN = 0#8 := rfl
@[simp] theorem resetState_g (s : State) : (resetState s).g = .unspecified s.epoch := rfl
@[simp] theorem resetState_r (s : State) : (resetState s).r = .unspecified s.epoch := rfl
@[simp] theorem resetState_rsCnt (s : State) : (resetState s).rsCnt = 0#16 := rfl
@[simp] theorem resetState_phase (s : State) : (resetState s).phase = .idle := rfl
@[simp] theorem resetState_ver (s : State) : (resetState s).ver = 0#8 := rfl
@[simp] theorem resetState_cursor (s : State) : (resetState s).cursor = .zero := rfl
@[simp] theorem resetState_plCnt (s : State) : (resetState s).plCnt = 0#16 := rfl
@[simp] theorem resetState_modmem (s : State) : (resetState s).modmem = { fill := .unspecified s.epoch, cells := [] } := rfl
@[simp] theorem resetState_epoch (s : State) : (resetState s).epoch = s.epoch + 1 := rfl

/-! ### the fetched word -/

@[simp] theorem withFetchWord_eq (s : State) (nbits w : Nat) :
    s.withFetchWord nbits w = presentFirst (.write 0#3 (BitVec.ofNat 32 (w % 2 ^ nbits))) s := rfl

end Sys2Proof.Machine
end

