-- ==== Sys2Proof/Laws/Ops.lean ====
section
/-! SUPPORT. What the shared operations can do: sequencing, raising, the frame of a command, rejecting a word. -/

namespace Sys2Proof.Machine

@[simp] theorem andThen_done (s : State) (k : State → Ran) : (Ran.done s).andThen k = k s := rfl
@[simp] theorem andThen_raised (c : FaultCode) (s : State) (k : State → Ran) : (Ran.raised c s).andThen k = .raised c s := rfl
@[simp] theorem andThen_halted (f : Fault) (k : State → Ran) : (Ran.halted f).andThen k = .halted f := rfl

/-- A sequence ends only where both parts end. -/
theorem andThen_eq_done {x : Ran} {k : State → Ran} {t : State} :
    x.andThen k = .done t ↔ ∃ s, x = .done s ∧ k s = .done t := by
  cases x <;> simp

/-- A sequence raises where its first part raises, or its second after the first ended. -/
theorem andThen_eq_raised {x : Ran} {k : State → Ran} {c : FaultCode} {t : State} :
    x.andThen k = .raised c t ↔ x = .raised c t ∨ ∃ s, x = .done s ∧ k s = .raised c t := by
  cases x <;> simp

/-- Everything `raiseIf` can do. -/
theorem raiseIf_pos {p : Prop} [Decidable p] (h : p) (c : FaultCode) (k : State → Ran) (s : State) :
    raiseIf p c k s = .raised c s := by simp [raiseIf, h]

theorem raiseIf_neg {p : Prop} [Decidable p] (h : ¬p) (c : FaultCode) (k : State → Ran) (s : State) :
    raiseIf p c k s = k s := by simp [raiseIf, h]

theorem raiseIf_eq_done {p : Prop} [Decidable p] {c : FaultCode} {k : State → Ran} {s t : State} :
    raiseIf p c k s = .done t ↔ ¬p ∧ k s = .done t := by
  by_cases h : p <;> simp [raiseIf, h]

theorem raiseIf_eq_raised {p : Prop} [Decidable p] {c d : FaultCode} {k : State → Ran} {s t : State} :
    raiseIf p c k s = .raised d t ↔ (p ∧ d = c ∧ t = s) ∨ (¬p ∧ k s = .raised d t) := by
  by_cases h : p <;> simp [raiseIf, h, eq_comm]

/-- A locked block ignores a command (43_control.md R151). -/
theorem command_locked {i : Instr} {body : State → Ran} {s : State} (h : s.fault = true) :
    command i body s = .next s := by simp [command, unlessLocked, h]

/-- An unlocked block runs a command's pseudocode (43_control.md R150). -/
theorem command_unlocked {i : Instr} {body : State → Ran} {s : State} (h : s.fault = false) :
    command i body s = (body s).outcome (encode i) := by simp [command, unlessLocked, h]

/-- Everything a command that answers a next state can have done. -/
theorem command_eq_next {i : Instr} {body : State → Ran} {s t : State} (h : command i body s = .next t) :
    (s.fault = true ∧ t = s) ∨
    (s.fault = false ∧ body s = .done t) ∨
    (s.fault = false ∧ ∃ c u, body s = .raised c u ∧ t = recordFault c (encode i) u) := by
  cases hf : s.fault
  · rw [command_unlocked hf] at h
    cases hb : body s with
    | done u => rw [hb] at h; exact .inr (.inl ⟨rfl, by simpa [Ran.outcome] using h⟩)
    | raised c u => rw [hb] at h; exact .inr (.inr ⟨rfl, c, u, rfl, by simpa [Ran.outcome, eq_comm] using h⟩)
    | halted f => rw [hb] at h; simp [Ran.outcome] at h
  · rw [command_locked hf] at h; exact .inl ⟨rfl, by simpa [eq_comm] using h⟩

/-- No command is refused. -/
theorem command_ne_refused {i : Instr} {body : State → Ran} {s : State} {r : Refusal} : command i body s ≠ .refused r := by
  unfold command unlessLocked
  split
  · simp
  · cases body s <;> simp [Ran.outcome]

/-- A word that is no command never stops the machine. -/
theorem rejectWord_eq (e : DecodeError) (w : Word) (s : State) :
    rejectWord e w s = .next (if s.fault then s else recordFault (decodeFault e) w s) := by
  unfold rejectWord unlessLocked; split <;> rfl

end Sys2Proof.Machine
end

