-- ==== Sys2Proof/Laws/RsUnit.lean ====
section
/-! SUPPORT. GF(256) at zero, the shape of the generator, and what the remainder step reads as (40_gf_arith.md R63; 41_rs_encoder.md
R80, R82). -/

namespace Sys2Proof.Machine

@[simp] theorem gmul_zero_left (b : Byte) : gmul 0#8 b = 0#8 := by simp [gmul]
@[simp] theorem gmul_zero_right (a : Byte) : gmul a 0#8 = 0#8 := by simp [gmul]
@[simp] theorem gdiv_zero_left (b : Byte) : gdiv 0#8 b = 0#8 := by simp [gdiv]

theorem gmul_nonzero {a b : Byte} (ha : a ≠ 0#8) (hb : b ≠ 0#8) :
    gmul a b = gfExp (((gfLog a).toNat + (gfLog b).toNat) % 255) := by simp [gmul, ha, hb]

@[simp] theorem timesLinear_length (p : List Byte) (e : Byte) : (timesLinear p e).length = p.length + 1 := by
  simp [timesLinear]

/-- g_n has n + 1 coefficients (R80). -/
@[simp] theorem generator_length (n : Nat) : (generator n).length = n + 1 := by
  induction n with
  | zero => rfl
  | succ n ih => simp [generator, ih]

/-- The coefficient of x^n in g_n is 1 (R80). -/
theorem generator_eq_cons (n : Nat) : ∃ rest, generator n = 1#8 :: rest := by
  induction n with
  | zero => exact ⟨[], rfl⟩
  | succ n ih =>
    obtain ⟨rest, h⟩ := ih
    simp only [generator, h, timesLinear, List.cons_append, List.map_cons, List.zipWith_cons_cons]
    exact ⟨_, by rw [BitVec.xor_zero]⟩

/-- G has EC_MAX + 1 entries after RS_START (10_state.md R34). -/
theorem generatorFile_length {n : Nat} {s : State} (h : n ≤ s.params.ecMax.toNat) :
    (generatorFile n s).length = s.params.ecMax.toNat + 1 := by
  simp [generatorFile]; omega

theorem readR_held {s : State} {bytes : List Byte} (h : s.r = .held bytes) (i : Nat) : readR s i = bytes.getD i 0#8 := by
  simp [readR, h]

theorem readG_held {s : State} {bytes : List Byte} (h : s.g = .held bytes) (i : Nat) : readG s i = bytes.getD i 0#8 := by
  simp [readG, h]

@[simp] theorem remainderStep_length (d : Byte) (s : State) : (remainderStep d s).length = s.params.ecMax.toNat := by
  simp [remainderStep]

/-- What each entry of R is after the step (R82). -/
theorem remainderStep_getD (d : Byte) (s : State) {i : Nat} (h : i < s.params.ecMax.toNat) :
    (remainderStep d s).getD i 0#8 =
      if i + 1 < s.rsN.toNat then readR s (i + 1) ^^^ gmul (readG s (i + 1)) (d ^^^ readR s 0)
      else if i + 1 = s.rsN.toNat then gmul (readG s s.rsN.toNat) (d ^^^ readR s 0)
      else readR s i := by
  rw [List.getD_eq_getElem?_getD]
  simp only [remainderStep, List.getElem?_map, List.getElem?_range h, Option.map_some, Option.getD_some]

end Sys2Proof.Machine
end

