-- ==== Sys2Proof/Laws/Path.lean ====
section
/-! SUPPORT. The path: a step keeps the cursor on it and leaves one cell fewer, and every cell of it is an entry of MODMEM
(42_placer.md R131, R133). -/

namespace Sys2Proof.Machine

/-- A legal version has a legal size (00_scope.md R8, R9). -/
theorem legalSize_sideOf {v : Byte} (h1 : v ≠ 0#8) (h2 : v.toNat ≤ 40) : legalSize (sideOf v) := by
  have : v.toNat ≠ 0 := fun h => h1 (BitVec.eq_of_toNat_eq (by simpa using h))
  simp only [legalSize, sideOf, h1, if_false]
  omega

/-- The start of the path is on it, with all its cells left (R130, R133). -/
theorem cursorStart_onPath {size : Nat} (h : legalSize size) :
    (cursorStart size).onPath size ∧ cellsLeft size (cursorStart size) = size * (size - 1) := by
  obtain ⟨h1, h2, h3⟩ := h
  have e : (size - 1) % 256 = size - 1 := by omega
  have hp : pairRight (cursorStart size) = size - 1 := by simp [pairRight, cursorStart, e]
  have hup : pairGoesUp (size - 1) = true := by
    unfold pairGoesUp; rw [if_pos (by omega)]; simp; omega
  refine ⟨⟨by simp [cursorStart, e]; omega, ?_, ?_, by simp [cursorStart]⟩, ?_⟩
  · rw [hp]; left; omega
  · rw [hp, hup]; rfl
  · have hge : 8 ≤ size - 1 := by omega
    simp only [cellsLeft, hp, pairsAfter, hge, if_true]
    simp only [cursorStart, BitVec.toNat_ofNat, e, if_true, Bool.false_eq_true, if_false]
    obtain ⟨k, rfl⟩ : ∃ k, size = 2 * k + 1 := ⟨size / 2, by omega⟩
    have : (2 * k + 1 - 1 - 2) / 2 = k - 1 := by omega
    rw [this]
    obtain ⟨j, rfl⟩ : ∃ j, k = j + 1 := ⟨k - 1, by omega⟩
    simp only [Nat.add_sub_cancel]
    ring

/-- The pair after a pair, when there is one: a legal one, with the other direction, and one pair fewer after it (R131). -/
theorem nextRightColumn_spec {size right : Nat} (h : isPairRight size right) (h1 : right ≠ 1) :
    isPairRight size (nextRightColumn right) ∧ pairGoesUp (nextRightColumn right) = !pairGoesUp right ∧
    pairsAfter (nextRightColumn right) + 1 = pairsAfter right := by
  rcases h with ⟨h8, hs, he⟩ | rfl | rfl | rfl
  · by_cases e8 : right = 8
    · subst e8; simp [nextRightColumn, isPairRight, pairGoesUp, pairsAfter]
    · have h10 : 10 ≤ right := by omega
      have hn : nextRightColumn right = right - 2 := by unfold nextRightColumn; rw [if_neg (by omega)]
      rw [hn]
      refine ⟨Or.inl (by omega), ?_, ?_⟩
      · simp only [pairGoesUp, show 8 ≤ right - 2 by omega, h8, if_true]
        by_cases h4 : right % 4 = 0
        · have : (right - 2) % 4 = 2 := by omega
          simp [h4, this]
        · have : (right - 2) % 4 = 0 := by omega
          simp [h4, this]
      · simp only [pairsAfter, show 8 ≤ right - 2 by omega, h8, if_true]; omega
  · simp [nextRightColumn, isPairRight, pairGoesUp, pairsAfter]
  · simp [nextRightColumn, isPairRight, pairGoesUp, pairsAfter]
  · exact absurd rfl h1

theorem toNat_ofNat_of_lt {n : Nat} (h : n < 256) : (BitVec.ofNat 8 n).toNat = n := by
  rw [BitVec.toNat_ofNat]; exact Nat.mod_eq_of_lt h

/-- `step()` keeps the cursor on the path and leaves one cell fewer (R131, R133). -/
theorem pathStep_onPath {size : Nat} {c : Cursor} (h : legalSize size) (hc : c.onPath size) (hd : c.done = false) :
    (pathStep size c).onPath size ∧ cellsLeft size (pathStep size c) + 1 = cellsLeft size c := by
  obtain ⟨row, col, up, right, done⟩ := c
  obtain ⟨hrow, hpair, hup, -⟩ := hc
  obtain ⟨h1, h2, h3⟩ := h
  have hcol := col.isLt
  simp only at hd hrow hup
  subst hd
  cases right
  · -- a left cell
    simp only [pairRight, Bool.false_eq_true, if_false] at hpair hup
    have hr : pairRight { row := row, col := col, up := up, right := false, done := false } = col.toNat + 1 := rfl
    by_cases hinner : (up = true ∧ row.toNat ≠ 0) ∨ (up = false ∧ row.toNat ≠ size - 1)
    · -- one row further
      have hcol1 : (BitVec.ofNat 8 (col.toNat + 1)).toNat = col.toNat + 1 := toNat_ofNat_of_lt (by omega)
      rcases hinner with ⟨rfl, h0⟩ | ⟨rfl, h0⟩
      · have hrow1 : (BitVec.ofNat 8 (row.toNat - 1)).toNat = row.toNat - 1 := toNat_ofNat_of_lt (by omega)
        have e : pathStep size { row := row, col := col, up := true, right := false, done := false } =
            { row := BitVec.ofNat 8 (row.toNat - 1), col := BitVec.ofNat 8 (col.toNat + 1), up := true, right := true,
              done := false } := by simp [pathStep, h0]
        rw [e]
        refine ⟨⟨by simp only [hrow1]; omega, ?_, ?_, by simp⟩, ?_⟩
        · simpa [pairRight, hcol1] using hpair
        · simpa [pairRight, hcol1] using hup
        · simp [cellsLeft, pairRight, hcol1, hrow1]; omega
      · have hrow1 : (BitVec.ofNat 8 (row.toNat + 1)).toNat = row.toNat + 1 := toNat_ofNat_of_lt (by omega)
        have e : pathStep size { row := row, col := col, up := false, right := false, done := false } =
            { row := BitVec.ofNat 8 (row.toNat + 1), col := BitVec.ofNat 8 (col.toNat + 1), up := false, right := true,
              done := false } := by simp [pathStep, h0]
        rw [e]
        refine ⟨⟨by simp only [hrow1]; omega, ?_, ?_, by simp⟩, ?_⟩
        · simpa [pairRight, hcol1] using hpair
        · simpa [pairRight, hcol1] using hup
        · simp [cellsLeft, pairRight, hcol1, hrow1]; omega
    · have hn1 : ¬(up = true ∧ row.toNat ≠ 0) := fun h => hinner (.inl h)
      have hn2 : ¬(up = false ∧ row.toNat ≠ size - 1) := fun h => hinner (.inr h)
      by_cases hend : col.toNat + 1 = 1
      · -- the end of the grid
        rw [hend] at hup
        have hup' : up = false := by simpa [pairGoesUp] using hup
        subst hup'
        have hrowS : row.toNat = size - 1 := by simpa using hn2
        have hcol0 : col = 0#8 := BitVec.eq_of_toNat_eq (by simpa using hend)
        have hrow' : row = BitVec.ofNat 8 (size - 1) := by
          apply BitVec.eq_of_toNat_eq; rw [toNat_ofNat_of_lt (by omega), hrowS]
        have e : pathStep size { row := row, col := col, up := false, right := false, done := false } = cursorEnd size := by
          simp [pathStep, hcol0, cursorEnd, hrow']
          omega
        rw [e]
        refine ⟨⟨?_, by simp [pairRight, cursorEnd, isPairRight], by simp [pairRight, cursorEnd, pairGoesUp], fun _ => rfl⟩, ?_⟩
        · simp only [cursorEnd, toNat_ofNat_of_lt (show size - 1 < 256 by omega)]; omega
        · simp [cellsLeft, pairRight, cursorEnd, hcol0, pairsAfter, hrowS]
      · -- the next pair
        obtain ⟨hp', hu', ha'⟩ := nextRightColumn_spec hpair hend
        have hlt : nextRightColumn (col.toNat + 1) < 256 := by
          rcases hp' with h | h | h | h <;> omega
        have e : pathStep size { row := row, col := col, up := up, right := false, done := false } =
            { row := row, col := BitVec.ofNat 8 (nextRightColumn (col.toNat + 1)), up := !up, right := true,
              done := false } := by
          simp only [pathStep, Bool.false_eq_true, if_false]
          rw [if_neg (by simpa using hn1), if_neg (by simpa using hn2), if_neg hend]
        rw [e]
        refine ⟨⟨hrow, ?_, ?_, by simp⟩, ?_⟩
        · simpa [pairRight, toNat_ofNat_of_lt hlt] using hp'
        · simp [pairRight, toNat_ofNat_of_lt hlt, hu', hup]
        · simp only [cellsLeft, pairRight, toNat_ofNat_of_lt hlt, Bool.false_eq_true, if_false, if_true]
          rw [← ha', Nat.add_mul (pairsAfter (nextRightColumn (col.toNat + 1))) 1 (2 * size), Nat.one_mul]
          generalize pairsAfter (nextRightColumn (col.toNat + 1)) * (2 * size) = cells
          cases up
          · have : row.toNat = size - 1 := by simpa using hn2
            simp only [this, Bool.not_false, Bool.false_eq_true, if_true, if_false]; omega
          · have : row.toNat = 0 := by simpa using hn1
            simp only [this, Bool.not_true, Bool.false_eq_true, if_true, if_false]; omega
  · -- a right cell
    simp only [pairRight, if_true] at hpair hup
    have hcol1 : (BitVec.ofNat 8 (col.toNat - 1)).toNat = col.toNat - 1 := toNat_ofNat_of_lt (by omega)
    have hpos : col.toNat - 1 + 1 = col.toNat := by rcases hpair with h | h | h | h <;> omega
    have e : pathStep size { row := row, col := col, up := up, right := true, done := false } =
        { row := row, col := BitVec.ofNat 8 (col.toNat - 1), up := up, right := false, done := false } := by
      simp [pathStep]
    rw [e]
    refine ⟨⟨hrow, ?_, ?_, by simp⟩, ?_⟩
    · simpa [pairRight, hcol1, hpos] using hpair
    · simpa [pairRight, hcol1, hpos] using hup
    · simp [cellsLeft, pairRight, hcol1, hpos]

end Sys2Proof.Machine
end

