-- ==== Sys2Proof/Laws/Walk.lean ====
section
/-! SUPPORT. The walk: what `seek`, `place_bit` and `zero_fill` do from a cursor on the path (42_placer.md R132, R134, R139).
Each is stated once, in terms of the Unset cells ahead. -/

namespace Sys2Proof.Machine

/-! ### The cells of the path -/

/-- At most S * (S - 1) cells are left anywhere on the path (R133). -/
theorem cellsLeft_le {size : Nat} {c : Cursor} (h : legalSize size) (hc : c.onPath size) : cellsLeft size c ≤ 31152 := by
  obtain ⟨row, col, up, right, done⟩ := c
  obtain ⟨hrow, hpair, -, -⟩ := hc
  obtain ⟨h1, h2, h3⟩ := h
  unfold cellsLeft
  split
  · omega
  · have hp : pairsAfter (pairRight ⟨row, col, up, right, done⟩) ≤ 87 := by
      unfold pairsAfter
      rcases hpair with h | h | h | h <;> split <;> omega
    have hm := Nat.mul_le_mul hp (show 2 * size ≤ 354 by omega)
    have h2r : 2 * (if up = true then row.toNat else size - 1 - row.toNat) + (if right = true then 2 else 1) ≤ 354 := by
      simp only at hrow
      split <;> split <;> omega
    simp only at hm ⊢
    omega

theorem cellsLeft_pos {size : Nat} {c : Cursor} (h : c.done = false) : 0 < cellsLeft size c := by
  have : 1 ≤ (if c.right then 2 else 1) := by split <;> omega
  unfold cellsLeft; rw [h]; simp only [Bool.false_eq_true, if_false]; omega

theorem pathCells_fuel {size : Nat} (h : legalSize size) :
    ∀ (k l : Nat) (c : Cursor), c.onPath size → cellsLeft size c ≤ k → cellsLeft size c ≤ l →
      pathCells size k c = pathCells size l c := by
  intro k
  induction k with
  | zero =>
    intro l c hc hk _
    cases hd : c.done
    · exact absurd (cellsLeft_pos (size := size) hd) (by omega)
    · cases l <;> simp [pathCells, hd]
  | succ k ih =>
    intro l c hc hk hl
    cases hd : c.done
    · obtain ⟨hp, hq⟩ := pathStep_onPath h hc hd
      have := cellsLeft_pos (size := size) hd
      obtain ⟨l, rfl⟩ : ∃ m, l = m + 1 := ⟨l - 1, by omega⟩
      simp only [pathCells, hd, Bool.false_eq_true, if_false]
      rw [ih l _ hp (by omega) (by omega)]
    · cases l <;> simp [pathCells, hd]

theorem pathCells_done {size : Nat} {c : Cursor} (k : Nat) (hd : c.done = true) : pathCells size k c = [] := by
  cases k <;> simp [pathCells, hd]

theorem pathFrom_done {size : Nat} {c : Cursor} (hd : c.done = true) : pathFrom size c = [] := pathCells_done _ hd

theorem pathFuel_succ : Config.pathFuel = 31329 + 1 := rfl

/-- The path from a cell is that cell and the path from its step (R131). -/
theorem pathFrom_cons {size : Nat} {c : Cursor} (h : legalSize size) (hc : c.onPath size) (hd : c.done = false) :
    pathFrom size c = c :: pathFrom size (pathStep size c) := by
  obtain ⟨hp, hq⟩ := pathStep_onPath h hc hd
  have hb := cellsLeft_le h hc
  have hf := pathFuel_succ
  obtain ⟨k, hk⟩ : ∃ k, Config.pathFuel = k + 1 := ⟨_, hf⟩
  rw [pathFrom, pathFrom, pathCells_fuel h Config.pathFuel k (pathStep size c) hp (by omega) (by omega), hk]
  simp only [pathCells, hd, Bool.false_eq_true, if_false]

/-- Cells of the path are told apart by their row and column (R133). -/
theorem onPath_ext {size : Nat} {c d : Cursor} (hc : c.onPath size) (hd : d.onPath size) (hcd : c.done = false)
    (hdd : d.done = false) (hrow : c.row.toNat = d.row.toNat) (hcol : c.col.toNat = d.col.toNat) : c = d := by
  obtain ⟨r, q, u, t, e⟩ := c
  obtain ⟨r', q', u', t', e'⟩ := d
  obtain ⟨-, hp, hu, -⟩ := hc
  obtain ⟨-, hp', hu', -⟩ := hd
  simp only at hcd hdd hrow hcol hu hu'
  have hr := BitVec.eq_of_toNat_eq hrow
  have hq := BitVec.eq_of_toNat_eq hcol
  subst hr hq hcd hdd
  have ht : t = t' := by
    cases t <;> cases t' <;> simp [pairRight] at hp hp' ⊢
    · rcases hp with h | h | h | h <;> rcases hp' with h' | h' | h' | h' <;> omega
    · rcases hp with h | h | h | h <;> rcases hp' with h' | h' | h' | h' <;> omega
  subst ht
  have : u = u' := by rw [hu, hu']; rfl
  subst this
  rfl

theorem onPath_col_lt {size : Nat} {c : Cursor} (h : legalSize size) (hc : c.onPath size) : c.col.toNat < size := by
  obtain ⟨-, hp, -, -⟩ := hc
  obtain ⟨h1, h2, h3⟩ := h
  unfold pairRight at hp
  split at hp <;> rcases hp with h | h | h | h <;> omega

/-- A cell of the path is an entry of MODMEM, and of the matrix (20_memory.md R41, R42). -/
theorem cellOf_lt {size : Nat} {c : Cursor} (h : legalSize size) (hc : c.onPath size) :
    cellOf size c < size * size ∧ cellOf size c < Config.modmemSize := by
  have hcol := onPath_col_lt h hc
  have hrow : c.row.toNat + 1 ≤ size := hc.1
  have h1 : (c.row.toNat + 1) * size ≤ size * size := Nat.mul_le_mul_right _ hrow
  have h2 : size * size ≤ 177 * 177 := Nat.mul_le_mul h.2.1 h.2.1
  rw [Nat.add_mul, Nat.one_mul] at h1
  simp only [cellOf, cellIndex, Config.modmemSize]
  omega

/-- Different cells of the path are different entries (R133). -/
theorem cellOf_inj {size : Nat} {c d : Cursor} (h : legalSize size) (hc : c.onPath size) (hd : d.onPath size)
    (hcd : c.done = false) (hdd : d.done = false) (he : cellOf size c = cellOf size d) : c = d := by
  have h1 := onPath_col_lt h hc
  have h2 := onPath_col_lt h hd
  simp only [cellOf, cellIndex] at he
  have hpos : 0 < size := by omega
  have hrow : c.row.toNat = d.row.toNat := by
    have e1 : (c.row.toNat * size + c.col.toNat) / size = c.row.toNat := by
      rw [Nat.mul_comm, Nat.mul_add_div hpos, Nat.div_eq_of_lt h1, Nat.add_zero]
    have e2 : (d.row.toNat * size + d.col.toNat) / size = d.row.toNat := by
      rw [Nat.mul_comm, Nat.mul_add_div hpos, Nat.div_eq_of_lt h2, Nat.add_zero]
    rw [← e1, ← e2, he]
  rw [hrow] at he
  exact onPath_ext hc hd hcd hdd hrow (by omega)

/-- What the cells of the path from a cursor on are like. -/
theorem mem_pathFrom {size : Nat} (h : legalSize size) : ∀ (n : Nat) (c x : Cursor), cellsLeft size c = n → c.onPath size →
    x ∈ pathFrom size c → x.onPath size ∧ x.done = false ∧ cellsLeft size x ≤ cellsLeft size c := by
  intro n
  induction n with
  | zero =>
    intro c x hn hc hx
    cases hd : c.done
    · exact absurd (cellsLeft_pos (size := size) hd) (by omega)
    · simp [pathFrom_done hd] at hx
  | succ n ih =>
    intro c x hn hc hx
    cases hd : c.done
    · rw [pathFrom_cons h hc hd] at hx
      obtain ⟨hp, hq⟩ := pathStep_onPath h hc hd
      rcases List.mem_cons.1 hx with rfl | hx
      · exact ⟨hc, hd, le_refl _⟩
      · obtain ⟨a, b, e⟩ := ih _ x (by omega) hp hx
        exact ⟨a, b, by omega⟩
    · simp [pathFrom_done hd] at hx

/-- Writing a cell leaves the modules of all later cells of the path alone. -/
theorem later_isUnset_put {size : Nat} {c : Cursor} {m : ModMem} {code : ModCode} (h : legalSize size) (hc : c.onPath size)
    (hd : c.done = false) : ∀ x ∈ pathFrom size (pathStep size c),
      isUnset (m.put (cellOf size c) code) size x = isUnset m size x := by
  intro x hx
  obtain ⟨hp, hq⟩ := pathStep_onPath h hc hd
  obtain ⟨h1, h2, h3⟩ := mem_pathFrom h _ _ x rfl hp hx
  have hne : cellOf size x ≠ cellOf size c := fun he => by
    have := cellOf_inj h h1 hc h2 hd he
    subst this; omega
  simp [isUnset, ModMem.get_put_other _ _ hne]

/-! ### Unset cells ahead -/

theorem unsetAhead_done {s : State} (hd : s.cursor.done = true) : unsetAhead s = [] := by
  simp [unsetAhead, pathFrom_done hd]

theorem unsetAhead_cons {s : State} (h : legalSize s.size) (hc : s.cursor.onPath s.size) (hd : s.cursor.done = false) :
    unsetAhead s = if isUnset s.modmem s.size s.cursor then s.cursor :: unsetAhead (stepCursor s)
      else unsetAhead (stepCursor s) := by
  unfold unsetAhead
  rw [pathFrom_cons h hc hd, List.filter_cons]
  rfl

theorem mem_unsetAhead {s : State} {x : Cursor} (h : legalSize s.size) (hc : s.cursor.onPath s.size)
    (hx : x ∈ unsetAhead s) : x.onPath s.size ∧ x.done = false ∧ isUnset s.modmem s.size x = true := by
  obtain ⟨h1, h2⟩ := List.mem_filter.1 hx
  obtain ⟨a, b, -⟩ := mem_pathFrom h _ _ x rfl hc h1
  exact ⟨a, b, h2⟩

/-- The state a seek ends in: on the first Unset cell ahead, or at the end of the path when there is none (R132). -/
theorem seekWithin_spec : ∀ (k : Nat) (s : State), legalSize s.size → s.cursor.onPath s.size →
    cellsLeft s.size s.cursor < k →
    ∃ c : Cursor, seekWithin k s = .done { s with cursor := c } ∧ c.onPath s.size ∧
      unsetAhead { s with cursor := c } = unsetAhead s ∧ cellsLeft s.size c ≤ cellsLeft s.size s.cursor ∧
      ((unsetAhead s = [] ∧ c = cursorEnd s.size) ∨
        (∃ us, unsetAhead s = c :: us ∧ c.done = false ∧ isUnset s.modmem s.size c = true)) := by
  intro k
  induction k with
  | zero => intro s _ _ h; omega
  | succ k ih =>
    intro s h hc hk
    cases hd : s.cursor.done
    · have hidx := (cellOf_lt h hc).2
      have hread : memRead (cursorIndex s) s = .ok (s.modmem.get (cellOf s.size s.cursor)) := memRead_eq hidx
      simp only [seekWithin, hd, Bool.false_eq_true, if_false, hread]
      cases hu : isUnset s.modmem s.size s.cursor
      · have hk' : ¬moduleKind (s.modmem.get (cellOf s.size s.cursor)) = 0b00#2 := by simpa [isUnset] using hu
        obtain ⟨hp, hq⟩ := pathStep_onPath h hc hd
        obtain ⟨c, h1, h2, h3, h4, h5⟩ := ih (stepCursor s) h hp (by simp only [stepCursor_size, stepCursor_cursor]; omega)
        have hah : unsetAhead s = unsetAhead (stepCursor s) := by rw [unsetAhead_cons h hc hd, hu]; rfl
        rw [if_neg hk', hah]
        refine ⟨c, h1, h2, h3, ?_, h5⟩
        simp only [stepCursor_size, stepCursor_cursor] at h4
        omega
      · have hk' : moduleKind (s.modmem.get (cellOf s.size s.cursor)) = 0b00#2 := by simpa [isUnset] using hu
        rw [if_pos hk']
        exact ⟨s.cursor, rfl, hc, rfl, le_refl _, .inr ⟨_, by rw [unsetAhead_cons h hc hd, hu]; rfl, hd, hu⟩⟩
    · refine ⟨s.cursor, by simp [seekWithin, hd], hc, rfl, le_refl _, .inl ⟨unsetAhead_done hd, hc.2.2.2 hd⟩⟩

/-- Everything `seek()` can do from a cursor on the path (R132). -/
theorem seek_spec {s : State} (h : legalSize s.size) (hc : s.cursor.onPath s.size) :
    ∃ c : Cursor, seek s = .done { s with cursor := c } ∧ c.onPath s.size ∧
      unsetAhead { s with cursor := c } = unsetAhead s ∧ cellsLeft s.size c ≤ cellsLeft s.size s.cursor ∧
      ((unsetAhead s = [] ∧ c = cursorEnd s.size) ∨
        (∃ us, unsetAhead s = c :: us ∧ c.done = false ∧ isUnset s.modmem s.size c = true)) :=
  seekWithin_spec _ s h hc (by have := cellsLeft_le h hc; simp only [Config.pathFuel]; omega)

/-! ### Placing bits -/

/-- `place_bit` when no Unset cell is left: PL_OVERRUN at the end of the path (R134). -/
theorem placeBit_overrun {s : State} (b : Bool) (h : legalSize s.size) (hc : s.cursor.onPath s.size) (hu : unsetAhead s = []) :
    placeBit b s = .raised .plOverrun { s with cursor := cursorEnd s.size } := by
  obtain ⟨c, h1, -, -, -, ⟨-, rfl⟩ | ⟨us, h5, -⟩⟩ := seek_spec h hc
  · simp [placeBit, h1, raiseIf, cursorEnd]
  · simp [hu] at h5

/-- `place_bit` at the next Unset cell (R134). -/
theorem placeBit_next {s : State} (b : Bool) {u : Cursor} {us : List Cursor} (h : legalSize s.size)
    (hc : s.cursor.onPath s.size) (hu : unsetAhead s = u :: us) :
    placeBit b s = .done { s with modmem := s.modmem.put (cellOf s.size u) (dataCode b), plCnt := s.plCnt + 1#16,
                                  cursor := pathStep s.size u } := by
  obtain ⟨c, h1, h2, -, -, ⟨h5, -⟩ | ⟨us', h5, h6, -⟩⟩ := seek_spec h hc
  · simp [hu] at h5
  · rw [hu] at h5
    obtain ⟨rfl, rfl⟩ := List.cons.inj h5
    have hw : memWrite (cellOf s.size u) (dataCode b) { s with cursor := u } =
        .done { s with cursor := u, modmem := s.modmem.put (cellOf s.size u) (dataCode b) } :=
      memWrite_eq (cellOf_lt h h2).2
    have hi : cursorIndex { s with cursor := u } = cellOf s.size u := rfl
    simp only [placeBit, h1, andThen_done, raiseIf, h6, Bool.false_eq_true, if_false, hi, hw]
    rfl

/-- The Unset cells ahead after one of them has been written: those behind it (R132). -/
theorem unsetAhead_after {s t : State} {u : Cursor} {us : List Cursor} {code : ModCode} (h : legalSize s.size)
    (hc : s.cursor.onPath s.size) (hu : unsetAhead s = u :: us) (hsz : t.size = s.size)
    (hm : t.modmem = s.modmem.put (cellOf s.size u) code) (hcur : t.cursor = pathStep s.size u) :
    unsetAhead t = us ∧ t.cursor.onPath t.size ∧ cellsLeft t.size t.cursor < cellsLeft s.size s.cursor := by
  obtain ⟨c, h1, h2, h3, h4, ⟨h5, -⟩ | ⟨us', h5, h6, h7⟩⟩ := seek_spec h hc
  · simp [hu] at h5
  · rw [hu] at h5
    obtain ⟨rfl, rfl⟩ := List.cons.inj h5
    obtain ⟨hp, hq⟩ := pathStep_onPath h h2 h6
    have hs : unsetAhead { s with cursor := u } = u :: unsetAhead (stepCursor { s with cursor := u }) := by
      have := unsetAhead_cons (s := { s with cursor := u }) h h2 h6
      rwa [show State.size { s with cursor := u } = s.size from rfl, h7, if_pos rfl] at this
    rw [h3, hu] at hs
    have e : unsetAhead (stepCursor { s with cursor := u }) = us := (List.cons.inj hs).2.symm
    refine ⟨?_, by rw [hcur, hsz]; exact hp, by rw [hcur, hsz]; omega⟩
    rw [← e]
    unfold unsetAhead
    simp only [stepCursor_size, stepCursor_cursor, stepCursor_modmem]
    rw [hcur, hsz]
    have hs2 : State.size { s with cursor := u } = s.size := rfl
    rw [hs2, hm]
    exact List.filter_congr (later_isUnset_put h h2 h6)

theorem mem_put {m : ModMem} {idx : Nat} {c : ModCode} {p : Nat × ModCode} (h : p ∈ (m.put idx c).cells) :
    p = (idx, c) ∨ p ∈ m.cells := by
  unfold ModMem.put at h
  split at h
  · exact .inr (List.mem_of_mem_filter h)
  · exact mem_cellSet h

/-- Writing a legal code at a module of the matrix keeps MODMEM legal. -/
theorem put_legal {m : ModMem} {size idx : Nat} {c : ModCode} (hm : m.legal size) (hi : idx < size * size)
    (hl : c ∈ legalCodes) : (m.put idx c).legal size := by
  refine ⟨by rw [ModMem.put_fill]; exact hm.1, fun p hp => ?_⟩
  rcases mem_put hp with rfl | hp
  · exact ⟨hi, hl⟩
  · exact hm.2 p hp

theorem dataCode_legal (b : Bool) : dataCode b ∈ legalCodes := by cases b <;> decide
theorem reservedCode_legal (b : Bool) : reservedCode b ∈ legalCodes := by cases b <;> decide

/-- What the state is after a list of bits has been placed at the next Unset cells (R134, R138, R142). -/
structure Placed (s : State) (bs : List Bool) (t : State) : Prop where
  frame : t = { s with modmem := t.modmem, cursor := t.cursor, plCnt := t.plCnt }
  count : t.plCnt = s.plCnt + BitVec.ofNat 16 bs.length
  onPath : t.cursor.onPath s.size
  left : cellsLeft s.size t.cursor + bs.length ≤ cellsLeft s.size s.cursor
  ahead : unsetAhead t = (unsetAhead s).drop bs.length
  modules : ∀ idx, t.modmem.get idx =
    ((((unsetAhead s).map (cellOf s.size)).zip bs).lookup idx).elim (s.modmem.get idx) dataCode
  wf : s.modmem.wf → t.modmem.wf
  legal : s.modmem.legal s.size → t.modmem.legal s.size

theorem placed_nil {s : State} (hc : s.cursor.onPath s.size) : Placed s [] s where
  frame := rfl
  count := by simp
  onPath := hc
  left := by simp
  ahead := by simp
  modules := by simp
  wf := id
  legal := id

theorem lookup_zip_none {ks : List Nat} {bs : List Bool} {k : Nat} (h : k ∉ ks) : (ks.zip bs).lookup k = none := by
  refine List.lookup_eq_none_iff.2 fun p hp => ?_
  simpa using fun e : k = p.1 => h (e ▸ (List.of_mem_zip hp).1)

theorem head_not_in_tail {s : State} {u : Cursor} {us : List Cursor} (h : legalSize s.size) (hc : s.cursor.onPath s.size)
    (hu : unsetAhead s = u :: us) : cellOf s.size u ∉ us.map (cellOf s.size) := by
  have hmem : u ∈ unsetAhead s := by simp [hu]
  obtain ⟨a, b, -⟩ := mem_unsetAhead h hc hmem
  let t : State := { s with modmem := s.modmem.put (cellOf s.size u) 1#3, cursor := pathStep s.size u }
  obtain ⟨h1, h2, -⟩ := unsetAhead_after (t := t) h hc hu rfl rfl rfl
  intro hin
  obtain ⟨x, hx, he⟩ := List.mem_map.1 hin
  obtain ⟨hp, hq⟩ := pathStep_onPath h a b
  rw [← h1] at hx
  obtain ⟨hx1, -⟩ := List.mem_filter.1 hx
  obtain ⟨e1, e2, e3⟩ := mem_pathFrom h _ _ x rfl hp hx1
  have := cellOf_inj h e1 a e2 b he
  subst this; omega

theorem placed_cons {s t v : State} {b : Bool} {bs : List Bool} {u : Cursor} {us : List Cursor} (h : legalSize s.size)
    (hc : s.cursor.onPath s.size) (hu : unsetAhead s = u :: us)
    (ht : t = { s with modmem := s.modmem.put (cellOf s.size u) (dataCode b), plCnt := s.plCnt + 1#16,
                       cursor := pathStep s.size u }) (hv : Placed t bs v) : Placed s (b :: bs) v := by
  have hsz : t.size = s.size := by rw [ht]; rfl
  obtain ⟨h1, h2, h3⟩ := unsetAhead_after (t := t) (code := dataCode b) h hc hu hsz (by rw [ht]) (by rw [ht])
  have hmem : u ∈ unsetAhead s := by simp [hu]
  obtain ⟨a, a', -⟩ := mem_unsetAhead h hc hmem
  rw [hsz] at h2 h3
  refine ⟨?_, ?_, ?_, ?_, ?_, ?_, ?_, ?_⟩
  · have := hv.frame; rw [ht] at this; exact this
  · rw [hv.count, ht]
    simp only [List.length_cons, BitVec.ofNat_add, BitVec.add_assoc]
    rw [BitVec.add_comm 1#16]
  · have := hv.onPath; rwa [hsz] at this
  · have := hv.left; rw [hsz] at this; simp only [List.length_cons]; omega
  · rw [hv.ahead, h1, hu]; rfl
  · intro idx
    rw [hv.modules idx, h1, hsz, hu]
    simp only [List.map_cons, List.zip_cons_cons, List.lookup_cons]
    by_cases he : idx = cellOf s.size u
    · subst he
      rw [lookup_zip_none (head_not_in_tail h hc hu)]
      simp [ht]
    · have : (idx == cellOf s.size u) = false := by simpa using he
      rw [this, ht]
      simp only [ModMem.get_put_other _ _ he]
  · intro hw
    apply hv.wf
    rw [ht]
    exact ModMem.put_wf _ hw (cellOf_lt h a).2
  · intro hl
    have := hv.legal
    rw [hsz, ht] at this
    exact this (put_legal hl (cellOf_lt h a).1 (dataCode_legal b))

/-- Everything `place_bit` over a list of bits can do: all are placed, or those for which there are cells and then PL_OVERRUN
at the end of the path (R134, R138; 60_exceptions.md R164). -/
theorem placeBits_spec : ∀ (bs : List Bool) (s : State), legalSize s.size → s.cursor.onPath s.size →
    (bs.length ≤ (unsetAhead s).length ∧ ∃ t, placeBits bs s = .done t ∧ Placed s bs t) ∨
    ((unsetAhead s).length < bs.length ∧ ∃ t, placeBits bs s = .raised .plOverrun t ∧
      Placed s (bs.take (unsetAhead s).length) t ∧ t.cursor = cursorEnd s.size) := by
  intro bs
  induction bs with
  | nil => intro s h hc; exact .inl ⟨by simp, s, rfl, placed_nil hc⟩
  | cons b bs ih =>
    intro s h hc
    cases hu : unsetAhead s with
    | nil =>
      refine .inr ⟨by simp, { s with cursor := cursorEnd s.size },
        by simp only [placeBits, placeBit_overrun b h hc hu, andThen_raised], ?_, rfl⟩
      obtain ⟨c, h1, h2, h3, h4, ⟨-, rfl⟩ | ⟨us', h5, -⟩⟩ := seek_spec h hc
      · exact ⟨rfl, by simp, h2, by simpa using h4, by simpa using h3, by simp, id, id⟩
      · simp [hu] at h5
    | cons u us =>
      have hb := placeBit_next b h hc hu
      generalize ht : { s with modmem := s.modmem.put (cellOf s.size u) (dataCode b), plCnt := s.plCnt + 1#16,
                               cursor := pathStep s.size u } = t at hb
      have hsz : t.size = s.size := by rw [← ht]; rfl
      obtain ⟨h1, h2, -⟩ := unsetAhead_after (t := t) (code := dataCode b) h hc hu hsz (by rw [← ht]) (by rw [← ht])
      have hb2 : placeBits (b :: bs) s = placeBits bs t := by simp only [placeBits, hb, andThen_done]
      rw [hb2]
      rcases ih t (by rwa [hsz]) h2 with ⟨hl, v, hv1, hv2⟩ | ⟨hl, v, hv1, hv2, hv3⟩
      · rw [h1] at hl
        exact .inl ⟨by simpa using hl, v, hv1, placed_cons h hc hu ht.symm hv2⟩
      · rw [h1] at hl hv2
        refine .inr ⟨by simpa using hl, v, hv1, ?_, by rw [hv3, hsz]⟩
        simpa using placed_cons h hc hu ht.symm hv2

/-! ### Zero fill -/

/-- What the state is after every Unset cell ahead has been filled with Data(light) (R139). -/
structure Filled (s t : State) : Prop where
  frame : t = { s with modmem := t.modmem, cursor := cursorEnd s.size }
  modules : ∀ idx, t.modmem.get idx = if idx ∈ (unsetAhead s).map (cellOf s.size) then 0b100#3 else s.modmem.get idx
  wf : s.modmem.wf → t.modmem.wf
  legal : s.modmem.legal s.size → t.modmem.legal s.size

theorem zeroFillWithin_spec : ∀ (k : Nat) (s : State), legalSize s.size → s.cursor.onPath s.size →
    cellsLeft s.size s.cursor < k → ∃ t, zeroFillWithin k s = .done t ∧ Filled s t := by
  intro k
  induction k with
  | zero => intro s _ _ h; omega
  | succ k ih =>
    intro s h hc hk
    obtain ⟨c, h1, h2, h3, h4, ⟨h5, rfl⟩ | ⟨us, h5, h6, h7⟩⟩ := seek_spec h hc
    · refine ⟨{ s with cursor := cursorEnd s.size }, by simp [zeroFillWithin, h1, cursorEnd], rfl, by simp [h5], id, id⟩
    · generalize ht : { s with modmem := s.modmem.put (cellOf s.size c) 0b100#3, cursor := pathStep s.size c } = t
      have hsz : t.size = s.size := by rw [← ht]; rfl
      obtain ⟨g1, g2, g3⟩ := unsetAhead_after (t := t) (code := 0b100#3) h hc h5 hsz (by rw [← ht]) (by rw [← ht])
      obtain ⟨v, hv1, hv2⟩ := ih t (by rwa [hsz]) g2 (by omega)
      have hw : memWrite (cellOf s.size c) 0b100#3 { s with cursor := c } =
          .done { s with cursor := c, modmem := s.modmem.put (cellOf s.size c) 0b100#3 } :=
        memWrite_eq (cellOf_lt h h2).2
      have hi : cursorIndex { s with cursor := c } = cellOf s.size c := rfl
      have hstep : stepCursor { s with cursor := c, modmem := s.modmem.put (cellOf s.size c) 0b100#3 } = t := by
        rw [← ht]; rfl
      refine ⟨v, ?_, ?_, ?_, ?_, ?_⟩
      · simp only [zeroFillWithin, h1, andThen_done, h6, Bool.false_eq_true, if_false, hi, hw, hstep, hv1]
      · have := hv2.frame; rw [hsz] at this; rw [← ht] at this; exact this
      · intro idx
        rw [hv2.modules idx, g1, hsz, h5]
        have hnot := head_not_in_tail h hc h5
        by_cases he : idx = cellOf s.size c
        · subst he
          simp [hnot, ← ht]
        · simp only [List.map_cons, List.mem_cons, he, false_or]
          rw [← ht]
          simp only [ModMem.get_put_other _ _ he]
      · intro hwf; apply hv2.wf; rw [← ht]; exact ModMem.put_wf _ hwf (cellOf_lt h h2).2
      · intro hl
        have := hv2.legal
        rw [hsz, ← ht] at this
        exact this (put_legal hl (cellOf_lt h h2).1 (by decide))

/-- Everything `zero_fill()` can do from a cursor on the path (R139). -/
theorem zeroFill_spec {s : State} (h : legalSize s.size) (hc : s.cursor.onPath s.size) :
    ∃ t, zeroFill s = .done t ∧ Filled s t :=
  zeroFillWithin_spec _ s h hc (by have := cellsLeft_le h hc; simp only [Config.pathFuel]; omega)

end Sys2Proof.Machine
end

