-- ==== Sys2Proof/Laws/Legal.lean ====
section
/-! SUPPORT. What the placement commands do in terms of the Unset cells ahead, and that each operation on the state keeps it
legal. -/

namespace Sys2Proof.Machine

/-- A legal state with a matrix has a legal side (10_state.md R37). -/
theorem inv_legalSize {s : State} (h : s.Inv) (hp : s.phase ≠ .idle) : legalSize s.size :=
  legalSize_sideOf (fun e => hp (h.idle_iff.2 e)) h.ver_le

/-- In BUILD and PLACE there is a matrix, and PL_DATA and PL_FINISH pass their phase check (42_placer.md R138, R140). -/
theorem placing_phase {s : State} (hp : s.phase = .build ∨ s.phase = .place) :
    s.phase ≠ .idle ∧ ¬(s.phase ≠ .build ∧ s.phase ≠ .place) := by
  rcases hp with h | h <;> simp [h]

/-- A key that no bit was given to has no entry. -/
theorem lookup_zip_take {ks : List Nat} {bs : List Bool} {k : Nat} (h : ∀ x ∈ ks.take bs.length, x ≠ k) :
    (ks.zip bs).lookup k = none := by
  refine List.lookup_eq_none_iff.2 fun p hp => ?_
  have : p.1 ∈ ks.take bs.length := by
    obtain ⟨i, hi, e⟩ := List.mem_iff_getElem.1 hp
    rw [List.getElem_zip] at e
    subst e
    simp at hi
    exact List.mem_iff_getElem.2 ⟨i, by simp; omega, by simp⟩
  have := h _ this
  simp; exact fun e => this e.symm

/-- Among keys without repeats, a key finds the bit at its own place. -/
theorem lookup_zip_nodup : ∀ {ks : List Nat} {bs : List Bool} {j : Nat} {k : Nat} {b : Bool}, ks.Nodup →
    ks[j]? = some k → bs[j]? = some b → (ks.zip bs).lookup k = some b := by
  intro ks
  induction ks with
  | nil => intro bs j k b _ h; simp at h
  | cons a ks ih =>
    intro bs j k b hn h1 h2
    cases bs with
    | nil => simp at h2
    | cons c bs =>
      cases j with
      | zero => simp at h1 h2; subst h1 h2; simp
      | succ j =>
        simp at h1 h2
        have hk : k ∈ ks := List.mem_of_getElem? h1
        have : a ≠ k := fun e => (List.nodup_cons.1 hn).1 (e ▸ hk)
        simp only [List.zip_cons_cons, List.lookup_cons]
        rw [show (k == a) = false by simpa using this.symm]
        exact ih (List.nodup_cons.1 hn).2 h1 h2

/-- The Unset cells ahead are at different indexes (42_placer.md R133). -/
theorem unsetAhead_nodup : ∀ (n : Nat) {s : State}, (unsetAhead s).length = n → legalSize s.size →
    s.cursor.onPath s.size → ((unsetAhead s).map (cellOf s.size)).Nodup := by
  intro n
  induction n with
  | zero => intro s h _ _; simp at h; simp [h]
  | succ n ih =>
    intro s hn h hc
    cases hu : unsetAhead s with
    | nil => simp
    | cons u us =>
      let t : State := { s with modmem := s.modmem.put (cellOf s.size u) 1#3, cursor := pathStep s.size u }
      obtain ⟨h1, h2, h3⟩ := unsetAhead_after (t := t) h hc hu rfl rfl rfl
      rw [List.map_cons, List.nodup_cons]
      refine ⟨head_not_in_tail h hc hu, ?_⟩
      have := ih (s := t) (by rw [h1]; rw [hu] at hn; simpa using hn) h h2
      rw [h1] at this; exact this

/-- Bit j of the placing_phase order is bit 7 - j of the codeword (00_scope.md R15). -/
theorem bitsMsbFirst_get (d : Byte) {j : Nat} (h : j < 8) : (bitsMsbFirst d)[j]? = some (d.getLsbD (7 - j)) := by
  interval_cases j <;> rfl

/-- What MODMEM reads after placing: bit j in Unset cell j ahead, and every other entry as before (42_placer.md R134, R138). -/
theorem placed_modules {s t : State} {bs : List Bool} (hp : Placed s bs t) (h : legalSize s.size) (hc : s.cursor.onPath s.size) :
    (∀ (j : Nat) (u : Cursor) (b : Bool), (unsetAhead s)[j]? = some u → bs[j]? = some b →
      t.modmem.get (cellOf s.size u) = dataCode b) ∧
    (∀ idx, (∀ u ∈ (unsetAhead s).take bs.length, cellOf s.size u ≠ idx) → t.modmem.get idx = s.modmem.get idx) := by
  constructor
  · intro j u b h1 h2
    rw [hp.modules, lookup_zip_nodup (j := j) (b := b) (unsetAhead_nodup _ rfl h hc) (by simp [h1]) h2]; rfl
  · intro idx hi
    rw [hp.modules, lookup_zip_take]; rfl
    intro x hx
    rw [← List.map_take] at hx
    obtain ⟨u, hu, rfl⟩ := List.mem_map.1 hx
    exact hi u hu

/-- After placing_phase, the cursor is one step past the last cell written (42_placer.md R134). -/
theorem placeBits_cursor : ∀ (bs : List Bool) (s t : State) (u : Cursor), legalSize s.size → s.cursor.onPath s.size →
    placeBits bs s = .done t →
    bs ≠ [] → (unsetAhead s)[bs.length - 1]? = some u → t.cursor = pathStep s.size u := by
  intro bs
  induction bs with
  | nil => intro s t u _ _ _ h; exact absurd rfl h
  | cons b bs ih =>
    intro s t u h hc hb _ hu
    cases he : unsetAhead s with
    | nil => simp [he] at hu
    | cons v us =>
      have hb1 := placeBit_next b h hc he
      simp only [placeBits, hb1, andThen_done] at hb
      generalize ht : { s with
        modmem := s.modmem.put (cellOf s.size v) (dataCode b), plCnt := s.plCnt + 1#16,
        cursor := pathStep s.size v } = w at hb
      have hsz : w.size = s.size := by rw [← ht]; rfl
      obtain ⟨h1, h2, -⟩ := unsetAhead_after (t := w) (code := dataCode b) h hc he hsz (by rw [← ht]) (by rw [← ht])
      cases bs with
      | nil =>
        simp [placeBits] at hb; simp [he] at hu; subst hb hu; rw [← ht]
      | cons c bs =>
        have := ih w t u (by rwa [hsz]) h2 hb (by simp) (by rw [h1]; rw [he] at hu; simpa using hu)
        rw [this, hsz]

/-- Everything PL_DATA can do in BUILD or PLACE: place all eight bits, or as many as there are Unset cells and
overrun (42_placer.md R138). -/
theorem execPlData_placing {d : Byte} {s : State} (h : s.Inv) (hf : s.fault = false) (hp : s.phase = .build ∨ s.phase = .place) :
    (8 ≤ (unsetAhead s).length ∧ ∃ t, exec (.plData d) s = .next t ∧ Placed { s with phase := .place } (bitsMsbFirst d) t) ∨
    ((unsetAhead s).length < 8 ∧ ∃ u, exec (.plData d) s = .next (recordFault .plOverrun (encode (.plData d)) u) ∧
      Placed { s with phase := .place } ((bitsMsbFirst d).take (unsetAhead s).length) u ∧ u.cursor = cursorEnd s.size) := by
  obtain ⟨h1, h2⟩ := placing_phase hp
  have hs : legalSize (State.size { s with phase := .place }) := inv_legalSize (s := s) h h1
  have hc : Cursor.onPath (State.size { s with phase := .place }) (State.cursor { s with phase := .place }) := h.on_path h1
  have he : exec (.plData d) s = (placeBits (bitsMsbFirst d) { s with phase := .place }).outcome (encode (.plData d)) := by
    simp only [exec, execPlData, command_unlocked hf, raiseIf_neg h2]
  have hl : (bitsMsbFirst d).length = 8 := rfl
  rcases placeBits_spec (bitsMsbFirst d) _ hs hc with ⟨a, t, b, c⟩ | ⟨a, t, b, c, e⟩
  · exact .inl ⟨a, t, by rw [he, b]; rfl, c⟩
  · exact .inr ⟨a, t, by rw [he, b]; rfl, c, e⟩

/-- PL_FINISH in BUILD or PLACE is its seek and what follows (42_placer.md R140). -/
theorem execPlFinish_placing {s : State} (hf : s.fault = false) (hp : s.phase = .build ∨ s.phase = .place) :
    exec .plFinish s = (((seek s).andThen finishRemainder).andThen fun s =>
      .done { s with phase := .finished }).outcome (encode .plFinish) := by
  obtain ⟨h1, h2⟩ := placing_phase hp
  simp only [exec, execPlFinish, command_unlocked hf, raiseIf_neg h2]

/-- Recording a fault keeps a state legal (60_exceptions.md R163). -/
theorem inv_record {s : State} (h : s.Inv) (c : FaultCode) (w : Word) : (recordFault c w s).Inv :=
  { h with
    unlocked_clear := fun e => by simp at e
    locked_code := fun _ => by cases c <;> simp [FaultCode.code]
    build_start := fun _ e => by simp at e }

/-- Writing RESULT keeps a state legal (10_state.md R23). -/
theorem inv_result {s : State} (h : s.Inv) (v : Word) : State.Inv { s with result := v } :=
  { h with }

/-- The port keeps a state legal (20_memory.md R46). -/
theorem inv_reply {s : State} (h : s.Inv) (rep : Reply) (rest : List HostEvent) : State.Inv { s with reply := rep, host := rest } :=
  { h with }

/-- Reset leaves a legal state (70_reset_and_hazards.md R180). -/
theorem inv_reset {s : State} (h : s.Inv) : (resetState s).Inv where
  params_legal := h.params_legal
  unlocked_clear := by simp
  locked_code := by simp
  rsN_le := by simp
  rs_inactive := by simp
  g_generator := by simp
  r_tail_zero := by simp
  idle_iff := by simp
  ver_le := by simp
  idle_zero := by simp
  on_path := by simp
  finished_done := by simp
  build_empty := by simp
  build_start := by simp
  count_le := by simp
  mem_wf := by simp [ModMem.wf]
  mem_legal := by simp

/-- What RS_START writes is legal (41_rs_encoder.md R84). -/
theorem inv_start {s : State} (h : s.Inv) {n : Byte} (hn : n.toNat ≤ s.params.ecMax.toNat) :
   State.Inv { s with
     g := .held (generatorFile n.toNat s), r := .held (List.replicate s.params.ecMax.toNat 0#8),
     rsN := n, rsCnt := 0#16, rsActive := true } :=
  { h with
    rsN_le := hn
    rs_inactive := by simp
    g_generator := fun _ => rfl
    r_tail_zero := fun _ => ⟨_, rfl, by simp, fun i _ => by
      simp [List.getD_eq_getElem?_getD, List.getElem?_replicate]; split <;> rfl⟩ }

/-- What RS_DATA writes is legal (41_rs_encoder.md R85). -/
theorem inv_data {s : State} (h : s.Inv) (ha : s.rsActive = true) (d : Byte) :
   State.Inv { s with r := .held (remainderStep d s), rsCnt := s.rsCnt + 1#16 } := by
  refine { h with rs_inactive := by simp [ha], r_tail_zero := ?_ }
  intro _
  refine ⟨_, rfl, by simp, fun i hi => ?_⟩
  obtain ⟨bytes, e1, e2, e3⟩ := h.r_tail_zero ha
  simp only at hi
  by_cases hlt : i < s.params.ecMax.toNat
  · rw [remainderStep_getD d s hlt, if_neg (by omega), if_neg (by omega), readR_held e1]
    exact e3 i hi
  · simp [List.getD_eq_getElem?_getD]
    rw [List.getElem?_eq_none (by simp; omega)]; rfl

/-- What MTX_INIT writes is legal (42_placer.md R135). -/
theorem inv_init {s : State} (h : s.Inv) {v : Byte} (hv : ¬versionOutside v) :
   State.Inv { s with ver := v, modmem := .allUnset, cursor := cursorStart (sideOf v), plCnt := 0#16, phase := .build } := by
  simp only [versionOutside, not_or, BitVec.not_lt, BitVec.le_def] at hv
  have hv1 : 1 ≤ v.toNat := by simpa using hv.1
  have hv2 : v.toNat ≤ 40 := by simpa using hv.2
  have hne : v ≠ 0#8 := by rintro rfl; simp at hv1
  have hs : legalSize (sideOf v) := legalSize_sideOf hne hv2
  obtain ⟨c1, c2⟩ := cursorStart_onPath hs
  exact ⟨h.params_legal, h.unlocked_clear, h.locked_code, h.rsN_le, h.rs_inactive, h.g_generator, h.r_tail_zero,
    by simp [hne], hv2, by simp, fun _ => c1, by simp, fun _ => ⟨rfl, by simp⟩, fun _ _ => rfl,
    fun _ => by show 0 + cellsLeft (sideOf v) (cursorStart (sideOf v)) ≤ _; rw [c2]; simp [State.size],
    ModMem.allUnset_wf, fun _ => by simp [ModMem.allUnset, ModMem.legal]⟩

/-- A module of the matrix is an entry of MODMEM (20_memory.md R42). -/
theorem inv_cellIndex_lt {s : State} (h : s.Inv) (hi : s.phase ≠ .idle) {row col : Byte} (hc : ¬cellOutside row col s) :
   cellIndex s.size row.toNat col.toNat < s.size * s.size ∧ cellIndex s.size row.toNat col.toNat < Config.modmemSize := by
  have hs := inv_legalSize h hi
  simp only [cellOutside, not_or, Nat.not_le] at hc
  have h1 : (row.toNat + 1) * s.size ≤ s.size * s.size := Nat.mul_le_mul_right _ hc.1
  have h2 : s.size * s.size ≤ 177 * 177 := Nat.mul_le_mul hs.2.1 hs.2.1
  rw [Nat.add_mul, Nat.one_mul] at h1
  simp only [cellIndex, Config.modmemSize]
  omega

/-- What MOD_RSV writes is legal (42_placer.md R136). -/
theorem inv_rsv {s : State} (h : s.Inv) (hp : s.phase = .build) {row col : Byte} (hc : ¬cellOutside row col s) (dark : Bool) :
   State.Inv { s with modmem := s.modmem.put (cellIndex s.size row.toNat col.toNat) (reservedCode dark) } := by
  have hi : s.phase ≠ .idle := by simp [hp]
  obtain ⟨i1, i2⟩ := inv_cellIndex_lt h hi hc
  refine ⟨h.params_legal, h.unlocked_clear, h.locked_code, h.rsN_le, h.rs_inactive, h.g_generator, h.r_tail_zero,
    h.idle_iff, h.ver_le, h.idle_zero, h.on_path, h.finished_done, fun _ => ⟨(h.build_empty hp).1, fun idx => ?_⟩, h.build_start, h.count_le,
    ModMem.put_wf _ h.mem_wf i2, fun _ => put_legal (h.mem_legal hi) i1 (reservedCode_legal dark)⟩
  simp only [ModMem.get_put]
  split
  · simp
  · exact (h.build_empty hp).2 idx

/-- Placing bits keeps a state legal (42_placer.md R134, R138). -/
theorem inv_placed {s t : State} {bs : List Bool} (h : s.Inv) (hp : s.phase = .build ∨ s.phase = .place)
    (hpl : Placed { s with phase := .place } bs t) : t.Inv := by
  obtain ⟨h1, -⟩ := placing_phase hp
  have hc := h.count_le h1
  have hl : cellsLeft s.size t.cursor + bs.length ≤ cellsLeft s.size s.cursor := hpl.left
  have hn : t.plCnt.toNat ≤ s.plCnt.toNat + bs.length := by
    rw [show t.plCnt = s.plCnt + BitVec.ofNat 16 bs.length from hpl.count, BitVec.toNat_add, BitVec.toNat_ofNat]
    have := Nat.mod_le bs.length (2 ^ 16)
    have := Nat.mod_le (s.plCnt.toNat + bs.length % 2 ^ 16) (2 ^ 16)
    omega
  have hpath := hpl.onPath
  have hwf := hpl.wf h.mem_wf
  have hlegal := hpl.legal (h.mem_legal h1)
  rw [hpl.frame]
  exact { h with
    idle_iff := by simpa using fun e => h1 (h.idle_iff.2 e)
    idle_zero := by simp
    on_path := fun _ => hpath
    finished_done := by simp
    build_empty := by simp
    build_start := by simp
    count_le := fun _ => Nat.le_trans (by show t.plCnt.toNat + cellsLeft s.size t.cursor ≤ _; omega) hc
    mem_wf := hwf
    mem_legal := fun _ => hlegal }

end Sys2Proof.Machine
end

