-- ==== Sys2Proof/Laws/PerInstr.lean ====
section
/-! SUPPORT. Per instruction: the encoded word stands in the opcode map (30_encoding.md R51, R53): some row has its opcode byte, and
its reserved-zero bits are 0. -/

namespace Sys2Proof.Laws.EncodedInMap

/-- The word of the command meets the match and mask of the row of its opcode byte. -/
def Statement (i : Instr) : Prop :=
  ∃ row ∈ opcodeMap, row.opcode = opcodeField (encode i) ∧ encode i &&& row.mask = row.pattern

/-- A word built of fields is read back at its opcode byte. -/
theorem opcode_formats (opcode x y : Byte) (d : Bool) :
    opcodeField (formatZ opcode) = opcode ∧ opcodeField (formatB opcode x) = opcode ∧
    opcodeField (formatP opcode x y) = opcode ∧ opcodeField (formatC opcode x y) = opcode ∧
    opcodeField (formatD opcode x y d) = opcode := by
  simp [opcodeField, formatZ, formatB, formatP, formatC, formatD, extract_fieldAt, extract_fieldAt_same]

/-- The fields of a command under its mask: only the opcode is left. -/
theorem masked_formats (opcode x y : Byte) (d : Bool) :
    formatB opcode x &&& 0xFFFFFF00#32 = formatZ opcode ∧ formatP opcode x y &&& 0xFFFF0000#32 = formatZ opcode ∧
    formatC opcode x y &&& 0xFF0000FF#32 = formatZ opcode ∧ formatD opcode x y d &&& 0xFF0000FE#32 = formatZ opcode := by
  refine ⟨?_, ?_, ?_, ?_⟩ <;>
  · simp only [formatZ, formatB, formatP, formatC, formatD]
    ext i hi
    simp only [← BitVec.getLsbD_eq_getElem, BitVec.getLsbD_and, BitVec.getLsbD_or, getLsbD_fieldAt]
    interval_cases i <;> simp

theorem nop : Statement .nop :=
  ⟨opcodeMap[0]'(by decide), List.getElem_mem _, (opcode_formats 0x00#8 0#8 0#8 false).1.symm,
    by decide⟩

theorem reset : Statement .reset :=
  ⟨opcodeMap[1]'(by decide), List.getElem_mem _, (opcode_formats 0x01#8 0#8 0#8 false).1.symm,
    by decide⟩

theorem gfMul (a b : Byte) : Statement (.gfMul a b) :=
  ⟨opcodeMap[2]'(by decide), List.getElem_mem _, (opcode_formats 0x10#8 a b false).2.2.1.symm,
    (masked_formats 0x10#8 a b false).2.1.trans (by decide)⟩

theorem gfDiv (a b : Byte) : Statement (.gfDiv a b) :=
  ⟨opcodeMap[3]'(by decide), List.getElem_mem _, (opcode_formats 0x11#8 a b false).2.2.1.symm,
    (masked_formats 0x11#8 a b false).2.1.trans (by decide)⟩

theorem gfExp (e : Byte) : Statement (.gfExp e) :=
  ⟨opcodeMap[4]'(by decide), List.getElem_mem _, (opcode_formats 0x12#8 e 0#8 false).2.1.symm,
    (masked_formats 0x12#8 e 0#8 false).1.trans (by decide)⟩

theorem gfLog (a : Byte) : Statement (.gfLog a) :=
  ⟨opcodeMap[5]'(by decide), List.getElem_mem _, (opcode_formats 0x13#8 a 0#8 false).2.1.symm,
    (masked_formats 0x13#8 a 0#8 false).1.trans (by decide)⟩

theorem rsStart (n : Byte) : Statement (.rsStart n) :=
  ⟨opcodeMap[6]'(by decide), List.getElem_mem _, (opcode_formats 0x20#8 n 0#8 false).2.1.symm,
    (masked_formats 0x20#8 n 0#8 false).1.trans (by decide)⟩

theorem rsData (d : Byte) : Statement (.rsData d) :=
  ⟨opcodeMap[7]'(by decide), List.getElem_mem _, (opcode_formats 0x21#8 d 0#8 false).2.1.symm,
    (masked_formats 0x21#8 d 0#8 false).1.trans (by decide)⟩

theorem rsRdec (i : Byte) : Statement (.rsRdec i) :=
  ⟨opcodeMap[8]'(by decide), List.getElem_mem _, (opcode_formats 0x22#8 i 0#8 false).2.1.symm,
    (masked_formats 0x22#8 i 0#8 false).1.trans (by decide)⟩

theorem rsRdgen (i : Byte) : Statement (.rsRdgen i) :=
  ⟨opcodeMap[9]'(by decide), List.getElem_mem _, (opcode_formats 0x23#8 i 0#8 false).2.1.symm,
    (masked_formats 0x23#8 i 0#8 false).1.trans (by decide)⟩

theorem mtxInit (v : Byte) : Statement (.mtxInit v) :=
  ⟨opcodeMap[10]'(by decide), List.getElem_mem _, (opcode_formats 0x30#8 v 0#8 false).2.1.symm,
    (masked_formats 0x30#8 v 0#8 false).1.trans (by decide)⟩

theorem modRsv (row col : Byte) (dark : Bool) : Statement (.modRsv row col dark) :=
  ⟨opcodeMap[11]'(by decide), List.getElem_mem _, (opcode_formats 0x31#8 row col dark).2.2.2.2.symm,
    (masked_formats 0x31#8 row col dark).2.2.2.trans (by decide)⟩

theorem modRd (row col : Byte) : Statement (.modRd row col) :=
  ⟨opcodeMap[12]'(by decide), List.getElem_mem _, (opcode_formats 0x32#8 row col false).2.2.2.1.symm,
    (masked_formats 0x32#8 row col false).2.2.1.trans (by decide)⟩

theorem plData (d : Byte) : Statement (.plData d) :=
  ⟨opcodeMap[13]'(by decide), List.getElem_mem _, (opcode_formats 0x33#8 d 0#8 false).2.1.symm,
    (masked_formats 0x33#8 d 0#8 false).1.trans (by decide)⟩

theorem plFinish : Statement .plFinish :=
  ⟨opcodeMap[14]'(by decide), List.getElem_mem _, (opcode_formats 0x34#8 0#8 0#8 false).1.symm,
    by decide⟩

end Sys2Proof.Laws.EncodedInMap
end

