-- ==== Sys2Proof/Machine/Assembler.lean ====
section
/-! DEFINITION. The assembler (30_encoding.md R57 to R59): from the text of a command program to the transactions the host
presents. It is no part of the block (DESIGN CHOICE: log entry 13). -/

namespace Sys2Proof.Machine

/-! ### Characters -/

/-- A space, a tab or a carriage return. -/
def isBlank (c : Char) : Bool := c == ' ' || c == '\t' || c == '\r'

/-- The text without blanks at its two ends. -/
def trimBlanks (cs : List Char) : List Char := ((cs.dropWhile isBlank).reverse.dropWhile isBlank).reverse

/-- The pieces of a text between the occurrences of a character. -/
def piecesAt (sep : Char) : List Char → List (List Char)
  | [] => [[]]
  | c :: cs =>
    if c = sep then [] :: piecesAt sep cs
    else
      match piecesAt sep cs with
      | [] => [[c]]
      | p :: ps => (c :: p) :: ps

/-- `;` starts a comment (R57). -/
def withoutComment (line : List Char) : List Char := trimBlanks (line.takeWhile (· != ';'))

/-- The digits in rising order of value (R57); a number's base says how many of them it may use. -/
def digitOrder : List Char := "0123456789abcdef".toList

/-- The value of a digit is its place in that order, in either case (DESIGN CHOICE: log entry 13). -/
def digitValue (c : Char) : Option Nat := digitOrder.findIdx? (· == c.toLower)

/-- The number written by digits in a base, given the value of the digits before them. -/
def numberFrom (base : Nat) : Nat → List Char → Option Nat
  | acc, [] => some acc
  | acc, c :: cs =>
    match digitValue c with
    | some d => if d < base then numberFrom base (acc * base + d) cs else none
    | none => none

/-- A number, decimal or `0x` hexadecimal (R57), with at least one digit. -/
def parseNumber (cs : List Char) : Option Nat :=
  match cs with
  | [] => none
  | ['0', 'x'] => none
  | '0' :: 'x' :: digits => numberFrom 16 0 digits
  | digits => numberFrom 10 0 digits

/-- Operands separated by commas (R57); no text is no operand. -/
def parseOperands (cs : List Char) : Option (List Nat) :=
  match trimBlanks cs with
  | [] => some []
  | cs => (piecesAt ',' cs).mapM fun piece => parseNumber (trimBlanks piece)

/-! ### Lines -/

/-- The register names of `READ` (R57; 10_state.md R21). -/
def portRegNames : List (String × PortReg) :=
  [ ("CMD", .cmd), ("RESULT", .result), ("STATUS", .status), ("CURSOR", .cursor), ("RSINFO", .rsinfo), ("PLINFO", .plinfo),
    ("FAULTCMD", .faultcmd), ("ID", .id) ]

/-- The register of a name. -/
def portRegNamed (name : String) : Option PortReg := (portRegNames.find? (fun p => p.1 == name)).map Prod.snd

/-- The line of a mnemonic or a pseudo-instruction with its operands (R57, R58). There are no other forms (R59). -/
def lineNamed (name : String) (operands : List Nat) : Option AsmLine :=
  if name = "RS_BLOCK" then
    match operands with
    | n :: data => some (.rsBlock n data)
    | [] => none
  else if name = "RS_READALL" then
    match operands with
    | [n] => some (.rsReadAll n)
    | _ => none
  else if name = "PL_STREAM" then some (.plStream operands)
  else if name = "MOD_RSV_RECT" then
    match operands with
    | [r0, c0, h, w, dark] => some (.modRsvRect r0 c0 h w dark)
    | _ => none
  else some (.command name operands)

/-- One line of the text, already without its comment and its blanks (R57). -/
def parseLine (line : List Char) : Option AsmLine :=
  let name := String.ofList (line.takeWhile (fun c => !isBlank c))
  let rest := trimBlanks (line.dropWhile (fun c => !isBlank c))
  if name = "READ" then (portRegNamed (String.ofList rest)).map .read
  else (parseOperands rest).bind (lineNamed name)

/-- The lines of a text that are not empty; one that ends with a comma goes on in the next (95_test_vectors.md P5; DESIGN CHOICE: log entry
13). The first argument is what stands before the first line. -/
def logicalLines : List Char → List (List Char) → List (List Char)
  | held, [] => if held = [] then [] else [held]
  | held, line :: rest =>
    let text := held ++ withoutComment line
    if text = [] then logicalLines [] rest
    else if text.getLast? = some ',' then logicalLines text rest
    else text :: logicalLines [] rest

/-! ### Expansion -/

/-- R58, R59: a pseudo-instruction unrolled to command lines and `READ`s; every other line is itself. -/
def expandLine : AsmLine → List AsmLine
  | .rsBlock n data => .command "RS_START" [n] :: data.map fun d => .command "RS_DATA" [d]
  | .rsReadAll n => (List.range n).flatMap fun i => [.command "RS_RDEC" [i], .read .result]
  | .plStream data => data.map fun d => .command "PL_DATA" [d]
  | .modRsvRect r0 c0 h w dark =>
    (List.range h).flatMap fun r => (List.range w).map fun c => .command "MOD_RSV" [r0 + r, c0 + c, dark]
  | line => [line]

/-- The command of a mnemonic and its operands, when there is one (R51, R53, R57). -/
def instrOf (name : String) (operands : List Nat) : Option Instr :=
  let byte (k : Nat) : Byte := BitVec.ofNat 8 (operands.getD k 0)
  if commandWellFormed name operands = false then none
  else if name = "NOP" then some .nop
  else if name = "RESET" then some .reset
  else if name = "GF_MUL" then some (.gfMul (byte 0) (byte 1))
  else if name = "GF_DIV" then some (.gfDiv (byte 0) (byte 1))
  else if name = "GF_EXP" then some (.gfExp (byte 0))
  else if name = "GF_LOG" then some (.gfLog (byte 0))
  else if name = "RS_START" then some (.rsStart (byte 0))
  else if name = "RS_DATA" then some (.rsData (byte 0))
  else if name = "RS_RDEC" then some (.rsRdec (byte 0))
  else if name = "RS_RDGEN" then some (.rsRdgen (byte 0))
  else if name = "MTX_INIT" then some (.mtxInit (byte 0))
  else if name = "MOD_RSV" then some (.modRsv (byte 0) (byte 1) (operands.getD 2 0 == 1))
  else if name = "MOD_RD" then some (.modRd (byte 0) (byte 1))
  else if name = "PL_DATA" then some (.plData (byte 0))
  else if name = "PL_FINISH" then some .plFinish
  else none

/-- The transaction of an expanded line (R57): a command is written to CMD, `READ` reads its register. None is an assembly
error. -/
def lineEvent : AsmLine → Option HostEvent
  | .command name operands => (instrOf name operands).map fun i => .write (portAddress .cmd) (encode i)
  | .read reg => some (.read (portAddress reg))
  | _ => none

/-- The transactions of a line (R57, R58). -/
def lineEvents (line : AsmLine) : Option (List HostEvent) := (expandLine line).mapM lineEvent

/-- The transactions of a program text (R57 to R59), or none for an assembly error. -/
def assemble (text : String) : Option (List HostEvent) := do
  let lines ← (logicalLines [] (piecesAt '\n' text.toList)).mapM parseLine
  let events ← lines.mapM lineEvents
  return events.flatten

end Sys2Proof.Machine
end

