-- ==== Sys2Proof/Tests/Slice0.lean ====
section
/-! SUPPORT. The model's own tests, each expected value from spec/ (mostly 95_test_vectors.md), and a witness for every
statement that has hypotheses. -/

namespace Sys2Proof.Tests

open Sys2Proof Sys2Proof.Machine

/-! ### States the tests start from -/

/-- The state a step answers; a stop gives none. -/
def nextOf (x : Host.Outcome State Fault Refusal) : Option State :=
  match x with
  | .next t => some t
  | _ => none

/-- The state after one command word written to CMD. -/
def after (w : Word) (s : State) : Option State := nextOf (step (s.withFetchWord 32 w.toNat))

/-- What a register reads after one command word. -/
def readAfter (w : Word) (a : PortAddr) (s : State) : Option Word := (after w s).map fun t => readPort t a

/-- A locked block: GF_LOG 0 has faulted from reset (95_test_vectors.md 2.4). -/
def locked : State := { State.reset with fault := true, fcode := 5#4, faultCmd := 0x13000000#32 }

/-- A block of degree 4 in progress, after RS_DATA 01 (95_test_vectors.md 2.2, prefix remainders). -/
def active : State :=
  { State.reset with
    rsActive := true, rsN := 4#8, rsCnt := 1#16,
    g := .held ([0x01#8, 0x0F#8, 0x36#8, 0x78#8, 0x40#8] ++ List.replicate 26 0#8),
    r := .held ([0x0F#8, 0x36#8, 0x78#8, 0x40#8] ++ List.replicate 26 0#8) }

/-- A block of degree 0 (95_test_vectors.md 2.2, corner cases). -/
def activeZero : State :=
  { State.reset with
    rsActive := true, g := .held (0x01#8 :: List.replicate 30 0#8), r := .held (List.replicate 30 0#8) }

/-- The largest RS_N: EC_MAX itself, with a generator file of the model. -/
def activeMax : State :=
  { State.reset with rsActive := true, rsN := 30#8, g := .held (generatorFile 30 State.reset), r := .held (List.replicate 30 0#8) }

/-- A version-1 matrix with its listed modules, nothing placed. -/
def matrix (policy : Policy) (phase : Phase) (cursor : Cursor) (cells : List (Nat × ModCode)) : State :=
  { State.reset with
    params := { ecMax := 30#8, policy := policy },
    ver := 1#8, phase := phase, cursor := cursor, modmem := { fill := .unset, cells := cells } }

/-- An empty version-1 matrix (95_test_vectors.md 2.3). -/
def built : State := matrix .fatal .build (cursorStart 21) []

/-- The same with four modules stamped, so that 416 cells of the path, 52 codewords, stay Unset. -/
def stamped : State :=
  matrix .fatal .build (cursorStart 21) [(0, 0b010#3), (1, 0b010#3), (2, 0b011#3), (3, 0b010#3)]

/-- The version-1 matrix of 95_test_vectors.md P2 after its two MOD_RSV. -/
def skipping : State :=
  matrix .fatal .build (cursorStart 21) [(18 * 21 + 20, 0b010#3), (20 * 21 + 19, 0b011#3)]

/-- A cell of the last column pair, on which the cursor moves down. -/
def lastPair (row : Byte) (right : Bool) : Cursor :=
  { row := row, col := if right then 1#8 else 0#8, up := false, right := right, done := false }

/-- A version-1 matrix being filled, with the cursor at a cell of the last column pair, all Unset. -/
def nearEnd (policy : Policy) (row : Byte) (right : Bool) : State := matrix policy .place (lastPair row right) []

/-- The path has been walked to its end. -/
def walked : State := matrix .fatal .place (cursorEnd 21) []

/-- The same with PL_FINISH done. -/
def finished : State := matrix .fatal .finished (cursorEnd 21) []

/-! ### Well-formedness -/

/-- EC_MAX = 0 is no legal parameter (00_scope.md R6). -/
theorem test_wellFormed_params :
    Params.rszp1.wellFormed = true ∧ Params.wellFormed { ecMax := 0#8, policy := .fatal } = false := by decide

/-- 30_encoding.md R57: a name that is no mnemonic, a wrong number of operands, and an operand outside its field. -/
theorem test_wellFormed_commands :
    commandWellFormed "MOD_RSV" [255, 255, 1] = true ∧ commandWellFormed "MOD_SET" [1, 1, 1] = false ∧
    commandWellFormed "MOD_RSV" [1, 1] = false ∧ commandWellFormed "MOD_RSV" [1, 1, 2] = false ∧
    commandWellFormed "PL_DATA" [256] = false ∧ commandWellFormed "NOP" [0] = false := by decide

/-! ### Decoding: words written out field by field from 30_encoding.md R51 and R53 -/

theorem test_decode_control :
    decode (0x00#8 ++ 0#8 ++ 0#8 ++ 0#8) = .ok .nop ∧ decode (0x01#8 ++ 0#8 ++ 0#8 ++ 0#8) = .ok .reset := by decide

theorem test_decode_gf :
    decode (0x10#8 ++ 0#8 ++ 0x53#8 ++ 0xCA#8) = .ok (.gfMul 0x53#8 0xCA#8) ∧
    decode (0x11#8 ++ 0#8 ++ 0x05#8 ++ 0x81#8) = .ok (.gfDiv 0x05#8 0x81#8) ∧
    decode (0x12#8 ++ 0#8 ++ 0#8 ++ 0b1000000#7 ++ 1#1) = .ok (.gfExp 0x81#8) ∧
    decode (0x13#8 ++ 0#8 ++ 0#8 ++ 0b0001110#7 ++ 1#1) = .ok (.gfLog 0x1D#8) := by decide

theorem test_decode_rs :
    decode (0x20#8 ++ 0#8 ++ 0#8 ++ 0b0000010#7 ++ 0#1) = .ok (.rsStart 4#8) ∧
    decode (0x21#8 ++ 0#8 ++ 0#8 ++ 0b1111111#7 ++ 0#1) = .ok (.rsData 0xFE#8) ∧
    decode (0x22#8 ++ 0#8 ++ 0#8 ++ 0b0000001#7 ++ 1#1) = .ok (.rsRdec 3#8) ∧
    decode (0x23#8 ++ 0#8 ++ 0#8 ++ 0b0001111#7 ++ 0#1) = .ok (.rsRdgen 30#8) := by decide

theorem test_decode_placer :
    decode (0x30#8 ++ 0#8 ++ 0#8 ++ 0b0010100#7 ++ 0#1) = .ok (.mtxInit 40#8) ∧
    decode (0x31#8 ++ 20#8 ++ 19#8 ++ 0#7 ++ 1#1) = .ok (.modRsv 20#8 19#8 true) ∧
    decode (0x32#8 ++ 0#8 ++ 17#8 ++ 0#7 ++ 0#1) = .ok (.modRd 0#8 17#8) ∧
    decode (0x33#8 ++ 0#8 ++ 0#8 ++ 0b1010010#7 ++ 1#1) = .ok (.plData 0xA5#8) ∧
    decode (0x34#8 ++ 0#8 ++ 0#8 ++ 0#8) = .ok .plFinish := by decide

/-- 95_test_vectors.md 2.1, 2.3, 2.4: the words that are no command. -/
theorem test_decode_refuses :
    decode 0x05000000#32 = .error .illegalOpcode ∧ decode 0xFF000000#32 = .error .illegalOpcode ∧
    decode 0x00000001#32 = .error .reservedBits ∧ decode 0x01000001#32 = .error .reservedBits ∧
    decode 0x10010203#32 = .error .reservedBits ∧ decode 0x12000100#32 = .error .reservedBits ∧
    decode 0x31000002#32 = .error .reservedBits ∧ decode 0x32000001#32 = .error .reservedBits ∧
    decode 0x34000001#32 = .error .reservedBits := by decide

/-- No two rows of the opcode map share an opcode byte (30_encoding.md R53). -/
theorem test_opcodes_differ : (opcodeMap.map OpRow.opcode).Nodup := by decide

/-! ### The assembler (30_encoding.md R57, R58) -/

theorem test_assemble_line : assemble "MOD_RSV 20, 19, 1  ; dark" = some [.write 0#3 0x31141301#32] ∧
    assemble "PL_DATA 0xaF" = some [.write 0#3 0x330000AF#32] ∧ assemble "PL_DATA 1A" = none ∧ assemble "PL_DATA 0xG0" = none := by
  decide

theorem test_assemble_pseudo :
    assemble "RS_BLOCK 2, 0x20,\n  0x5B\n\nRS_READALL 2" =
      some [.write 0#3 0x20000002#32, .write 0#3 0x21000020#32, .write 0#3 0x2100005B#32, .write 0#3 0x22000000#32, .read 1#3,
        .write 0#3 0x22000001#32, .read 1#3] ∧
    assemble "MOD_RSV_RECT 1, 2, 2, 2, 1" =
      some [.write 0#3 0x31010201#32, .write 0#3 0x31010301#32, .write 0#3 0x31020201#32, .write 0#3 0x31020301#32] := by decide

theorem test_assemble_errors :
    assemble "PL_DATA 256" = none ∧ assemble "MOD_RSV 1, 1, 2" = none ∧ assemble "JUMP 1" = none ∧ assemble "READ PC" = none :=
  by decide

/-! ### The port and the lock -/

/-- 95_test_vectors.md 2.4: from reset, an illegal opcode and a NOP with a reserved bit. -/
theorem test_word_faults :
    readAfter 0x05000000#32 2#3 .reset = some 0x00000110#32 ∧ readAfter 0x00000001#32 2#3 .reset = some 0x00000210#32 ∧
    readAfter 0x22000100#32 2#3 .reset = some 0x00000210#32 ∧ readAfter 0xFF000000#32 6#3 .reset = some 0xFF000000#32 := by decide

/-- 95_test_vectors.md 2.4: a locked block ignores GF_EXP 1 and 01000001. -/
theorem test_lock :
    readAfter 0x12000001#32 2#3 locked = some 0x00000510#32 ∧ readAfter 0x12000001#32 1#3 locked = some 0#32 ∧
    readAfter 0x01000001#32 2#3 locked = some 0x00000510#32 ∧ readAfter 0x01000001#32 6#3 locked = some 0x13000000#32 := by decide

/-- 20_memory.md R47: a write to an address other than CMD changes nothing; Read(7) gives ID. -/
theorem test_port :
    nextOf (step (presentFirst (.write 1#3 0x12000001#32) .reset)) = some { State.reset with reply := .acked } ∧
    nextOf (step (presentFirst (.read 7#3) .reset)) = some { State.reset with reply := .data 0x525A1E00#32 } := by decide

/-- 43_control.md R150 with the decoder: withFetchWord presents a word that the next step runs. -/
theorem test_withFetchWord : decodeTableWord 32 0x31141301 = some (.modRsv 20#8 19#8 true) ∧
    nextOf (step (State.reset.withFetchWord 32 0x120000FF)) =
      some { State.reset with reply := .acked, result := 0x00000001#32 } := by decide

/-! ### Control (95_test_vectors.md 2.4, P4) -/

theorem test_nop : after 0x00000000#32 active = some { active with reply := .acked } := by decide

theorem test_reset : readAfter 0x01000000#32 2#3 locked = some 0#32 ∧ readAfter 0x01000000#32 6#3 locked = some 0#32 ∧
    readAfter 0x01000000#32 7#3 locked = some 0x525A1E00#32 := by decide

/-! ### GF(256) (95_test_vectors.md 2.1) -/

theorem test_gf_mul : readAfter 0x100053CA#32 1#3 .reset = some 0x8F#32 ∧ readAfter 0x10000005#32 1#3 .reset = some 0#32 := by decide

theorem test_gmul_table :
    gmul 0x80#8 0x02#8 = 0x1D#8 ∧ gmul 0xFF#8 0xFF#8 = 0xE2#8 ∧ gmul 0x8E#8 0x02#8 = 0x01#8 ∧ gmul 0x57#8 0x83#8 = 0x31#8 ∧
    gmul 0x01#8 0xAB#8 = 0xAB#8 := by decide

theorem test_gf_div : readAfter 0x1100538F#32 1#3 .reset = some 0x62#32 ∧ readAfter 0x11000053#32 1#3 .reset = some 0#32 := by decide

theorem test_gf_div_zero : readAfter 0x11000500#32 2#3 .reset = some 0x510#32 ∧ readAfter 0x11000500#32 1#3 .reset = some 0#32 := by decide

theorem test_gf_exp : readAfter 0x12000019#32 1#3 .reset = some 3#32 ∧ readAfter 0x120000FE#32 1#3 .reset = some 0x8E#32 ∧
    readAfter 0x120000FF#32 1#3 .reset = some 1#32 := by decide

theorem test_gf_log : readAfter 0x130000FF#32 1#3 .reset = some 0xAF#32 ∧ readAfter 0x13000001#32 1#3 .reset = some 0#32 := by decide

theorem test_gf_log_zero : readAfter 0x13000000#32 2#3 .reset = some 0x510#32 := by decide

/-! ### The RS unit (95_test_vectors.md 2.2) -/

theorem test_rs_start : (after 0x20000004#32 .reset).map (fun t => (List.range 6).map (readG t)) =
    some [0x01#8, 0x0F#8, 0x36#8, 0x78#8, 0x40#8, 0x00#8] ∧ readAfter 0x20000004#32 4#3 active = some 0x00000004#32 := by decide

theorem test_rs_start_too_large : readAfter 0x2000001F#32 2#3 active = some 0x00000411#32 ∧
    readAfter 0x2000001F#32 4#3 active = some 0x00010004#32 := by decide

theorem test_rs_data : (after 0x21000002#32 active).map (fun t => (List.range 5).map (readR t)) =
    some [0x7D#8, 0x3B#8, 0x22#8, 0x67#8, 0x00#8] ∧ readAfter 0x21000007#32 2#3 .reset = some 0x310#32 := by decide

/-- An RS_DATA of degree 0 only counts. -/
theorem test_rs_data_degree_zero : readAfter 0x21000055#32 4#3 activeZero = some 0x00010000#32 ∧
    readAfter 0x21000055#32 2#3 activeZero = some 0x00000001#32 := by decide

theorem test_rs_rdec : readAfter 0x22000003#32 1#3 active = some 0x40#32 ∧ readAfter 0x22000004#32 2#3 active = some 0x411#32 := by decide

theorem test_rs_rdgen : readAfter 0x23000004#32 1#3 active = some 0x40#32 ∧ readAfter 0x23000005#32 2#3 active = some 0x411#32 ∧
    readAfter 0x23000000#32 1#3 activeZero = some 1#32 := by decide

/-! ### The placement unit (95_test_vectors.md 2.3, P2, P3, P5) -/

theorem test_mtx_init : readAfter 0x30000028#32 3#3 finished = some 0x0003B0B0#32 ∧
    readAfter 0x30000028#32 5#3 finished = some 0xB1280000#32 ∧ readAfter 0x30000028#32 2#3 finished = some 0x00000002#32 := by decide

theorem test_mtx_init_range : readAfter 0x30000000#32 2#3 .reset = some 0x410#32 ∧
    readAfter 0x30000029#32 2#3 .reset = some 0x410#32 := by decide

theorem test_mod_rsv : (after 0x31141301#32 built).map (fun t => t.modmem.cells) = some [(439, 0b011#3)] ∧
    readAfter 0x31150000#32 2#3 built = some 0x412#32 := by decide

theorem test_mod_rsv_overwrite : readAfter 0x31000000#32 2#3 stamped = some 0x612#32 ∧
    readAfter 0x31000001#32 2#3 stamped = some 0x612#32 ∧ readAfter 0x31FF0000#32 2#3 (nearEnd .fatal 17#8 true) = some 0x314#32 := by decide

theorem test_mod_rd : readAfter 0x32000200#32 1#3 stamped = some 3#32 ∧ readAfter 0x32001500#32 2#3 built = some 0x412#32 ∧
    readAfter 0x32150000#32 2#3 .reset = some 0x310#32 := by decide

/-- P2: the stamped cells (20, 19) and (18, 20) are passed over, MSB first. -/
theorem test_pl_data : readAfter 0x330000A5#32 3#3 skipping = some 0x00030F14#32 ∧
    readAfter 0x330000A5#32 5#3 skipping = some 0x15010008#32 ∧
    (after 0x330000A5#32 skipping).map (fun t => [(20, 20), (19, 20), (19, 19), (18, 19), (17, 20), (17, 19), (16, 20), (16, 19),
      (20, 19)].map fun p => t.modmem.get (p.1 * 21 + p.2)) =
    some [0b101#3, 0b100#3, 0b101#3, 0b100#3, 0b100#3, 0b101#3, 0b100#3, 0b101#3, 0b011#3] := by decide

/-- 2.3: the 53rd codeword of an empty version-1 grid places four bits and overruns. -/
theorem test_pl_data_overruns :
    (after 0x330000FF#32 { nearEnd .fatal 19#8 true with plCnt := 0x1A0#16 }).map (fun t =>
      [readPort t 2#3, readPort t 3#3, readPort t 5#3, readPort t 6#3]) =
    some [0x71C#32, 0x00041400#32, 0x150101A4#32, 0x330000FF#32] := by decide

/-- P3: PL_FINISH under Fatal stops on the start cell. -/
theorem test_pl_finish_underruns : (after 0x34000000#32 built).map (fun t =>
      [readPort t 2#3, readPort t 3#3, readPort t 5#3, readPort t 6#3]) =
    some [0x812#32, 0x00031414#32, 0x15010000#32, 0x34000000#32] := by decide

/-- P5, last variants: under ZeroFill the cells left over become Data(light) and PLCNT does not count them. -/
theorem test_pl_finish_zero_fills : (after 0x34000000#32 { nearEnd .zeroFill 17#8 true with plCnt := 0xC8#16 }).map (fun t =>
      ([readPort t 2#3, readPort t 3#3, readPort t 5#3], t.modmem.get (17 * 21), t.modmem.get (20 * 21), t.modmem.get (16 * 21))) =
    some ([0xE#32, 0x00041400#32, 0x150100C8#32], 0b100#3, 0b100#3, 0b000#3) := by decide

/-! ### Legal states -/

/-- Stamped modules are no Data modules. -/
theorem stamped_not_data {cells : List (Nat × ModCode)} (h : ∀ p ∈ cells, p.2 = 0b010#3 ∨ p.2 = 0b011#3) (idx : Nat) :
    moduleKind ((cellAt cells idx).getD 0#3) ≠ 2#2 := by
  induction cells with
  | nil => simp [cellAt, moduleKind]
  | cons p cells ih =>
    simp only [cellAt]
    split
    · rcases h p (by simp) with e | e <;> rw [e] <;> decide
    · exact ih fun q hq => h q (by simp [hq])

@[simp] theorem matrix_size (policy : Policy) (phase : Phase) (c : Cursor) (cells : List (Nat × ModCode)) :
    (matrix policy phase c cells).size = 21 := rfl

/-- A version-1 matrix in BUILD or PLACE is a legal state. -/
theorem matrix_inv {policy : Policy} {phase : Phase} {c : Cursor} {cells : List (Nat × ModCode)}
    (hp : phase = .build ∧ c = cursorStart 21 ∨ phase = .place) (hc : c.onPath 21) (hl : cellsLeft 21 c ≤ 420)
    (hw : ModMem.wf { fill := .unset, cells := cells })
    (hm : ∀ p ∈ cells, p.1 < 441 ∧ (p.2 = 0b010#3 ∨ p.2 = 0b011#3)) : (matrix policy phase c cells).Inv where
  params_legal := rfl
  unlocked_clear := fun _ => ⟨rfl, rfl⟩
  locked_code := fun h => absurd h (by simp [matrix, State.reset])
  rsN_le := Nat.zero_le _
  rs_inactive := fun _ => ⟨rfl, rfl⟩
  g_generator := fun h => absurd h (by simp [matrix, State.reset])
  r_tail_zero := fun h => absurd h (by simp [matrix, State.reset])
  idle_iff := by rcases hp with ⟨rfl, _⟩ | rfl <;> simp [matrix]
  ver_le := by simp [matrix]
  idle_zero := fun h => by rcases hp with ⟨rfl, _⟩ | rfl <;> simp [matrix] at h
  on_path := fun _ => by rw [matrix_size]; exact hc
  finished_done := fun h => by rcases hp with ⟨rfl, _⟩ | rfl <;> simp [matrix] at h
  build_empty := fun _ => ⟨rfl, stamped_not_data fun p hp => (hm p hp).2⟩
  build_start := fun h _ => by rcases hp with ⟨_, rfl⟩ | rfl; · rw [matrix_size]; rfl
                               · simp [matrix] at h
  count_le := fun _ => by
    rw [matrix_size, show (matrix policy phase c cells).plCnt = 0#16 from rfl,
      show (matrix policy phase c cells).cursor = c from rfl]
    simpa using hl
  mem_wf := hw
  mem_legal := fun _ => ⟨rfl, fun p hp => by rw [matrix_size]; exact ⟨(hm p hp).1, by rcases (hm p hp).2 with e | e <;> simp [e, legalCodes]⟩⟩

/-- The states of the tests are legal. -/
theorem built_inv : built.Inv := matrix_inv (.inl ⟨rfl, rfl⟩) (by decide) (by decide) (by decide) (by decide)
theorem stamped_inv : stamped.Inv := matrix_inv (.inl ⟨rfl, rfl⟩) (by decide) (by decide) (by decide) (by decide)
theorem walked_inv : walked.Inv := matrix_inv (.inr rfl) (by decide) (by decide) (by decide) (by decide)
/-- So is one whose cursor is in the last column pair. -/
theorem nearEnd_inv (policy : Policy) {row : Byte} {right : Bool} (h : (lastPair row right).onPath 21)
    (hl : cellsLeft 21 (lastPair row right) ≤ 420) : (nearEnd policy row right).Inv :=
  matrix_inv (.inr rfl) h hl (by decide) (by decide)

/-- A transaction put before the others changes nothing a legal state is about. -/
theorem presented_inv {s : State} (e : HostEvent) (h : s.Inv) : (presentFirst e s).Inv :=
  { h with }

/-! ### Witnesses: concrete states and operands that meet the hypotheses of the statements, at the ends of their ranges -/

theorem test_witness_EncodeOfDecode : decode 0x31141301#32 = .ok (.modRsv 20#8 19#8 true) := by decide

theorem test_witness_WordIsCommandWhenMaskMatches :
    opcodeMap.length = 15 ∧ (∀ row ∈ opcodeMap, row.pattern &&& row.mask = row.pattern) ∧
    ∀ row ∈ opcodeMap, (row.pattern ||| ~~~row.mask) &&& row.mask = row.pattern := by decide

theorem test_witness_IllegalOpcodesRaise :
    State.reset.fault = false ∧
    (∀ op ∈ [0x02#8, 0x0F#8, 0x14#8, 0x1F#8, 0x24#8, 0x2F#8, 0x35#8, 0xFF#8],
      decode (op ++ 0#24) = .error .illegalOpcode) ∧
    ∀ op ∈ [0x00#8, 0x01#8, 0x10#8, 0x13#8, 0x20#8, 0x23#8, 0x30#8, 0x34#8], decode (op ++ 0#24) ≠ .error .illegalOpcode := by
  decide

theorem test_witness_ReservedBitsRaise :
    State.reset.fault = false ∧ ∃ row ∈ opcodeMap,
      0x31000002#32 >>> 24 = row.pattern >>> 24 ∧ 0x31000002#32 &&& row.mask ≠ row.pattern := by decide

theorem test_witness_StepRunsTheDecodedCommand :
    (built.withFetchWord 32 0x330000FF).host = .write 0#3 0x330000FF#32 :: [] ∧
    decode 0x330000FF#32 = .ok (.plData 0xFF#8) := by decide

theorem test_witness_LockedBlockIgnoresCommands :
    (presentFirst (.write 0#3 0x01000001#32) locked).fault = true ∧ 0x01000001#32 ≠ 0x01000000#32 ∧
    (presentFirst (.write 0#3 0x01000001#32) locked).host = .write 0#3 0x01000001#32 :: [] ∧
    (presentFirst (.read 2#3) locked).host = .read 2#3 :: [] := by decide

theorem test_witness_OnlyResetUnlocks :
    (∃ t, (presentFirst (.write 0#3 0x01000000#32) locked).fault = true ∧
      step (presentFirst (.write 0#3 0x01000000#32) locked) = .next t ∧ t.fault = false) ∧
    (∃ t, step (presentFirst (.resetLow none) locked) = .next t ∧ t.fault = false) ∧
    ∃ t, step (presentFirst (.write 0#3 0x00000000#32) locked) = .next t ∧ t.fault = true :=
  ⟨⟨_, rfl, rfl, rfl⟩, ⟨_, rfl, rfl⟩, ⟨_, rfl, rfl⟩⟩

theorem test_witness_PortAccessRules :
    (∀ a ∈ [0#3, 1#3, 2#3, 3#3, 4#3, 5#3, 6#3, 7#3], (presentFirst (.read a) active).host = .read a :: []) ∧
    (presentFirst (.write 0#3 0#32) active).host = .write 0#3 0#32 :: [] ∧
    (presentFirst (.write 1#3 0#32) active).host = .write 1#3 0#32 :: [] ∧ (1#3 : PortAddr) ≠ 0#3 := by decide

theorem test_witness_StatusFields : (presentFirst (.write 2#3 0xFFFFFFFF#32) active).host = .write 2#3 0xFFFFFFFF#32 :: [] := rfl

theorem test_witness_InfoRegisterFields :
    (∀ a ∈ [3#3, 4#3, 5#3], (presentFirst (.write a 0#32) active).host = .write a 0#32 :: []) ∧
    State.reset.ver.toNat ≤ 40 ∧ (State.ver { built with ver := 40#8 }).toNat ≤ 40 := by decide

theorem test_witness_IdNeverChanges : ∃ t, step (presentFirst (.write 0#3 0x01000000#32) active) = .next t := ⟨_, rfl⟩

theorem test_witness_IdleStepHoldsTheState : active.host = [] := rfl

theorem test_witness_RegistersReadAfterReset : (0#3 : PortAddr) ≠ 7#3 ∧ (6#3 : PortAddr) ≠ 7#3 := by decide

theorem test_witness_OtherFaultsArePrecise : State.reset.fault = false ∧
    ∃ t, exec (.rsData 7#8) .reset = .next t ∧ t.fault = true ∧ t.fcode ≠ 7#4 ∧ t.fcode ≠ 8#4 := ⟨rfl, _, rfl, by decide⟩

theorem test_witness_FaultsAreRecorded :
    (State.reset.fault = false ∧ ∃ t, exec (.rsData 7#8) .reset = .next t ∧ t.fault = true ∧ t.fcode = 3#4) ∧
    (built.fault = false ∧ ∃ t, exec .plFinish built = .next t ∧ t.fault = true ∧ t.fcode = 8#4) :=
  ⟨⟨rfl, _, rfl, by decide⟩, ⟨rfl, _, rfl, by decide⟩⟩

theorem test_witness_GfDomainIsLogOfZero : State.reset.fault = false ∧
    (∃ t, exec (.gfLog 0#8) .reset = .next t ∧ t.fcode = 5#4 ∧ t.fault = true) ∧
    ∃ t, exec (.gfDiv 5#8 0#8) .reset = .next t ∧ t.fcode = 5#4 ∧ t.fault = true :=
  ⟨rfl, ⟨_, rfl, by decide⟩, ⟨_, rfl, by decide⟩⟩

theorem test_witness_ExpTableFollowsItsRule :
    253 < 254 ∧ 254 < 255 ∧ gfExp 254 = gfExp 254 ∧ 0x01#8 ≠ 0#8 ∧ 0xFF#8 ≠ 0#8 := by decide

theorem test_witness_LogTableInvertsExp : 0 < 255 ∧ 254 < 255 := by decide

theorem test_witness_DivisionUndoesMultiplication : 0x01#8 ≠ 0#8 ∧ 0xFF#8 ≠ 0#8 := by decide

theorem test_witness_FieldLaws : 0x01#8 ≠ 0#8 ∧ 0x8E#8 ≠ 0#8 := by decide

theorem test_witness_GfCommandsComplete : State.reset.fault = false ∧ active.fault = false ∧ 0x01#8 ≠ 0#8 ∧ 0xFF#8 ≠ 0#8 := by
  decide

theorem test_witness_PrintedGenerators : 0 ≤ 30 ∧ 30 ≤ 30 := by decide

theorem test_witness_GeneratorIsMonicWithItsRoots : 255 ≤ 255 ∧ 254 < 255 := by decide

theorem test_witness_RsStartCompletes : active.fault = false ∧ (30#8).toNat ≤ active.params.ecMax.toNat ∧
    (0#8).toNat ≤ active.params.ecMax.toNat ∧ (0 ≤ (0#8).toNat ∧ (0#8).toNat < 1 ∧ 1 ≤ active.params.ecMax.toNat) ∧
    29 < active.params.ecMax.toNat := by decide

theorem test_witness_RsDataCompletes : (∀ s ∈ [active, activeZero, activeMax],
      s.fault = false ∧ s.rsActive = true ∧ s.rsN.toNat ≤ s.params.ecMax.toNat) ∧
    2 + 1 < active.rsN.toNat ∧ 3 + 1 = active.rsN.toNat ∧ 29 + 1 = activeMax.rsN.toNat ∧
    (active.rsN.toNat ≤ 4 ∧ 29 < active.params.ecMax.toNat) ∧ activeZero.rsN.toNat ≤ 0 := by
  refine ⟨fun s h => ?_, by decide⟩
  simp only [List.mem_cons, List.not_mem_nil, or_false] at h
  rcases h with rfl | rfl | rfl <;> exact ⟨rfl, rfl, by simp [active, activeZero, activeMax, State.reset, Params.rszp1]⟩

theorem test_witness_RsReadsComplete : active.fault = false ∧ active.rsActive = true ∧ (3#8).toNat < active.rsN.toNat ∧
    (4#8).toNat ≤ active.rsN.toNat ∧ activeZero.fault = false ∧ activeZero.rsActive = true ∧
    (0#8).toNat ≤ activeZero.rsN.toNat := by decide

theorem test_witness_RsUnitFaults : State.reset.fault = false ∧ active.fault = false ∧
    active.params.ecMax.toNat < (31#8).toNat ∧ State.reset.rsActive = false ∧ active.rsActive = true ∧
    active.rsN.toNat ≤ (4#8).toNat ∧ active.rsN.toNat < (5#8).toNat := by decide

theorem test_witness_OnlyResetClearsRsActive :
    (∃ t, step (presentFirst (.write 0#3 0x01000000#32) active) = .next t ∧ active.rsActive = true ∧ t.rsActive = false) ∧
    (∃ t, step (presentFirst (.resetLow none) active) = .next t ∧ t.rsActive = false) ∧
    ∃ t, step (presentFirst (.write 0#3 0x20000002#32) .reset) = .next t ∧ State.reset.rsActive = false ∧ t.rsActive = true :=
  ⟨⟨_, rfl, rfl, rfl⟩, ⟨_, rfl, rfl⟩, ⟨_, rfl, rfl, rfl⟩⟩

/-- The premises of RemainderIsTheLongDivision and CodewordLeavesZeroRemainder, at both ends of n. -/
theorem test_witness_RemainderIsTheLongDivision : State.reset.fault = false ∧ active.fault = false ∧
    (0#8).toNat ≤ State.reset.params.ecMax.toNat ∧ (30#8).toNat ≤ active.params.ecMax.toNat := by decide

theorem test_witness_CodewordLeavesZeroRemainder : active.fault = false ∧ (4#8).toNat ≤ active.params.ecMax.toNat ∧
    ecCodewords [0x01#8, 0x02#8, 0x03#8, 0x04#8] (4#8).toNat = [0x75#8, 0xA3#8, 0xB2#8, 0x60#8] := by decide

/-- With the values of 95_test_vectors.md 2.2, linearity check. -/
theorem test_witness_EcCodewordsAreLinear : [0x12#8, 0x34#8, 0x56#8].length = [0x9A#8, 0xBC#8, 0xDE#8].length ∧
    ecCodewords [0x88#8, 0x88#8, 0x88#8] 5 = [0x48#8, 0x43#8, 0x30#8, 0x65#8, 0xD6#8] := by decide

theorem test_witness_MtxInitCompletes : finished.fault = false ∧ 1 ≤ (1#8).toNat ∧ (1#8).toNat ≤ 40 ∧
    1 ≤ (40#8).toNat ∧ (40#8).toNat ≤ 40 := by decide

theorem test_witness_ModRsvCompletes : stamped.fault = false ∧ stamped.phase = .build ∧ stamped.ver.toNat ≤ 40 ∧
    (20#8).toNat < stamped.size ∧ moduleKind (stamped.modmem.get ((20#8).toNat * stamped.size + (20#8).toNat)) = 0#2 ∧
    moduleKind (stamped.modmem.get ((0#8).toNat * stamped.size + (4#8).toNat)) = 0#2 := by decide

theorem test_witness_ModRdCompletes : finished.fault = false ∧ finished.phase ≠ .idle ∧ finished.ver.toNat ≤ 40 ∧
    (20#8).toNat < finished.size := by decide

theorem test_witness_PlacerFaults :
    (∀ s ∈ [State.reset, stamped, walked, finished], s.fault = false ∧ s.ver.toNat ≤ 40) ∧
    (0#8).toNat < 1 ∧ 40 < (41#8).toNat ∧ walked.phase ≠ .build ∧ stamped.size ≤ (21#8).toNat ∧
    moduleKind (stamped.modmem.get ((0#8).toNat * stamped.size + (3#8).toNat)) ≠ 0#2 ∧
    State.reset.phase = .idle ∧ State.reset.size ≤ (0#8).toNat ∧ finished.phase = .finished := by decide

theorem test_witness_PathVisitsEveryCellOnce : 1 ≤ 1 ∧ 40 ≤ 40 ∧ 418 < 419 ∧
    (pathFrom 21 (cursorStart 21))[418]? = some (lastPair 20#8 true) ∧
    (pathFrom 21 (cursorStart 21))[419]? = some (lastPair 20#8 false) ∧
    (pathFrom 21 (cursorStart 21)).getLast? = some (lastPair 20#8 false) := by decide +kernel

theorem test_witness_PlDataCompletes : (nearEnd .fatal 17#8 true).Inv ∧ (nearEnd .fatal 17#8 true).fault = false ∧
    (nearEnd .fatal 17#8 true).phase = .place ∧ 8 ≤ (unsetAhead (nearEnd .fatal 17#8 true)).length ∧
    (unsetAhead (nearEnd .fatal 17#8 true))[7]? = some (lastPair 20#8 false) ∧
    built.Inv ∧ built.fault = false ∧ built.phase = .build ∧ 8 ≤ (unsetAhead built).length :=
  ⟨nearEnd_inv _ (by decide) (by decide), rfl, rfl, by decide, by decide, built_inv, rfl, rfl, by decide +kernel⟩

theorem test_witness_PlDataOverruns : (nearEnd .fatal 17#8 false).Inv ∧ (nearEnd .fatal 17#8 false).fault = false ∧
    (nearEnd .fatal 17#8 false).phase = .place ∧ (unsetAhead (nearEnd .fatal 17#8 false)).length = 7 ∧
    (unsetAhead (nearEnd .fatal 17#8 false))[6]? = some (lastPair 20#8 false) ∧
    walked.Inv ∧ walked.fault = false ∧ walked.phase = .place ∧ (unsetAhead walked).length = 0 :=
  ⟨nearEnd_inv _ (by decide) (by decide), rfl, rfl, by decide, by decide, walked_inv, rfl, rfl, by decide⟩

theorem test_witness_PlFinishCompletes : walked.Inv ∧ walked.fault = false ∧ walked.phase = .place ∧ unsetAhead walked = [] :=
  ⟨walked_inv, rfl, rfl, by decide⟩

theorem test_witness_PlFinishZeroFills : (nearEnd .zeroFill 20#8 true).Inv ∧ (nearEnd .zeroFill 20#8 true).fault = false ∧
    (nearEnd .zeroFill 20#8 true).phase = .place ∧ (nearEnd .zeroFill 20#8 true).params.policy = .zeroFill ∧
    unsetAhead (nearEnd .zeroFill 20#8 true) = [lastPair 20#8 true, lastPair 20#8 false] :=
  ⟨nearEnd_inv _ (by decide) (by decide), rfl, rfl, rfl, by decide⟩

theorem test_witness_PlFinishUnderruns : (nearEnd .fatal 20#8 false).Inv ∧ (nearEnd .fatal 20#8 false).fault = false ∧
    (nearEnd .fatal 20#8 false).phase = .place ∧ (nearEnd .fatal 20#8 false).params.policy = .fatal ∧
    (unsetAhead (nearEnd .fatal 20#8 false)).head? = some (lastPair 20#8 false) ∧
    built.Inv ∧ built.phase = .build ∧ (unsetAhead built).head? = some (cursorStart 21) :=
  ⟨nearEnd_inv _ (by decide) (by decide), rfl, rfl, rfl, by decide, built_inv, rfl, by decide +kernel⟩

theorem test_witness_BitOrderOnTheGrid : stamped.Inv ∧ stamped.fault = false ∧ stamped.phase = .build ∧
    8 * (List.replicate 52 0xA5#8).length ≤ (unsetAhead stamped).length ∧
    (List.replicate 52 0xA5#8)[51]? = some 0xA5#8 ∧ ((unsetAhead stamped)[8 * 51 + 7 - 0]?).isSome = true :=
  ⟨stamped_inv, rfl, rfl, by decide +kernel, by decide, by decide +kernel⟩

/-- 416 cells are Unset: 51 codewords are too few, 52 fit, 53 are too many. -/
theorem test_witness_StreamFitsExactly : stamped.Inv ∧ stamped.fault = false ∧ stamped.phase = .build ∧
    stamped.params.policy = .fatal ∧ 8 * (List.replicate 51 0#8).length < (unsetAhead stamped).length ∧
    8 * (List.replicate 52 0#8).length = (unsetAhead stamped).length ∧
    (unsetAhead stamped).length < 8 * (List.replicate 53 0#8).length ∧
    (List.replicate 53 0#8)[(unsetAhead stamped).length / 8]? = some 0#8 :=
  ⟨stamped_inv, rfl, rfl, rfl, by decide +kernel, by decide +kernel, by decide +kernel, by decide +kernel⟩

theorem test_witness_SetModulesAreNeverOverwritten :
    (∃ t, exec (.plData 0xFF#8) stamped = .next t) ∧ (∃ t, exec (.modRsv 0#8 0#8 true) stamped = .next t) ∧
    moduleKind (stamped.modmem.get 0) ≠ 0#2 := ⟨⟨_, rfl⟩, ⟨_, rfl⟩, by decide⟩

theorem test_witness_OnlyProducersWriteResult :
    ∃ t, exec (.gfExp 0#8) .reset = .next t ∧ t.result ≠ State.reset.result := ⟨_, rfl, by decide⟩

theorem test_witness_RsUnitIgnoresPlacer : ∃ t, exec (.rsData 2#8) active = .next t := ⟨_, rfl⟩

theorem test_witness_PlacerIgnoresRsUnit : ∃ t, exec (.plData 2#8) stamped = .next t := ⟨_, rfl⟩

theorem test_witness_UnspecifiedContentsAreNeverRead :
    sameButUnspecified (presentFirst (.write 0#3 0x20000002#32) .reset)
      { presentFirst (.write 0#3 0x20000002#32) .reset with
        g := .unspecified 7, r := .unspecified 8, modmem := { fill := .unspecified 9, cells := [] } } ∧
    ∃ t, step (presentFirst (.write 0#3 0x20000002#32) .reset) = .next t := ⟨by decide, _, rfl⟩

/-- The premises of StepKeepsLegalStates and LegalStatesNeverStop. -/
theorem test_witness_StepKeepsLegalStates : (presentFirst (.write 0#3 0x330000FF#32) stamped).Inv ∧
    ∃ t, step (presentFirst (.write 0#3 0x330000FF#32) stamped) = .next t := ⟨presented_inv _ stamped_inv, _, rfl⟩

theorem test_witness_LegalStatesNeverStop : (presentFirst (.outside .secondMaster) stamped).Inv ∧ walked.Inv :=
  ⟨presented_inv _ stamped_inv, walked_inv⟩

theorem test_witness_StepKeepsCanonicalMemory : (presentFirst (.write 0#3 0x330000FF#32) stamped).modmem.wf ∧
    ∃ t, step (presentFirst (.write 0#3 0x330000FF#32) stamped) = .next t := ⟨by decide, _, rfl⟩

theorem test_witness_PlacedCountNeverWraps : built.Inv ∧ built.fault = false ∧
    ∃ t, exec (.plData 0#8) built = .next t := ⟨built_inv, rfl, _, rfl⟩

end Sys2Proof.Tests
end

section
/-! SUPPORT. Decoding is strict: a word that decodes is the word of its command (30_encoding.md R55, R56). -/

namespace Sys2Proof

/-- A field taken out of a word and put back where it stood is the word under the field's mask. -/
theorem fieldAt_extract (w : Word) (k n : Nat) : fieldAt k (w.extractLsb' k n) = w &&& fieldAt k (BitVec.allOnes n) := by
  ext i hi
  simp only [← BitVec.getLsbD_eq_getElem, BitVec.getLsbD_and, getLsbD_fieldAt, BitVec.getLsbD_extractLsb',
    BitVec.getLsbD_allOnes, hi, decide_true, Bool.true_and]
  by_cases hk : k ≤ i
  · simp [hk, Nat.add_sub_cancel' hk, Bool.and_comm]
  · simp [hk]

theorem ofBool_darkField (w : Word) : BitVec.ofBool (darkField w) = w.extractLsb' 0 1 := by
  ext i hi
  obtain rfl : i = 0 := by omega
  simp [darkField]

/-- A word that is one opcode under the mask of format B is the word of its fields (R52). -/
theorem formatB_of_masked {w : Word} {op : Byte} (h : w &&& 0xFFFFFF00#32 = formatZ op) :
    formatB op (imm8Field w) = w := by
  rw [formatB, ← formatZ, ← h, imm8Field, fieldAt_extract, ← BitVec.and_or_distrib_left]
  exact BitVec.and_allOnes

/-- The same for format P. -/
theorem formatP_of_masked {w : Word} {op : Byte} (h : w &&& 0xFFFF0000#32 = formatZ op) :
    formatP op (aField w) (bField w) = w := by
  rw [formatP, ← formatZ, ← h, aField, bField, fieldAt_extract, fieldAt_extract, ← BitVec.and_or_distrib_left,
    ← BitVec.and_or_distrib_left]
  exact BitVec.and_allOnes

/-- The same for format C. -/
theorem formatC_of_masked {w : Word} {op : Byte} (h : w &&& 0xFF0000FF#32 = formatZ op) :
    formatC op (rowField w) (colField w) = w := by
  rw [formatC, ← formatZ, ← h, rowField, colField, fieldAt_extract, fieldAt_extract, ← BitVec.and_or_distrib_left,
    ← BitVec.and_or_distrib_left]
  exact BitVec.and_allOnes

/-- The same for format D. -/
theorem formatD_of_masked {w : Word} {op : Byte} (h : w &&& 0xFF0000FE#32 = formatZ op) :
    formatD op (rowField w) (colField w) (darkField w) = w := by
  rw [formatD, ← formatZ, ← h, rowField, colField, ofBool_darkField, fieldAt_extract, fieldAt_extract, fieldAt_extract,
    ← BitVec.and_or_distrib_left, ← BitVec.and_or_distrib_left, ← BitVec.and_or_distrib_left]
  exact BitVec.and_allOnes

/-- The same for format Z, which has no fields. -/
theorem formatZ_of_masked {w : Word} {op : Byte} (h : w &&& 0xFFFFFFFF#32 = formatZ op) : formatZ op = w := by
  rw [← h]; exact BitVec.and_allOnes

/-- What a row of the opcode map builds from a word of its pattern encodes to that word (R53). -/
theorem encode_build {w : Word} : ∀ row ∈ opcodeMap, w &&& row.mask = row.pattern → encode (row.build w) = w := by
  simp only [opcodeMap, controlRows, gfRows, rsRows, placerRows, List.cons_append, List.nil_append, List.forall_mem_cons]
  exact ⟨formatZ_of_masked (op := 0x00#8), formatZ_of_masked (op := 0x01#8), formatP_of_masked (op := 0x10#8),
    formatP_of_masked (op := 0x11#8), formatB_of_masked (op := 0x12#8), formatB_of_masked (op := 0x13#8),
    formatB_of_masked (op := 0x20#8), formatB_of_masked (op := 0x21#8), formatB_of_masked (op := 0x22#8),
    formatB_of_masked (op := 0x23#8), formatB_of_masked (op := 0x30#8), formatD_of_masked (op := 0x31#8),
    formatC_of_masked (op := 0x32#8), formatB_of_masked (op := 0x33#8), formatZ_of_masked (op := 0x34#8),
    List.forall_mem_nil _⟩

/-- A word that decodes is built by a row of the opcode map whose pattern it meets (R56). -/
theorem decode_eq_ok {w : Word} {i : Instr} (h : decode w = .ok i) :
    ∃ row ∈ opcodeMap, w &&& row.mask = row.pattern ∧ row.build w = i := by
  unfold decode at h
  split at h
  next => cases h
  next row hrow =>
    split at h
    next hm => exact ⟨row, List.mem_of_find?_eq_some hrow, hm, by simpa using h⟩
    next => cases h

/-- A word that decodes is the word of its command (R55, R56). -/
theorem encode_of_decode {w : Word} {i : Instr} (h : decode w = .ok i) : encode i = w := by
  obtain ⟨row, hrow, hm, rfl⟩ := decode_eq_ok h
  exact encode_build row hrow hm

end Sys2Proof
end

section
/-! SUPPORT. What one step can do: the three kinds of port event, and the issue of a word (20_memory.md R46 to R48;
43_control.md R150). -/

namespace Sys2Proof.Machine

/-- A write to a register other than CMD is acknowledged and does nothing else (20_memory.md R47). -/
theorem step_write_other {s : State} {a : PortAddr} {w : Word} {rest : List HostEvent} (h : s.host = .write a w :: rest)
    (ha : a ≠ 0#3) : step s = .next { s with host := rest, reply := .acked } := by
  simp [step, h, portEvent, writePort, ha]

/-- Everything a step that answers a next state can have been: a transaction that issues nothing, rst_n low, or a word written
to CMD and issued. -/
theorem step_eq_next {s t : State} (h : step s = .next t) :
    (∃ rest rep, t = { s with host := rest, reply := rep }) ∨
    (∃ rest cut, s.host = .resetLow cut :: rest ∧ t = { resetState s with host := rest, reply := .none }) ∨
    (∃ rest w, s.host = .write 0#3 w :: rest ∧ issue w { s with host := rest, reply := .acked } = .next t) := by
  cases hh : s.host with
  | nil =>
    simp only [step, hh, Host.Outcome.next.injEq] at h
    exact .inl ⟨s.host, .none, h.symm⟩
  | cons e rest =>
    simp only [step, hh] at h
    cases e with
    | read a => exact .inl ⟨rest, _, (Host.Outcome.next.inj h).symm⟩
    | write a w =>
      simp only [portEvent, writePort] at h
      split at h
      next ha => exact .inr (.inr ⟨rest, w, by rw [ha], h⟩)
      next => exact .inl ⟨rest, _, (Host.Outcome.next.inj h).symm⟩
    | resetLow cut => exact .inr (.inl ⟨rest, cut, rfl, (Host.Outcome.next.inj h).symm⟩)
    | outside v => simp [portEvent] at h

/-- Everything an issued word can do: it resets, it is another command and runs it, or it is no command and is ignored
(43_control.md R151) or recorded (60_exceptions.md R163). -/
theorem issue_eq_next {w : Word} {s t : State} (h : issue w s = .next t) :
    (w = encode .reset ∧ t = resetState s) ∨ (∃ i, i ≠ .reset ∧ w = encode i ∧ exec i s = .next t) ∨
    t = s ∨ ∃ c, t = recordFault c w s := by
  unfold issue at h
  split at h
  next i hi =>
    have hw : w = encode i := (encode_of_decode hi).symm
    by_cases hr : i = .reset
    · subst hr
      exact .inl ⟨hw, (Host.Outcome.next.inj h).symm⟩
    · exact .inr (.inl ⟨i, hr, hw, h⟩)
  next e _ =>
    rw [rejectWord_eq] at h
    have ht := (Host.Outcome.next.inj h).symm
    split at ht
    · exact .inr (.inr (.inl ht))
    · exact .inr (.inr (.inr ⟨_, ht⟩))

/-- A property of states is kept by every step when the port, reset, the rejection of a word and every command but RESET
keep it. -/
theorem step_keeps {P : State → Prop}
    (port : ∀ s rest rep, P s → P { s with host := rest, reply := rep })
    (reset : ∀ s, P s → P (resetState s))
    (reject : ∀ s c w, P s → P (recordFault c w s))
    (exec_keeps : ∀ i s t, i ≠ .reset → exec i s = .next t → P s → P t)
    {s t : State} (h : step s = .next t) (hs : P s) : P t := by
  obtain ⟨rest, rep, rfl⟩ | ⟨rest, cut, -, rfl⟩ | ⟨rest, w, -, h⟩ := step_eq_next h
  · exact port s rest rep hs
  · exact port _ rest .none (reset s hs)
  · have hp := port s rest .acked hs
    obtain ⟨-, rfl⟩ | ⟨i, hi, -, h⟩ | rfl | ⟨c, rfl⟩ := issue_eq_next h
    · exact reset _ hp
    · exact exec_keeps i _ t hi h hp
    · exact hp
    · exact reject _ c w hp

end Sys2Proof.Machine
end

section
/-! SUPPORT. How a command's pseudocode ends: a predicate on the state it completes in and one on the state it raises in, with a
rule per way of composing pseudocode. -/

namespace Sys2Proof.Machine

/-- A state the pseudocode ends in satisfies `D`, and one it raises in satisfies `R`. -/
def Ran.Ends (D R : State → Prop) : Ran → Prop
  | .done t => D t
  | .raised _ t => R t
  | .halted _ => True

/-- A check (60_exceptions.md R160, R162). -/
theorem ends_raiseIf {p : Prop} [Decidable p] {D R : State → Prop} {c : FaultCode} {k : State → Ran} {s : State}
    (hR : R s) (hk : ¬p → (k s).Ends D R) : (raiseIf p c k s).Ends D R := by
  by_cases hp : p
  · rw [raiseIf_pos hp]; exact hR
  · rw [raiseIf_neg hp]; exact hk hp

/-- A sequence: `M` holds between its parts. -/
theorem ends_andThen {M D R : State → Prop} {x : Ran} {k : State → Ran} (hx : x.Ends M R)
    (hk : ∀ s, M s → (k s).Ends D R) : (x.andThen k).Ends D R := by
  cases x with
  | done s => exact hk s hx
  | raised c s => exact hx
  | halted f => trivial

theorem Ran.Ends.mono {D R D' R' : State → Prop} {x : Ran} (hx : x.Ends D R) (hD : ∀ s, D s → D' s)
    (hR : ∀ s, R s → R' s) : x.Ends D' R' := by
  cases x with
  | done s => exact hD s hx
  | raised c s => exact hR s hx
  | halted f => trivial

/-- What a command can do, from how its pseudocode ends in an unlocked block (43_control.md R150, R151). -/
theorem command_ends {i : Instr} {body : State → Ran} {D R : State → Prop} {s t : State}
    (h : command i body s = .next t) (hb : s.fault = false → (body s).Ends D R) :
    (s.fault = true ∧ t = s) ∨ (s.fault = false ∧ D t) ∨
    (s.fault = false ∧ ∃ c u, R u ∧ t = recordFault c (encode i) u) := by
  obtain hl | ⟨hf, hd⟩ | ⟨hf, c, u, hr, ht⟩ := command_eq_next h
  · exact .inl hl
  · have := hb hf
    rw [hd] at this
    exact .inr (.inl ⟨hf, this⟩)
  · have := hb hf
    rw [hr] at this
    exact .inr (.inr ⟨hf, c, u, this, ht⟩)

end Sys2Proof.Machine
end

section
/-! SUPPORT. What each command changes, from any state: the placement commands the placement unit alone, the RS unit's commands
that unit alone, the seven producers RESULT alone (43_control.md R150; 10_state.md R23). -/

namespace Sys2Proof.Machine

/-- Nothing outside the placement unit differs (10_state.md R26, R37 to R39; 20_memory.md R41). -/
def PlacerOnly (s t : State) : Prop :=
  t = { s with phase := t.phase, ver := t.ver, cursor := t.cursor, plCnt := t.plCnt, modmem := t.modmem }

theorem PlacerOnly.refl (s : State) : PlacerOnly s s := rfl

theorem PlacerOnly.trans {s t u : State} (h1 : PlacerOnly s t) (h2 : PlacerOnly t u) : PlacerOnly s u :=
  Eq.trans h2 (by rw [show t = _ from h1])

theorem PlacerOnly.params {s t : State} (h : PlacerOnly s t) : t.params = s.params := (congrArg State.params h :)
theorem PlacerOnly.result {s t : State} (h : PlacerOnly s t) : t.result = s.result := (congrArg State.result h :)
theorem PlacerOnly.fault {s t : State} (h : PlacerOnly s t) : t.fault = s.fault := (congrArg State.fault h :)
theorem PlacerOnly.rsActive {s t : State} (h : PlacerOnly s t) : t.rsActive = s.rsActive := (congrArg State.rsActive h :)

/-- Pseudocode that changes the placement unit alone, whether it ends or raises. -/
abbrev PlacesFrom (s : State) (x : Ran) : Prop := x.Ends (PlacerOnly s) (PlacerOnly s)

theorem PlacesFrom.of_placerOnly {s t : State} {x : Ran} (h : PlacerOnly s t) (hx : PlacesFrom t x) : PlacesFrom s x :=
  hx.mono (fun _ => h.trans) (fun _ => h.trans)

theorem placesFrom_andThen {s : State} {x : Ran} {k : State → Ran} (hx : PlacesFrom s x) (hk : ∀ t, PlacesFrom t (k t)) :
    PlacesFrom s (x.andThen k) :=
  ends_andThen hx fun t ht => (hk t).of_placerOnly ht

theorem stepCursor_placerOnly (s : State) : PlacerOnly s (stepCursor s) := rfl

theorem memWrite_placesFrom (idx : Nat) (c : ModCode) (s : State) : PlacesFrom s (memWrite idx c s) := by
  unfold memWrite
  split
  · exact rfl
  · trivial

theorem seekWithin_placesFrom : ∀ (k : Nat) (s : State), PlacesFrom s (seekWithin k s)
  | 0, _ => trivial
  | k + 1, s => by
    unfold seekWithin
    split
    · exact .refl s
    · split
      · trivial
      · split
        · exact .refl s
        · exact (seekWithin_placesFrom k _).of_placerOnly (stepCursor_placerOnly s)

theorem placeBit_placesFrom (b : Bool) (s : State) : PlacesFrom s (placeBit b s) :=
  placesFrom_andThen (seekWithin_placesFrom _ s) fun t =>
    ends_raiseIf (.refl t) fun _ => placesFrom_andThen (memWrite_placesFrom _ _ t) fun _ => rfl

theorem placeBits_placesFrom : ∀ (bs : List Bool) (s : State), PlacesFrom s (placeBits bs s)
  | [], s => .refl s
  | b :: bs, s => placesFrom_andThen (placeBit_placesFrom b s) (placeBits_placesFrom bs)

theorem zeroFillWithin_placesFrom : ∀ (k : Nat) (s : State), PlacesFrom s (zeroFillWithin k s)
  | 0, _ => trivial
  | k + 1, s => placesFrom_andThen (seekWithin_placesFrom _ s) fun t => by
    split
    · exact .refl t
    · exact placesFrom_andThen (memWrite_placesFrom _ _ t) fun u =>
        (zeroFillWithin_placesFrom k _).of_placerOnly (stepCursor_placerOnly u)

theorem finishRemainder_placesFrom (s : State) : PlacesFrom s (finishRemainder s) := by
  unfold finishRemainder
  split
  · exact .refl s
  · split
    · exact .refl s
    · exact zeroFillWithin_placesFrom _ s

end Sys2Proof.Machine

namespace Sys2Proof

/-- The commands that write RESULT when they complete (10_state.md R23). -/
def Instr.producesResult : Instr → Bool
  | .gfMul .. | .gfDiv .. | .gfExp .. | .gfLog .. | .rsRdec .. | .rsRdgen .. | .modRd .. => true
  | _ => false

/-- The seven of them. -/
theorem Instr.eq_of_producesResult {i : Instr} (h : i.producesResult = true) :
    (∃ a b, i = .gfMul a b) ∨ (∃ a b, i = .gfDiv a b) ∨ (∃ e, i = .gfExp e) ∨ (∃ a, i = .gfLog a) ∨
      (∃ k, i = .rsRdec k) ∨ (∃ k, i = .rsRdgen k) ∨ ∃ row col, i = .modRd row col := by
  cases i <;> simp [producesResult] at h ⊢

end Sys2Proof

namespace Sys2Proof.Machine

/-- Everything a command other than RESET can do to the state it is issued in. -/
inductive Effect (i : Instr) (s : State) : State → Prop
  /-- It is ignored by a locked block (43_control.md R151). -/
  | ignored : Effect i s s
  /-- It faults, with placement work done before the fault left standing (60_exceptions.md R160, R164). -/
  | faulted (c : FaultCode) {u : State} (hu : PlacerOnly s u) : Effect i s (recordFault c (encode i) u)
  /-- It writes a value of at most eight bits to RESULT (10_state.md R23). -/
  | produced {n : Nat} (v : BitVec n) (hn : n ≤ 8) (hi : i.producesResult = true) (hf : s.fault = false) :
      Effect i s (setResult v s)
  /-- It starts a block of the RS unit (41_rs_encoder.md R84). -/
  | started (n : Byte) (g r : RegFile) (hi : i = .rsStart n) :
      Effect i s { s with g := g, r := r, rsN := n, rsCnt := 0#16, rsActive := true }
  /-- It takes a codeword into the RS unit (41_rs_encoder.md R85). -/
  | counted (r : RegFile) : Effect i s { s with r := r, rsCnt := s.rsCnt + 1#16 }
  /-- It completes in the placement unit, or is NOP (42_placer.md R135 to R140). -/
  | placed {t : State} (ht : PlacerOnly s t) : Effect i s t

/-- A command has the effect its pseudocode has in an unlocked block (43_control.md R150, R151). -/
theorem command_effect {i : Instr} {body : State → Ran} {s t : State}
    (h : command i body s = .next t) (hb : s.fault = false → (body s).Ends (Effect i s) (PlacerOnly s)) : Effect i s t := by
  obtain ⟨-, rfl⟩ | ⟨-, hd⟩ | ⟨-, c, u, hu, rfl⟩ := command_ends h hb
  · exact .ignored
  · exact hd
  · exact .faulted c hu

/-- Placement pseudocode of a command is an effect on the placement unit. -/
theorem PlacesFrom.effect {i : Instr} {s : State} {x : Ran} (h : PlacesFrom s x) : x.Ends (Effect i s) (PlacerOnly s) :=
  h.mono (fun _ => .placed) fun _ => id

/-- Each command but RESET has one of these effects, from every state. The two GF commands that never fault are unfolded by
hand: their pseudocode is a bare function, which unification does not find. -/
theorem exec_effect {i : Instr} {s t : State} (hi : i ≠ .reset) (h : exec i s = .next t) : Effect i s t := by
  have hs := PlacerOnly.refl s
  cases i with
  | nop => exact command_effect h fun _ => Effect.placed hs
  | reset => exact absurd rfl hi
  | gfMul a b =>
    unfold exec execGfMul at h
    exact command_effect h fun hf => Effect.produced _ (le_refl 8) rfl hf
  | gfDiv a b => exact command_effect h fun hf => ends_raiseIf hs fun _ => Effect.produced _ (le_refl 8) rfl hf
  | gfExp e =>
    unfold exec execGfExp at h
    exact command_effect h fun hf => Effect.produced _ (le_refl 8) rfl hf
  | gfLog a => exact command_effect h fun hf => ends_raiseIf hs fun _ => Effect.produced _ (le_refl 8) rfl hf
  | rsStart n => exact command_effect h fun _ => ends_raiseIf hs fun _ => Effect.started n _ _ rfl
  | rsData d => exact command_effect h fun _ => ends_raiseIf hs fun _ => Effect.counted _
  | rsRdec k =>
    exact command_effect h fun hf => ends_raiseIf hs fun _ => ends_raiseIf hs fun _ => Effect.produced _ (le_refl 8) rfl hf
  | rsRdgen k =>
    exact command_effect h fun hf => ends_raiseIf hs fun _ => ends_raiseIf hs fun _ => Effect.produced _ (le_refl 8) rfl hf
  | mtxInit v => exact command_effect h fun _ => ends_raiseIf hs fun _ => Effect.placed rfl
  | modRsv row col dark =>
    refine command_effect h fun _ => ends_raiseIf hs fun _ => ends_raiseIf hs fun _ => ?_
    dsimp only
    split
    · trivial
    · exact ends_raiseIf hs fun _ => (memWrite_placesFrom _ _ s).effect
  | modRd row col =>
    refine command_effect h fun hf => ends_raiseIf hs fun _ => ends_raiseIf hs fun _ => ?_
    split
    · trivial
    · exact .produced _ (by decide) rfl hf
  | plData d =>
    exact command_effect h fun _ => ends_raiseIf hs fun _ =>
      ((placeBits_placesFrom _ _).of_placerOnly (rfl : PlacerOnly s { s with phase := .place })).effect
  | plFinish =>
    exact command_effect h fun _ => ends_raiseIf hs fun _ => PlacesFrom.effect <|
      placesFrom_andThen (placesFrom_andThen (seekWithin_placesFrom _ s) finishRemainder_placesFrom) fun t =>
        (rfl : PlacerOnly t { t with phase := .finished })

/-- No command changes the parameters (00_scope.md R6, R7). -/
theorem Effect.params {i : Instr} {s t : State} (h : Effect i s t) : t.params = s.params := by
  cases h with
  | faulted c hu => exact hu.params
  | placed ht => exact ht.params
  | ignored | produced | started | counted => rfl

/-- No command but RESET clears RS_ACTIVE, and only RS_START sets it (10_state.md R32). -/
theorem Effect.rsActive {i : Instr} {s t : State} (h : Effect i s t) :
    t.rsActive = s.rsActive ∨ (t.rsActive = true ∧ ∃ n, i = .rsStart n) := by
  cases h with
  | faulted c hu => exact .inl hu.rsActive
  | placed ht => exact .inl ht.rsActive
  | started n g r hi => exact .inr ⟨rfl, n, hi⟩
  | ignored | produced | counted => exact .inl rfl

/-- A command other than RESET leaves RESULT, or is a producer that completes (10_state.md R23). -/
theorem Effect.result {i : Instr} {s t : State} (h : Effect i s t) :
    t.result = s.result ∨
    (s.fault = false ∧ t.fault = false ∧ t.result.toNat < 256 ∧ i.producesResult = true) := by
  cases h with
  | faulted c hu => exact .inl hu.result
  | placed ht => exact .inl ht.result
  | produced v hn hi hf =>
    have hv : v.toNat < 256 := lt_of_lt_of_le v.isLt (Nat.pow_le_pow_right (by decide) hn)
    refine .inr ⟨hf, hf, ?_, hi⟩
    simpa [zext32] using Nat.lt_of_le_of_lt (Nat.mod_le _ _) hv
  | ignored | started | counted => exact .inl rfl

end Sys2Proof.Machine
end

section
/-! SUPPORT. Every command keeps a legal state legal (10_state.md R33 to R39; 20_memory.md R41; 42_placer.md R131, R133). -/

namespace Sys2Proof.Machine

/-- The end of the path is on it (42_placer.md R133). -/
theorem cursorEnd_onPath {size : Nat} (h : legalSize size) : (cursorEnd size).onPath size := by
  have hrow : (BitVec.ofNat 8 (size - 1)).toNat = size - 1 := toNat_ofNat_of_lt (by omega)
  refine ⟨?_, ?_, rfl, fun _ => rfl⟩
  · simp only [cursorEnd, hrow]; omega
  · simp [pairRight, cursorEnd, isPairRight]

@[simp] theorem cellsLeft_cursorEnd (size : Nat) : cellsLeft size (cursorEnd size) = 0 := rfl

/-- What passes the phase check of PL_DATA and PL_FINISH (42_placer.md R138, R140). -/
theorem placing_of_check {s : State} (h : ¬(s.phase ≠ .build ∧ s.phase ≠ .place)) :
    s.phase = .build ∨ s.phase = .place := by
  rwa [not_and_or, not_not, not_not] at h

/-- What PL_FINISH leaves when it completes is legal (42_placer.md R140). -/
theorem inv_finished {s : State} (h : s.Inv) (hp : s.phase ≠ .idle) {m : ModMem} (hwf : m.wf) (hl : m.legal s.size) :
    State.Inv { s with modmem := m, cursor := cursorEnd s.size, phase := .finished } :=
  have hs : legalSize s.size := inv_legalSize h hp
  { h with
    idle_iff := by simpa using fun e => hp (h.idle_iff.2 e)
    idle_zero := by simp
    on_path := fun _ => cursorEnd_onPath hs
    finished_done := fun _ => rfl
    build_empty := by simp
    build_start := by simp
    count_le := fun _ => Nat.le_trans (Nat.add_le_add_left (Nat.zero_le _) _) (h.count_le hp)
    mem_wf := hwf
    mem_legal := fun _ => hl }

/-- What PL_FINISH leaves when it underruns is legal: the cursor has moved on to an Unset cell (60_exceptions.md R164). -/
theorem inv_underrun {s : State} (h : s.Inv) (hp : s.phase = .build ∨ s.phase = .place) {u : Cursor} (hu : u.onPath s.size)
    (hleft : cellsLeft s.size u ≤ cellsLeft s.size s.cursor) (c : FaultCode) (w : Word) :
    (recordFault c w { s with cursor := u }).Inv := by
  obtain ⟨hidle, -⟩ := placing_phase hp
  exact { inv_record h c w with
    idle_zero := fun e => absurd e hidle
    on_path := fun _ => hu
    finished_done := fun e => by rcases hp with hp | hp <;> exact absurd (hp.symm.trans e) (by decide)
    build_start := fun _ e => by simp at e
    count_le := fun _ => Nat.le_trans (Nat.add_le_add_left hleft _) (h.count_le hidle) }

/-- Pseudocode that ends in a legal state, and raises only where the recorded fault leaves one. -/
abbrev Ran.Legal (x : Ran) : Prop := x.Ends State.Inv fun u => ∀ c w, (recordFault c w u).Inv

/-- A command whose pseudocode is legal keeps a legal state legal (43_control.md R150, R151). -/
theorem command_inv {i : Instr} {body : State → Ran} {s t : State} (h : command i body s = .next t) (hs : s.Inv)
    (hb : (body s).Legal) : t.Inv := by
  obtain ⟨-, rfl⟩ | ⟨-, ht⟩ | ⟨-, c, u, hu, rfl⟩ := command_ends h fun _ => hb
  · exact hs
  · exact ht
  · exact hu c _

/-- Placing bits in BUILD or PLACE ends and raises legally (42_placer.md R134, R138). -/
theorem placeBits_legal {s : State} (h : s.Inv) (hp : s.phase = .build ∨ s.phase = .place) (bs : List Bool) :
    (placeBits bs { s with phase := .place }).Legal := by
  obtain ⟨hidle, -⟩ := placing_phase hp
  have hs : legalSize s.size := inv_legalSize h hidle
  obtain ⟨-, t, ht, hpl⟩ | ⟨-, t, ht, hpl, -⟩ := placeBits_spec bs { s with phase := .place } hs (h.on_path hidle)
  · rw [ht]; exact inv_placed h hp hpl
  · rw [ht]; exact inv_record (inv_placed h hp hpl)

/-- PL_FINISH in BUILD or PLACE ends and raises legally (42_placer.md R140). -/
theorem finish_legal {s : State} (h : s.Inv) (hp : s.phase = .build ∨ s.phase = .place) :
    (((seek s).andThen finishRemainder).andThen fun s => .done { s with phase := .finished }).Legal := by
  obtain ⟨hidle, -⟩ := placing_phase hp
  have hs := inv_legalSize h hidle
  obtain ⟨c, hseek, hc, -, hleft, ⟨-, rfl⟩ | ⟨-, -, hnd, -⟩⟩ := seek_spec hs (h.on_path hidle)
  · rw [hseek]
    exact inv_finished h hidle h.mem_wf (h.mem_legal hidle)
  · rw [hseek, andThen_done, finishRemainder, if_neg (by simp [hnd])]
    split
    · exact inv_underrun h hp hc hleft
    · obtain ⟨t, ht, hfill⟩ := zeroFill_spec (s := { s with cursor := c }) hs hc
      rw [ht, andThen_done, hfill.frame]
      exact inv_finished h hidle (hfill.wf h.mem_wf) (hfill.legal (h.mem_legal hidle))

/-- Every command but RESET keeps a legal state legal. -/
theorem exec_inv {i : Instr} {s t : State} (hi : i ≠ .reset) (h : exec i s = .next t) (hs : s.Inv) : t.Inv := by
  have hr := inv_record hs
  cases i with
  | nop => exact command_inv h hs hs
  | reset => exact absurd rfl hi
  | gfMul a b =>
    unfold exec execGfMul at h
    exact command_inv h hs (inv_result hs _)
  | gfDiv a b => exact command_inv h hs (ends_raiseIf hr fun _ => inv_result hs _)
  | gfExp e =>
    unfold exec execGfExp at h
    exact command_inv h hs (inv_result hs _)
  | gfLog a => exact command_inv h hs (ends_raiseIf hr fun _ => inv_result hs _)
  | rsStart n => exact command_inv h hs (ends_raiseIf hr fun hn => inv_start hs (BitVec.not_lt.1 hn))
  | rsData d => exact command_inv h hs (ends_raiseIf hr fun ha => inv_data hs (Bool.eq_true_of_not_eq_false ha) d)
  | rsRdec k => exact command_inv h hs (ends_raiseIf hr fun _ => ends_raiseIf hr fun _ => inv_result hs _)
  | rsRdgen k => exact command_inv h hs (ends_raiseIf hr fun _ => ends_raiseIf hr fun _ => inv_result hs _)
  | mtxInit v => exact command_inv h hs (ends_raiseIf hr fun hv => inv_init hs hv)
  | modRsv row col dark =>
    refine command_inv h hs (ends_raiseIf hr fun hp => ends_raiseIf hr fun hc => ?_)
    have hb : s.phase = .build := not_not.1 hp
    have hlt := (inv_cellIndex_lt hs (by simp [hb]) hc).2
    dsimp only
    rw [memRead_eq hlt]
    refine ends_raiseIf hr fun _ => ?_
    rw [memWrite_eq hlt]
    exact inv_rsv hs hb hc dark
  | modRd row col =>
    refine command_inv h hs (ends_raiseIf hr fun _ => ends_raiseIf hr fun _ => ?_)
    split
    · trivial
    · exact inv_result hs _
  | plData d => exact command_inv h hs (ends_raiseIf hr fun hp => placeBits_legal hs (placing_of_check hp) _)
  | plFinish => exact command_inv h hs (ends_raiseIf hr fun hp => finish_legal hs (placing_of_check hp))

end Sys2Proof.Machine
end

section
/-! SUPPORT. PLCNT in legal states, and what PL_DATA adds to it (10_state.md R39; 42_placer.md R133, R138). -/

namespace Sys2Proof.Machine

/-- PLCNT is at most the number of cells of the longest path (42_placer.md R133). -/
theorem inv_plCnt_le {s : State} (h : s.Inv) : s.plCnt.toNat ≤ 31152 := by
  by_cases hp : s.phase = .idle
  · simp [(h.idle_zero hp).2]
  · obtain ⟨-, hle, -⟩ := inv_legalSize h hp
    calc s.plCnt.toNat ≤ s.size * (s.size - 1) := Nat.le_trans (Nat.le_add_right _ _) (h.count_le hp)
      _ ≤ 177 * 176 := Nat.mul_le_mul hle (by omega)

/-- Placing at most eight bits from a legal state adds their number to PLCNT. -/
theorem placed_plCnt {s t : State} {bs : List Bool} (h : s.Inv) (hpl : Placed { s with phase := .place } bs t)
    (hbs : bs.length ≤ 8) : t.plCnt.toNat = s.plCnt.toNat + bs.length := by
  have hle := inv_plCnt_le h
  rw [show t.plCnt = s.plCnt + BitVec.ofNat 16 bs.length from hpl.count, BitVec.toNat_add, BitVec.toNat_ofNat]
  omega

/-- PL_DATA adds at most eight to PLCNT. -/
theorem plData_plCnt {d : Byte} {s t : State} (h : s.Inv) (hf : s.fault = false) (ht : exec (.plData d) s = .next t) :
    s.plCnt.toNat ≤ t.plCnt.toNat ∧ t.plCnt.toNat ≤ s.plCnt.toNat + 8 := by
  by_cases hp : s.phase ≠ .build ∧ s.phase ≠ .place
  · rw [exec, execPlData, command_unlocked hf, raiseIf_pos hp] at ht
    obtain rfl := Host.Outcome.next.inj ht
    simp
  · obtain ⟨-, u, hu, hpl⟩ | ⟨hlt, u, hu, hpl, -⟩ := execPlData_placing (d := d) h hf (placing_of_check hp)
    · obtain rfl := Host.Outcome.next.inj (hu.symm.trans ht)
      have := placed_plCnt h hpl (le_refl 8)
      have hl : (bitsMsbFirst d).length = 8 := rfl
      omega
    · obtain rfl := Host.Outcome.next.inj (hu.symm.trans ht)
      have hl : ((bitsMsbFirst d).take (unsetAhead s).length).length ≤ 8 := by
        rw [List.length_take]; exact Nat.min_le_right _ _
      have := placed_plCnt h hpl hl
      simp only [recordFault_plCnt]
      omega

end Sys2Proof.Machine
end

section
/-! The obligations about the state (10_state.md). -/

namespace Sys2Proof.Machine

/-- Settles O57: the port, reset, a rejected word and every command keep a legal state legal. -/
theorem stepKeepsLegalStates : Obligations.StepKeepsLegalStates := by
  intro s t hs h
  exact step_keeps (P := State.Inv) (fun _ rest rep hu => inv_reply hu rep rest) (fun _ => inv_reset)
    (fun _ c w hu => inv_record hu c w) (fun _ _ _ => exec_inv) h hs

/-- Bit i of a field put at bit k, as `simp` spells a bit of known place. -/
theorem getElem_fieldAt {n : Nat} (k : Nat) (v : BitVec n) {i : Nat} (h : i < 32) :
    (fieldAt k v)[i] = (decide (k ≤ i) && v.getLsbD (i - k)) := by
  rw [← BitVec.getLsbD_eq_getElem, getLsbD_fieldAt]; simp [h]

/-- ID depends on the parameters alone (10_state.md R31). -/
theorem idWord_congr {s t : State} (h : t.params = s.params) : idWord t = idWord s := by simp only [idWord, h]

/-- Settles O14: ID is its three fields, and no step changes the parameters it shows. -/
theorem idNeverChanges : Obligations.IdNeverChanges := by
  refine ⟨fun s => ⟨rfl, ?_, ?_, ?_, ?_⟩, by decide, fun s t h => ?_⟩
  · simp [idWord, extract_fieldAt, extract_fieldAt_same]
  · simp [idWord, extract_fieldAt, extract_fieldAt_same]
  · simp [idWord, extract_fieldAt]
  · cases hp : s.params.policy <;> simp [idWord, getElem_fieldAt, hp, policyBit]
  · have hparams : t.params = s.params :=
      step_keeps (P := fun u => u.params = s.params) (fun _ _ _ hu => hu) (fun _ hu => hu) (fun _ _ _ hu => hu)
        (fun _ _ _ hi he hu => (exec_effect hi he).params.trans hu) h rfl
    exact ⟨hparams, idWord_congr hparams⟩

/-- A step leaves RS_ACTIVE, or clears it by a reset, or sets it by RS_START (10_state.md R32). -/
theorem step_rsActive {s t : State} (h : step s = .next t) :
    t.rsActive = s.rsActive ∨
    (t.rsActive = false ∧ ∃ rest, (∃ cut, s.host = .resetLow cut :: rest) ∨ s.host = .write 0#3 0x01000000#32 :: rest) ∨
    (t.rsActive = true ∧ ∃ n rest, s.host = .write 0#3 (encode (.rsStart n)) :: rest) := by
  obtain ⟨rest, rep, rfl⟩ | ⟨rest, cut, hh, rfl⟩ | ⟨rest, w, hh, hissue⟩ := step_eq_next h
  · exact .inl rfl
  · exact .inr (.inl ⟨rfl, rest, .inl ⟨cut, hh⟩⟩)
  · obtain ⟨rfl, rfl⟩ | ⟨i, hi, rfl, hexec⟩ | rfl | ⟨c, rfl⟩ := issue_eq_next hissue
    · exact .inr (.inl ⟨rfl, rest, .inr hh⟩)
    · obtain hkept | ⟨hset, n, rfl⟩ := (exec_effect hi hexec).rsActive
      · exact .inl hkept
      · exact .inr (.inr ⟨hset, n, rest, hh⟩)
    · exact .inl rfl
    · exact .inl rfl

/-- Settles O35: a change of RS_ACTIVE is a reset's or RS_START's. -/
theorem onlyResetClearsRsActive : Obligations.OnlyResetClearsRsActive := by
  intro s t h
  obtain hkept | ⟨hclear, hreset⟩ | ⟨hset, hstart⟩ := step_rsActive h
  · rw [hkept]
    exact ⟨fun ha hn => absurd (ha.symm.trans hn) (by decide), fun hn ha => absurd (ha.symm.trans hn) (by decide)⟩
  · exact ⟨fun _ _ => hreset, fun _ ha => absurd (ha.symm.trans hclear) (by decide)⟩
  · exact ⟨fun _ hn => absurd (hset.symm.trans hn) (by decide), fun _ _ => hstart⟩

/-- Settles O52: the one effect of a command that writes RESULT is that of a completing producer. -/
theorem onlyProducersWriteResult : Obligations.OnlyProducersWriteResult := by
  refine ⟨rfl, fun i s t h hi hne => ?_⟩
  obtain heq | ⟨hs, ht, hlt, hprod⟩ := (exec_effect hi h).result
  · exact absurd heq hne
  · exact ⟨hs, ht, hlt, Instr.eq_of_producesResult hprod⟩

/-- Settles O60: PL_DATA adds at most eight to a count that legal states bound before and after it. -/
theorem placedCountNeverWraps : Obligations.PlacedCountNeverWraps := by
  intro d s t hs
  refine ⟨inv_plCnt_le hs, fun hf h => ?_⟩
  obtain ⟨hge, hle⟩ := plData_plCnt hs hf h
  exact ⟨hge, hle, inv_plCnt_le (exec_inv (by simp) h hs)⟩

/-- Settles O12: STATUS is its five fields, and a write to it is only acknowledged. -/
theorem statusFields : Obligations.StatusFields := by
  refine ⟨fun s => ⟨rfl, ?_, ?_, ?_, ?_, ?_, ?_, ?_⟩, by decide,
    fun s w rest h => ⟨_, step_write_other h (by decide), rfl⟩⟩
  · simp [statusWord, getElem_fieldAt]
  · have hbits : (statusWord s).extractLsb' 1 2 = s.phase.bits := by
      simp [statusWord, extract_fieldAt, extract_fieldAt_same]
    exact hbits.trans rfl
  · simp [statusWord, getElem_fieldAt]
  · simp [statusWord, getElem_fieldAt]
  · simp [statusWord, extract_fieldAt]
  · simp [statusWord, extract_fieldAt, extract_fieldAt_same]
  · simp [statusWord, extract_fieldAt]

/-- The SIZE field of PLINFO holds SIZE itself when VER is 0 or a legal version (10_state.md R28, R37). -/
theorem size_field_toNat {s : State} (h : s.ver.toNat ≤ 40) : (BitVec.ofNat 8 s.size).toNat = sideOf s.ver := by
  refine toNat_ofNat_of_lt ?_
  unfold State.size sideOf
  split <;> omega

/-- Settles O13: CURSOR, RSINFO and PLINFO are their fields, and a write to them is only acknowledged. -/
theorem infoRegisterFields : Obligations.InfoRegisterFields := by
  refine ⟨fun s => ⟨rfl, rfl, rfl, ?_, ?_, ?_, ?_, ?_, ?_, ?_, ?_, ?_, ?_, ?_, fun hv => ?_⟩, by decide, by decide,
    by decide, fun s a w rest ha h => ⟨_, step_write_other h (by rcases ha with rfl | rfl | rfl <;> decide), rfl⟩⟩
  · simp [cursorWord, extract_fieldAt, extract_fieldAt_same]
  · simp [cursorWord, extract_fieldAt, extract_fieldAt_same]
  · simp [cursorWord, getElem_fieldAt]
  · simp [cursorWord, getElem_fieldAt]
  · simp [cursorWord, getElem_fieldAt]
  · simp [cursorWord, extract_fieldAt]
  · simp [rsinfoWord, extract_fieldAt, extract_fieldAt_same]
  · simp [rsinfoWord, extract_fieldAt]
  · simp [rsinfoWord, extract_fieldAt, extract_fieldAt_same]
  · simp [plinfoWord, extract_fieldAt, extract_fieldAt_same]
  · simp [plinfoWord, extract_fieldAt, extract_fieldAt_same]
  · have hsize : (plinfoWord s).extractLsb' 24 8 = BitVec.ofNat 8 s.size := by
      simp [plinfoWord, extract_fieldAt, extract_fieldAt_same]
    rw [hsize, size_field_toNat hv, sideOf]

end Sys2Proof.Machine
end

section
/-! SUPPORT. The port's reads and its write to CMD, an equation each (20_memory.md R45 to R47; 10_state.md R21). -/

namespace Sys2Proof.Machine

@[simp] theorem readPort_cmd (s : State) : readPort s 0#3 = 0#32 := rfl
@[simp] theorem readPort_result (s : State) : readPort s 1#3 = s.result := rfl
@[simp] theorem readPort_status (s : State) : readPort s 2#3 = statusWord s := rfl
@[simp] theorem readPort_cursor (s : State) : readPort s 3#3 = cursorWord s := rfl
@[simp] theorem readPort_rsinfo (s : State) : readPort s 4#3 = rsinfoWord s := rfl
@[simp] theorem readPort_plinfo (s : State) : readPort s 5#3 = plinfoWord s := rfl
@[simp] theorem readPort_faultCmd (s : State) : readPort s 6#3 = s.faultCmd := rfl
@[simp] theorem readPort_id (s : State) : readPort s 7#3 = idWord s := rfl

/-- No register shows the host's list. -/
@[simp] theorem readPort_host (s : State) (l : List HostEvent) (a : PortAddr) :
    readPort { s with host := l } a = readPort s a := rfl

/-- A read gives the addressed register's word and does nothing else (20_memory.md R47). -/
theorem step_read {s : State} {a : PortAddr} {rest : List HostEvent} (h : s.host = .read a :: rest) :
    step s = .next { s with host := rest, reply := .data (readPort s a) } := by
  simp [step, h, portEvent]

/-- A write to CMD is acknowledged and issues its word (20_memory.md R47; 43_control.md R150). -/
theorem step_write_cmd {s : State} {w : Word} {rest : List HostEvent} (h : s.host = .write 0#3 w :: rest) :
    step s = issue w { s with host := rest, reply := .acked } := by
  simp [step, h, portEvent, writePort]

end Sys2Proof.Machine
end

section
/-! The obligation about the address map (20_memory.md). -/

namespace Sys2Proof.Machine

/-- Settles O11: one equation per kind of transaction, and the register each address reads. -/
theorem portAccessRules : Obligations.PortAccessRules := by
  refine ⟨fun s a rest h => ⟨readPort s a, step_read h, ?_, ?_, ?_, ?_, ?_, ?_, ?_, ?_⟩,
    fun _ _ _ => step_write_cmd, fun _ _ _ _ => step_write_other⟩
  · rintro rfl; exact readPort_cmd s
  · rintro rfl; exact readPort_result s
  · rintro rfl; exact readPort_status s
  · rintro rfl; exact readPort_cursor s
  · rintro rfl; exact readPort_rsinfo s
  · rintro rfl; exact readPort_plinfo s
  · rintro rfl; exact readPort_faultCmd s
  · rintro rfl; exact readPort_id s

end Sys2Proof.Machine
end

section
/-! SUPPORT. Decoding by rows of the opcode map, and the fields of a command read back from its word (30_encoding.md R51 to R56). -/

namespace Sys2Proof

/-! ### The fields of a format read back (R51, R52) -/

@[simp] theorem imm8Field_formatB (op x : Byte) : imm8Field (formatB op x) = x := by
  simp [imm8Field, formatB, extract_fieldAt, extract_fieldAt_same]

@[simp] theorem aField_formatP (op a b : Byte) : aField (formatP op a b) = a := by
  simp [aField, formatP, extract_fieldAt, extract_fieldAt_same]

@[simp] theorem bField_formatP (op a b : Byte) : bField (formatP op a b) = b := by
  simp [bField, formatP, extract_fieldAt, extract_fieldAt_same]

@[simp] theorem rowField_formatC (op row col : Byte) : rowField (formatC op row col) = row := by
  simp [rowField, formatC, extract_fieldAt, extract_fieldAt_same]

@[simp] theorem colField_formatC (op row col : Byte) : colField (formatC op row col) = col := by
  simp [colField, formatC, extract_fieldAt, extract_fieldAt_same]

@[simp] theorem rowField_formatD (op row col : Byte) (dark : Bool) : rowField (formatD op row col dark) = row := by
  simp [rowField, formatD, extract_fieldAt, extract_fieldAt_same]

@[simp] theorem colField_formatD (op row col : Byte) (dark : Bool) : colField (formatD op row col dark) = col := by
  simp [colField, formatD, extract_fieldAt, extract_fieldAt_same]

@[simp] theorem darkField_formatD (op row col : Byte) (dark : Bool) : darkField (formatD op row col dark) = dark := by
  simp [darkField, formatD, Machine.getElem_fieldAt]

/-- Some row of the opcode map builds a command from its own word (R52, R53). -/
theorem exists_row_build_encode (i : Instr) : ∃ row ∈ opcodeMap, row.build (encode i) = i := by
  cases i with
  | nop => exact ⟨opcodeMap[0]'(by decide), List.getElem_mem _, rfl⟩
  | reset => exact ⟨opcodeMap[1]'(by decide), List.getElem_mem _, rfl⟩
  | gfMul a b =>
    exact ⟨opcodeMap[2]'(by decide), List.getElem_mem _, congrArg₂ Instr.gfMul (aField_formatP _ a b) (bField_formatP _ a b)⟩
  | gfDiv a b =>
    exact ⟨opcodeMap[3]'(by decide), List.getElem_mem _, congrArg₂ Instr.gfDiv (aField_formatP _ a b) (bField_formatP _ a b)⟩
  | gfExp e => exact ⟨opcodeMap[4]'(by decide), List.getElem_mem _, congrArg Instr.gfExp (imm8Field_formatB _ e)⟩
  | gfLog a => exact ⟨opcodeMap[5]'(by decide), List.getElem_mem _, congrArg Instr.gfLog (imm8Field_formatB _ a)⟩
  | rsStart n => exact ⟨opcodeMap[6]'(by decide), List.getElem_mem _, congrArg Instr.rsStart (imm8Field_formatB _ n)⟩
  | rsData d => exact ⟨opcodeMap[7]'(by decide), List.getElem_mem _, congrArg Instr.rsData (imm8Field_formatB _ d)⟩
  | rsRdec k => exact ⟨opcodeMap[8]'(by decide), List.getElem_mem _, congrArg Instr.rsRdec (imm8Field_formatB _ k)⟩
  | rsRdgen k => exact ⟨opcodeMap[9]'(by decide), List.getElem_mem _, congrArg Instr.rsRdgen (imm8Field_formatB _ k)⟩
  | mtxInit v => exact ⟨opcodeMap[10]'(by decide), List.getElem_mem _, congrArg Instr.mtxInit (imm8Field_formatB _ v)⟩
  | modRsv row col dark =>
    exact ⟨opcodeMap[11]'(by decide), List.getElem_mem _, congr (congrArg₂ Instr.modRsv (rowField_formatD _ row col dark)
      (colField_formatD _ row col dark)) (darkField_formatD _ row col dark)⟩
  | modRd row col =>
    exact ⟨opcodeMap[12]'(by decide), List.getElem_mem _,
      congrArg₂ Instr.modRd (rowField_formatC _ row col) (colField_formatC _ row col)⟩
  | plData d => exact ⟨opcodeMap[13]'(by decide), List.getElem_mem _, congrArg Instr.plData (imm8Field_formatB _ d)⟩
  | plFinish => exact ⟨opcodeMap[14]'(by decide), List.getElem_mem _, rfl⟩

/-! ### A command's word under the mask of its row (R51, R53) -/

theorem formatB_masked (op x : Byte) : formatB op x &&& 0xFFFFFF00#32 = formatZ op :=
  (Laws.EncodedInMap.masked_formats op x 0#8 false).1

theorem formatP_masked (op a b : Byte) : formatP op a b &&& 0xFFFF0000#32 = formatZ op :=
  (Laws.EncodedInMap.masked_formats op a b false).2.1

theorem formatC_masked (op row col : Byte) : formatC op row col &&& 0xFF0000FF#32 = formatZ op :=
  (Laws.EncodedInMap.masked_formats op row col false).2.2.1

theorem formatD_masked (op row col : Byte) (dark : Bool) : formatD op row col dark &&& 0xFF0000FE#32 = formatZ op :=
  (Laws.EncodedInMap.masked_formats op row col dark).2.2.2

/-- What a row builds, from any word, encodes to a word under the row's pattern (R51, R53). -/
theorem encode_build_masked (w : Word) : ∀ row ∈ opcodeMap, encode (row.build w) &&& row.mask = row.pattern := by
  simp only [opcodeMap, controlRows, gfRows, rsRows, placerRows, List.cons_append, List.nil_append, List.forall_mem_cons]
  exact ⟨rfl, rfl, formatP_masked 0x10#8 _ _, formatP_masked 0x11#8 _ _, formatB_masked 0x12#8 _, formatB_masked 0x13#8 _,
    formatB_masked 0x20#8 _, formatB_masked 0x21#8 _, formatB_masked 0x22#8 _, formatB_masked 0x23#8 _,
    formatB_masked 0x30#8 _, formatD_masked 0x31#8 _ _ _, formatC_masked 0x32#8 _ _, formatB_masked 0x33#8 _, rfl,
    List.forall_mem_nil _⟩

/-! ### The opcode byte chooses the row (R50, R53) -/

theorem opcodeField_and (v w : Word) : opcodeField (v &&& w) = opcodeField v &&& opcodeField w :=
  BitVec.extractLsb'_and

theorem toNat_opcodeField (w : Word) : (opcodeField w).toNat = (w >>> 24).toNat := by
  rw [opcodeField, BitVec.extractLsb'_toNat, BitVec.toNat_ushiftRight, Nat.shiftRight_eq_div_pow]
  omega

/-- Words that agree from bit 24 up have one opcode byte. -/
theorem opcodeField_congr {v w : Word} (h : v >>> 24 = w >>> 24) : opcodeField v = opcodeField w :=
  BitVec.eq_of_toNat_eq (by rw [toNat_opcodeField, toNat_opcodeField, h])

/-- A mask covers the opcode byte, and a match holds its row's opcode there (R53). -/
theorem opcodeField_mask_pattern :
    ∀ row ∈ opcodeMap, opcodeField row.mask = BitVec.allOnes 8 ∧ opcodeField row.pattern = row.opcode := by decide

/-- A word under a row's pattern has that row's opcode byte. -/
theorem opcodeField_of_masked {w : Word} {row : OpRow} (hrow : row ∈ opcodeMap) (h : w &&& row.mask = row.pattern) :
    opcodeField w = row.opcode := by
  obtain ⟨hmask, hpattern⟩ := opcodeField_mask_pattern row hrow
  rw [← hpattern, ← h, opcodeField_and, hmask, BitVec.and_allOnes]

theorem opcodes_nodup : (opcodeMap.map OpRow.opcode).Nodup := by decide

/-- No row before a given one shares its opcode, so looking that opcode up finds the row itself. -/
theorem find_opcode {row : OpRow} (hrow : row ∈ opcodeMap) :
    opcodeMap.find? (fun r => r.opcode == row.opcode) = some row := by
  obtain ⟨before, after, hmap⟩ := List.append_of_mem hrow
  have hnodup : ((before ++ row :: after).map OpRow.opcode).Nodup := hmap ▸ opcodes_nodup
  rw [List.map_append, List.nodup_append] at hnodup
  obtain ⟨-, -, hdisjoint⟩ := hnodup
  have hbefore : ∀ r ∈ before, r.opcode ≠ row.opcode := fun r hr =>
    hdisjoint _ (List.mem_map_of_mem hr) _ List.mem_cons_self
  exact List.find?_eq_some_iff_append.2 ⟨beq_self_eq_true _, before, after, hmap, by simpa using hbefore⟩

/-- A word with a row's opcode byte is tested against that row alone (R56). -/
theorem decode_of_opcode {w : Word} {row : OpRow} (hrow : row ∈ opcodeMap) (hop : opcodeField w = row.opcode) :
    decode w = if w &&& row.mask = row.pattern then .ok (row.build w) else .error .reservedBits := by
  rw [decode, hop, find_opcode hrow]

/-- A word under a row's pattern decodes to what the row builds from it (R53). -/
theorem decode_of_masked {w : Word} {row : OpRow} (hrow : row ∈ opcodeMap) (h : w &&& row.mask = row.pattern) :
    decode w = .ok (row.build w) := by
  rw [decode_of_opcode hrow (opcodeField_of_masked hrow h), if_pos h]

/-! ### What decodes, and what does not (R53, R54, R56) -/

/-- Every command decodes from its own word (R56). -/
theorem decode_encode (i : Instr) : decode (encode i) = .ok i := by
  obtain ⟨row, hrow, hbuild⟩ := exists_row_build_encode i
  have hmasked := encode_build_masked (encode i) row hrow
  rw [hbuild] at hmasked
  rw [decode_of_masked hrow hmasked, hbuild]

/-- A word decodes to what a row builds from it exactly when it is under the row's pattern (R53). -/
theorem decode_eq_build_iff {w : Word} {row : OpRow} (hrow : row ∈ opcodeMap) :
    decode w = .ok (row.build w) ↔ w &&& row.mask = row.pattern := by
  refine ⟨fun h => ?_, decode_of_masked hrow⟩
  have hmasked := encode_build_masked w row hrow
  rwa [encode_of_decode h] at hmasked

/-- A word is illegal exactly when no row has its opcode byte (R54, R56). -/
theorem decode_eq_illegalOpcode_iff (w : Word) :
    decode w = .error .illegalOpcode ↔ ∀ row ∈ opcodeMap, row.opcode ≠ opcodeField w := by
  refine ⟨fun h row hrow hop => ?_, fun h => ?_⟩
  · rw [decode_of_opcode hrow hop.symm] at h
    split at h <;> cases h
  · have hnone : opcodeMap.find? (fun row => row.opcode == opcodeField w) = none := by simpa using h
    rw [decode, hnone]

/-- The bytes that are no row's opcode, as the ranges of R54. -/
theorem opcode_unused_iff (op : Byte) :
    (∀ row ∈ opcodeMap, row.opcode ≠ op) ↔
      (0x02 ≤ op.toNat ∧ op.toNat ≤ 0x0F) ∨ (0x14 ≤ op.toNat ∧ op.toNat ≤ 0x1F) ∨
      (0x24 ≤ op.toNat ∧ op.toNat ≤ 0x2F) ∨ (0x35 ≤ op.toNat ∧ op.toNat ≤ 0xFF) := by
  simp only [opcodeMap, controlRows, gfRows, rsRows, placerRows, List.cons_append, List.nil_append, List.forall_mem_cons,
    List.not_mem_nil, false_implies, implies_true, and_true]
  bv_omega

end Sys2Proof

namespace Sys2Proof.Machine

/-- A word that is no command is a recorded fault in an unlocked block, and nothing else (R54, R55; 60_exceptions.md R163). -/
theorem issue_of_decode_error {w : Word} {s : State} {e : DecodeError} (h : decode w = .error e) (hf : s.fault = false) :
    issue w s = .next (recordFault (decodeFault e) w s) := by
  rw [issue, h]
  simp [rejectWord_eq, hf]

end Sys2Proof.Machine
end

section
/-! The obligations about the encoding of commands (30_encoding.md). -/

namespace Sys2Proof.Machine

/-- Settles O1: a command is built by a row of the opcode map from its own word. -/
theorem decodeOfEncode : Obligations.DecodeOfEncode := decode_encode

/-- Settles O2: the row a word decodes by builds a command of that same word. -/
theorem encodeOfDecode : Obligations.EncodeOfDecode := fun _ _ => encode_of_decode

/-- Settles O3: the rows by evaluation, and each row's test decides its command. -/
theorem wordIsCommandWhenMaskMatches : Obligations.WordIsCommandWhenMaskMatches :=
  ⟨by decide, fun _ hrow _ => decode_eq_build_iff hrow⟩

/-- Settles O4: the opcodes no row has, their recorded fault, and NOP's one word. -/
theorem illegalOpcodesRaise : Obligations.IllegalOpcodesRaise := by
  refine ⟨fun w => ?_, fun w s h hf => issue_of_decode_error h hf, fun w => ⟨fun h => ?_, fun h => ?_⟩⟩
  · rw [decode_eq_illegalOpcode_iff, opcode_unused_iff, toNat_opcodeField]
  · exact (encode_of_decode h).symm
  · exact h ▸ decode_encode .nop

/-- Settles O5: the opcode byte chooses the row, whose test fails. -/
theorem reservedBitsRaise : Obligations.ReservedBitsRaise := by
  intro row hrow w s hop hmask hf
  have hopcode : opcodeField w = row.opcode :=
    (opcodeField_congr hop).trans (opcodeField_mask_pattern row hrow).2
  have hdecode : decode w = .error .reservedBits := by rw [decode_of_opcode hrow hopcode, if_neg hmask]
  exact issue_of_decode_error hdecode hf

/-- Settles O6: ten of the words are their commands' own, and two are no command's. -/
theorem workedWordsDecode : Obligations.WorkedWordsDecode :=
  ⟨decode_encode .nop, decode_encode .reset, decode_encode (.gfMul 0x53#8 0xCA#8), decode_encode (.gfLog 0x1D#8),
    decode_encode (.rsStart 4#8), decode_encode (.rsRdec 3#8), decode_encode (.modRsv 20#8 19#8 true),
    decode_encode (.modRd 0#8 17#8), decode_encode (.plData 0xA5#8), decode_encode .plFinish, by decide, by decide⟩

end Sys2Proof.Machine
end

section
/-! SUPPORT. Maps of bit vectors that respect XOR, the addition of GF(2)[x] (40_gf_arith.md R60): sums of them, and that they are
determined by the single bits. -/

namespace Sys2Proof

/-- The map respects XOR. -/
def XorAdditive {n m : Nat} (f : BitVec n → BitVec m) : Prop := ∀ v w, f (v ^^^ w) = f v ^^^ f w

variable {n m : Nat}

theorem XorAdditive.map_zero {f : BitVec n → BitVec m} (hf : XorAdditive f) : f 0#n = 0#m := by
  simpa using hf 0#n 0#n

theorem XorAdditive.comp {k : Nat} {f : BitVec m → BitVec k} {g : BitVec n → BitVec m} (hf : XorAdditive f)
    (hg : XorAdditive g) : XorAdditive fun v => f (g v) := fun v w => by
  simp only [hg v w, hf (g v)]

theorem xor_xor_xor_comm (a b c d : BitVec n) : (a ^^^ b) ^^^ (c ^^^ d) = (a ^^^ c) ^^^ (b ^^^ d) := by
  ac_rfl

/-- The sum of two such maps is one. -/
theorem XorAdditive.xor {f g : BitVec n → BitVec m} (hf : XorAdditive f) (hg : XorAdditive g) :
    XorAdditive fun v => f v ^^^ g v := fun v w => by
  simp only [hf v w, hg v w, xor_xor_xor_comm]

/-- A constant, taken when a given bit is set. -/
theorem xorAdditive_ite_getLsbD (i : Nat) (x : BitVec m) :
    XorAdditive fun v : BitVec n => if v.getLsbD i then x else 0#m := fun v w => by
  cases hv : v.getLsbD i <;> cases hw : w.getLsbD i <;> simp [hv, hw]

/-- The XOR of a list of such maps. -/
theorem xorAdditive_foldl_map {ι : Type} {f : ι → BitVec n → BitVec m} (hf : ∀ i, XorAdditive (f i)) (l : List ι) :
    XorAdditive fun v => (l.map fun i => f i v).foldl (· ^^^ ·) 0#m := by
  intro v w
  have hfold : ∀ (l : List ι) (x y : BitVec m), (l.map fun i => f i (v ^^^ w)).foldl (· ^^^ ·) (x ^^^ y) =
      (l.map fun i => f i v).foldl (· ^^^ ·) x ^^^ (l.map fun i => f i w).foldl (· ^^^ ·) y := by
    intro l
    induction l with
    | nil => intros; rfl
    | cons i l ih =>
      intro x y
      simp only [List.map_cons, List.foldl_cons, hf i v w, xor_xor_xor_comm x y, ih]
  simpa using hfold l 0#m 0#m

/-- A list of such maps, one after the other. -/
theorem xorAdditive_foldl {ι : Type} {f : BitVec n → ι → BitVec n} (hf : ∀ i, XorAdditive fun v => f v i) :
    ∀ l : List ι, XorAdditive fun v => l.foldl f v
  | [] => fun _ _ => rfl
  | i :: l => (xorAdditive_foldl hf l).comp (hf i)

/-- Two such maps that agree on the single bits are equal: the bits of a vector are taken off from the highest down. -/
theorem XorAdditive.ext {f g : BitVec n → BitVec m} (hf : XorAdditive f) (hg : XorAdditive g)
    (h : ∀ i < n, f (BitVec.twoPow n i) = g (BitVec.twoPow n i)) (v : BitVec n) : f v = g v := by
  have hbelow : ∀ k ≤ n, ∀ v : BitVec n, (∀ i, k ≤ i → v.getLsbD i = false) → f v = g v := by
    intro k
    induction k with
    | zero =>
      intro _ v hv
      have hzero : v = 0#n := BitVec.eq_of_getLsbD_eq fun i _ => by simp [hv i (Nat.zero_le i)]
      rw [hzero, hf.map_zero, hg.map_zero]
    | succ k ih =>
      intro hk v hv
      cases hbit : v.getLsbD k with
      | false =>
        refine ih (by omega) v fun i hi => ?_
        obtain rfl | hlt := Nat.eq_or_lt_of_le hi
        · exact hbit
        · exact hv i hlt
      | true =>
        have hrest : f (v ^^^ BitVec.twoPow n k) = g (v ^^^ BitVec.twoPow n k) := by
          refine ih (by omega) _ fun i hi => ?_
          obtain rfl | hlt := Nat.eq_or_lt_of_le hi
          · simp [hbit, show k < n from hk]
          · simp [hv i hlt, BitVec.getLsbD_twoPow, Nat.ne_of_lt hlt]
        have hsplit : v = (v ^^^ BitVec.twoPow n k) ^^^ BitVec.twoPow n k := by simp
        rw [hsplit, hf, hg, hrest, h k hk]
  exact hbelow n (le_refl n) v fun i hi => BitVec.getLsbD_of_ge v i hi

end Sys2Proof
end

section
/-! SUPPORT. The tables of GF(256) as powers of x (40_gf_arith.md R61, R62), and products and quotients of powers (R63, R64). -/

namespace Sys2Proof.Machine

/-! ### The tables -/

/-- The exp table, read as a cycle, follows `xtime` (R61). -/
theorem gfExp_succ : ∀ i < 255, gfExp ((i + 1) % 255) = xtime (gfExp i) := by decide +kernel

/-- The log table inverts the exp table (R62). -/
theorem gfLog_gfExp : ∀ i < 255, (gfLog (gfExp i)).toNat = i := by decide +kernel

/-- No entry of the exp table is 0 (R61). -/
theorem gfExp_ne_zero : ∀ i < 255, gfExp i ≠ 0#8 := by decide +kernel

/-- The exp table inverts the log table (R62). -/
theorem gfExp_gfLog : ∀ a : Byte, a ≠ 0#8 → (gfLog a).toNat < 255 ∧ gfExp (gfLog a).toNat = a := by decide

/-- Every element is 0 or a power of x (R61). -/
theorem eq_zero_or_eq_gfExp (a : Byte) : a = 0#8 ∨ ∃ i < 255, a = gfExp i := by
  by_cases ha : a = 0#8
  · exact .inl ha
  · obtain ⟨hlt, heq⟩ := gfExp_gfLog a ha
    exact .inr ⟨_, hlt, heq.symm⟩

/-- A nonzero element is a power of x (R61). -/
theorem exists_gfExp_of_ne_zero {a : Byte} (ha : a ≠ 0#8) : ∃ i < 255, a = gfExp i :=
  (eq_zero_or_eq_gfExp a).resolve_left ha

/-- The exp table lists the values that repeated `xtime` gives from 1 (R61). -/
theorem iterate_xtime_one (i : Nat) : xtime^[i] 1#8 = gfExp (i % 255) := by
  induction i with
  | zero => rfl
  | succ i ih => rw [Function.iterate_succ_apply', ih, ← gfExp_succ _ (Nat.mod_lt _ (by decide)), Nat.mod_add_mod]

/-! ### Products and quotients of powers -/

/-- Powers multiply by adding their exponents (R63). -/
theorem gmul_gfExp {i j : Nat} (hi : i < 255) (hj : j < 255) : gmul (gfExp i) (gfExp j) = gfExp ((i + j) % 255) := by
  rw [gmul_nonzero (gfExp_ne_zero i hi) (gfExp_ne_zero j hj), gfLog_gfExp i hi, gfLog_gfExp j hj]

/-- Powers divide by subtracting their exponents (R64). -/
theorem gdiv_gfExp {i j : Nat} (hi : i < 255) (hj : j < 255) :
    gdiv (gfExp i) (gfExp j) = gfExp ((i + 255 - j) % 255) := by
  rw [gdiv, if_neg (gfExp_ne_zero i hi), gfLog_gfExp i hi, gfLog_gfExp j hj]

theorem gmul_comm (a b : Byte) : gmul a b = gmul b a := by
  simp only [gmul, or_comm, Nat.add_comm]

theorem gmul_assoc (a b c : Byte) : gmul (gmul a b) c = gmul a (gmul b c) := by
  obtain rfl | ⟨i, hi, rfl⟩ := eq_zero_or_eq_gfExp a
  · simp
  obtain rfl | ⟨j, hj, rfl⟩ := eq_zero_or_eq_gfExp b
  · simp
  obtain rfl | ⟨k, hk, rfl⟩ := eq_zero_or_eq_gfExp c
  · simp
  have hmod : ∀ l, l % 255 < 255 := fun l => Nat.mod_lt l (by decide)
  rw [gmul_gfExp hi hj, gmul_gfExp hj hk, gmul_gfExp (hmod _) hk, gmul_gfExp hi (hmod _), Nat.mod_add_mod,
    Nat.add_mod_mod, Nat.add_assoc]

@[simp] theorem gmul_one (a : Byte) : gmul a 1#8 = a := by
  obtain rfl | ⟨i, hi, rfl⟩ := eq_zero_or_eq_gfExp a
  · simp
  · rw [show (1#8 : Byte) = gfExp 0 from rfl, gmul_gfExp hi (by decide), Nat.add_zero, Nat.mod_eq_of_lt hi]

/-- Division undoes multiplication, from the left (R64). -/
theorem gmul_gdiv_cancel (a : Byte) {b : Byte} (hb : b ≠ 0#8) : gmul (gdiv a b) b = a := by
  obtain ⟨j, hj, rfl⟩ := exists_gfExp_of_ne_zero hb
  obtain rfl | ⟨i, hi, rfl⟩ := eq_zero_or_eq_gfExp a
  · simp
  · rw [gdiv_gfExp hi hj, gmul_gfExp (Nat.mod_lt _ (by decide)) hj]
    congr 1
    omega

/-- Multiplication undoes division (R64). -/
theorem gdiv_gmul_cancel (a : Byte) {b : Byte} (hb : b ≠ 0#8) : gdiv (gmul a b) b = a := by
  obtain ⟨j, hj, rfl⟩ := exists_gfExp_of_ne_zero hb
  obtain rfl | ⟨i, hi, rfl⟩ := eq_zero_or_eq_gfExp a
  · simp
  · rw [gmul_gfExp hi hj, gdiv_gfExp (Nat.mod_lt _ (by decide)) hj]
    congr 1
    omega

end Sys2Proof.Machine
end

section
/-! SUPPORT. The product by tables is the polynomial product of 40_gf_arith.md R60: the latter respects XOR in both factors and
commutes with `xtime`, so on powers of x it adds exponents. -/

namespace Sys2Proof.Machine

theorem xorAdditive_setWidth (n m : Nat) : XorAdditive fun v : BitVec n => v.setWidth m :=
  fun _ _ => BitVec.setWidth_xor

theorem xorAdditive_shiftLeft (n i : Nat) : XorAdditive fun v : BitVec n => v <<< i :=
  fun v w => BitVec.shiftLeft_xor_distrib v w i

theorem xorAdditive_xtime : XorAdditive xtime := by
  have h : xtime = fun v : Byte => v <<< 1 ^^^ (if v.getLsbD 7 then 0x1D#8 else 0#8) := by
    funext v
    unfold xtime
    cases v.getLsbD 7 <;> simp
  rw [h]
  exact (xorAdditive_shiftLeft 8 1).xor (xorAdditive_ite_getLsbD 7 _)

/-- Removing one term by adding a multiple of p respects XOR (R60). -/
theorem xorAdditive_cancelTerm (i : Nat) (p : BitVec 16) :
    XorAdditive fun v : BitVec 16 => if v.getLsbD i then v ^^^ p else v := by
  have h : (fun v : BitVec 16 => if v.getLsbD i then v ^^^ p else v) = fun v => v ^^^ (if v.getLsbD i then p else 0#16) := by
    funext v
    cases v.getLsbD i <;> simp
  rw [h]
  exact XorAdditive.xor (fun _ _ => rfl) (xorAdditive_ite_getLsbD i p)

theorem xorAdditive_polyReduce : XorAdditive polyReduce :=
  (xorAdditive_setWidth 16 8).comp (xorAdditive_foldl (fun i => xorAdditive_cancelTerm i (0x11D#16 <<< (i - 8))) _)

theorem xorAdditive_polyTimes_left (b : Byte) : XorAdditive fun a => polyTimes a b := by
  refine xorAdditive_foldl_map (fun i => ?_) (List.range 8)
  cases b.getLsbD i with
  | false => exact fun _ _ => (BitVec.xor_self).symm
  | true => exact (xorAdditive_shiftLeft 16 i).comp (xorAdditive_setWidth 8 16)

theorem xorAdditive_polyTimes_right (a : Byte) : XorAdditive (polyTimes a) :=
  xorAdditive_foldl_map (fun i => xorAdditive_ite_getLsbD i (a.setWidth 16 <<< i)) (List.range 8)

/-- The polynomial product distributes over addition in its left factor (R60). -/
theorem xorAdditive_polyProduct_left (b : Byte) : XorAdditive fun a => polyProduct a b :=
  xorAdditive_polyReduce.comp (xorAdditive_polyTimes_left b)

/-- The polynomial product distributes over addition in its right factor (R60). -/
theorem xorAdditive_polyProduct_right (a : Byte) : XorAdditive (polyProduct a) :=
  xorAdditive_polyReduce.comp (xorAdditive_polyTimes_right a)

/-- The polynomial 1 is neutral. -/
theorem polyProduct_one_left (b : Byte) : polyProduct 1#8 b = b :=
  (xorAdditive_polyProduct_right 1#8).ext (g := fun b => b) (fun _ _ => rfl) (by decide) b

/-- A factor x can be taken out of the left polynomial (R60, R61): seen on single terms, since both sides respect XOR. -/
theorem polyProduct_xtime_left (a b : Byte) : polyProduct (xtime a) b = xtime (polyProduct a b) := by
  have hterms : ∀ i < 8, ∀ j < 8, polyProduct (xtime (.twoPow 8 i)) (.twoPow 8 j) =
      xtime (polyProduct (.twoPow 8 i) (.twoPow 8 j)) := by decide
  refine ((xorAdditive_polyProduct_left b).comp xorAdditive_xtime).ext
    (xorAdditive_xtime.comp (xorAdditive_polyProduct_left b)) (fun i hi => ?_) a
  exact (xorAdditive_polyProduct_right _).ext (xorAdditive_xtime.comp (xorAdditive_polyProduct_right _)) (hterms i hi) b

/-- A power of x multiplies a polynomial by repeated `xtime` (R60, R61). -/
theorem polyProduct_gfExp_left {i : Nat} (hi : i < 255) (b : Byte) : polyProduct (gfExp i) b = xtime^[i] b := by
  have hcomm : Function.Semiconj (fun a => polyProduct a b) xtime xtime := fun a => polyProduct_xtime_left a b
  calc polyProduct (gfExp i) b = polyProduct (xtime^[i] 1#8) b := by rw [iterate_xtime_one, Nat.mod_eq_of_lt hi]
    _ = xtime^[i] (polyProduct 1#8 b) := hcomm.iterate_right i 1#8
    _ = xtime^[i] b := by rw [polyProduct_one_left]

/-- The product by tables is the polynomial product modulo p (R60, R63). -/
theorem gmul_eq_polyProduct (a b : Byte) : gmul a b = polyProduct a b := by
  obtain rfl | ⟨i, hi, rfl⟩ := eq_zero_or_eq_gfExp a
  · rw [gmul_zero_left, (xorAdditive_polyProduct_left b).map_zero]
  obtain rfl | ⟨j, hj, rfl⟩ := eq_zero_or_eq_gfExp b
  · rw [gmul_zero_right, (xorAdditive_polyProduct_right _).map_zero]
  calc gmul (gfExp i) (gfExp j) = gfExp ((i + j) % 255) := gmul_gfExp hi hj
    _ = xtime^[i] (xtime^[j] 1#8) := by rw [← iterate_xtime_one, Function.iterate_add_apply]
    _ = polyProduct (gfExp i) (gfExp j) := by rw [polyProduct_gfExp_left hi, iterate_xtime_one, Nat.mod_eq_of_lt hj]

/-- Multiplication distributes over XOR (R70). -/
theorem gmul_xor (a b c : Byte) : gmul a (b ^^^ c) = gmul a b ^^^ gmul a c := by
  simp only [gmul_eq_polyProduct, xorAdditive_polyProduct_right a b c]

end Sys2Proof.Machine
end

section
/-! SUPPORT. Which faults a command can raise in an unlocked block (60_exceptions.md R161, R162). -/

namespace Sys2Proof.Machine

/-- Pseudocode that raises only the listed faults, and leaves FAULT at 0 where it ends. -/
def Ran.FaultsIn (cs : List FaultCode) : Ran → Prop
  | .done t => t.fault = false
  | .raised c _ => c ∈ cs
  | .halted _ => True

variable {cs : List FaultCode}

/-- A check (R160, R162). -/
theorem faultsIn_raiseIf {p : Prop} [Decidable p] {c : FaultCode} {k : State → Ran} {s : State} (hc : p → c ∈ cs)
    (hk : (k s).FaultsIn cs) : (raiseIf p c k s).FaultsIn cs := by
  by_cases hp : p
  · rw [raiseIf_pos hp]; exact hc hp
  · rw [raiseIf_neg hp]; exact hk

theorem faultsIn_andThen {x : Ran} {k : State → Ran} (hx : x.FaultsIn cs)
    (hk : ∀ s, s.fault = false → (k s).FaultsIn cs) : (x.andThen k).FaultsIn cs := by
  cases x with
  | done s => exact hk s hx
  | raised c s => exact hx
  | halted f => trivial

theorem memWrite_faultsIn (idx : Nat) (c : ModCode) {s : State} (hs : s.fault = false) : (memWrite idx c s).FaultsIn cs := by
  unfold memWrite
  split
  · exact hs
  · trivial

/-- `seek` raises nothing (42_placer.md R132). -/
theorem seekWithin_faultsIn : ∀ (k : Nat) {s : State}, s.fault = false → (seekWithin k s).FaultsIn cs
  | 0, _, _ => trivial
  | k + 1, s, hs => by
    unfold seekWithin
    split
    · exact hs
    · split
      · trivial
      · split
        · exact hs
        · exact seekWithin_faultsIn k (s := stepCursor s) hs

/-- `place_bit` raises PL_OVERRUN alone (42_placer.md R134). -/
theorem placeBits_faultsIn (hc : .plOverrun ∈ cs) :
    ∀ (bs : List Bool) {s : State}, s.fault = false → (placeBits bs s).FaultsIn cs
  | [], _, hs => hs
  | _ :: bs, _, hs =>
    faultsIn_andThen
      (faultsIn_andThen (seekWithin_faultsIn _ hs) fun _ ht => faultsIn_raiseIf (fun _ => hc) <|
        faultsIn_andThen (memWrite_faultsIn _ _ ht) fun _ hu => hu)
      fun _ => placeBits_faultsIn hc bs

/-- `zero_fill` raises nothing (42_placer.md R139). -/
theorem zeroFillWithin_faultsIn : ∀ (k : Nat) {s : State}, s.fault = false → (zeroFillWithin k s).FaultsIn cs
  | 0, _, _ => trivial
  | k + 1, _, hs => faultsIn_andThen (seekWithin_faultsIn _ hs) fun t ht => by
    split
    · exact ht
    · exact faultsIn_andThen (memWrite_faultsIn _ _ ht) fun u hu => zeroFillWithin_faultsIn k (s := stepCursor u) hu

theorem finishRemainder_faultsIn (hc : .plUnderrun ∈ cs) {s : State} (hs : s.fault = false) :
    (finishRemainder s).FaultsIn cs := by
  unfold finishRemainder
  split
  · exact hs
  · split
    · exact hc
    · exact zeroFillWithin_faultsIn _ hs

end Sys2Proof.Machine

namespace Sys2Proof

/-- The faults a command can raise (60_exceptions.md R161). -/
@[simp] def Instr.faults : Instr → List Machine.FaultCode
  | .nop | .reset | .gfMul .. | .gfExp _ => []
  | .gfDiv _ b => if b = 0#8 then [.gfDomain] else []
  | .gfLog a => if a = 0#8 then [.gfDomain] else []
  | .rsStart _ | .mtxInit _ => [.operandRange]
  | .rsData _ => [.sequence]
  | .rsRdec _ | .rsRdgen _ | .modRd .. => [.sequence, .operandRange]
  | .modRsv .. => [.sequence, .operandRange, .moduleOverwrite]
  | .plData _ => [.sequence, .plOverrun]
  | .plFinish => [.sequence, .plUnderrun]

/-- The commands that can raise GF_DOMAIN (40_gf_arith.md R65). -/
theorem Instr.eq_of_gfDomain_mem_faults {i : Instr} (h : .gfDomain ∈ i.faults) :
    i = .gfLog 0#8 ∨ ∃ a, i = .gfDiv a 0#8 := by
  cases i with
  | gfDiv a b =>
    by_cases hb : b = 0#8
    · exact .inr ⟨a, by rw [hb]⟩
    · simp [hb] at h
  | gfLog a =>
    by_cases ha : a = 0#8
    · exact .inl (by rw [ha])
    · simp [ha] at h
  | _ => simp at h

end Sys2Proof

namespace Sys2Proof.Machine

/-- FCODE 5 is GF_DOMAIN's alone (60_exceptions.md R161). -/
theorem FaultCode.eq_gfDomain_of_code {c : FaultCode} (h : c.code = 5#4) : c = .gfDomain := by
  cases c with
  | gfDomain => rfl
  | _ => exact absurd h (by decide)

/-- A command that locks the block has recorded a fault its pseudocode raises (43_control.md R150). -/
theorem command_fault {i : Instr} {body : State → Ran} {cs : List FaultCode} {s t : State} (h : command i body s = .next t)
    (hs : s.fault = false) (ht : t.fault = true) (hb : (body s).FaultsIn cs) : ∃ c ∈ cs, t.fcode = c.code := by
  obtain ⟨hl, -⟩ | ⟨-, hd⟩ | ⟨-, c, u, hr, rfl⟩ := command_eq_next h
  · exact absurd (hl.symm.trans hs) (by decide)
  · rw [hd] at hb
    exact absurd (ht.symm.trans hb) (by decide)
  · rw [hr] at hb
    exact ⟨c, hb, rfl⟩

/-- A command that locks the block has recorded one of its faults. -/
theorem exec_fault {i : Instr} {s t : State} (hs : s.fault = false) (h : exec i s = .next t) (ht : t.fault = true) :
    ∃ c ∈ i.faults, t.fcode = c.code := by
  cases i with
  | nop => exact command_fault h hs ht hs
  | reset =>
    obtain rfl := Host.Outcome.next.inj h
    simp at ht
  | gfMul a b =>
    unfold exec execGfMul at h
    exact command_fault h hs ht hs
  | gfDiv a b => exact command_fault h hs ht (faultsIn_raiseIf (fun hb => by simp [hb]) hs)
  | gfExp e =>
    unfold exec execGfExp at h
    exact command_fault h hs ht hs
  | gfLog a => exact command_fault h hs ht (faultsIn_raiseIf (fun ha => by simp [ha]) hs)
  | rsStart n => exact command_fault h hs ht (faultsIn_raiseIf (fun _ => by simp) hs)
  | rsData d => exact command_fault h hs ht (faultsIn_raiseIf (fun _ => by simp) hs)
  | rsRdec k =>
    exact command_fault h hs ht (faultsIn_raiseIf (fun _ => by simp) <|
      faultsIn_raiseIf (fun _ => by simp) hs)
  | rsRdgen k =>
    exact command_fault h hs ht (faultsIn_raiseIf (fun _ => by simp) <|
      faultsIn_raiseIf (fun _ => by simp) hs)
  | mtxInit v => exact command_fault h hs ht (faultsIn_raiseIf (fun _ => by simp) hs)
  | modRsv row col dark =>
    refine command_fault h hs ht (faultsIn_raiseIf (fun _ => by simp) <|
      faultsIn_raiseIf (fun _ => by simp) ?_)
    dsimp only
    split
    · trivial
    · exact faultsIn_raiseIf (fun _ => by simp) (memWrite_faultsIn _ _ hs)
  | modRd row col =>
    refine command_fault h hs ht (faultsIn_raiseIf (fun _ => by simp) <|
      faultsIn_raiseIf (fun _ => by simp) ?_)
    split
    · trivial
    · exact hs
  | plData d =>
    exact command_fault h hs ht (faultsIn_raiseIf (fun _ => by simp) <|
      placeBits_faultsIn (by simp) _ hs)
  | plFinish =>
    exact command_fault h hs ht (faultsIn_raiseIf (fun _ => by simp) <|
      faultsIn_andThen (faultsIn_andThen (seekWithin_faultsIn _ hs) fun _ =>
        finishRemainder_faultsIn (by simp)) fun _ hu => hu)

end Sys2Proof.Machine
end

section
/-! The obligations about GF(256) (40_gf_arith.md). -/

namespace Sys2Proof.Machine

/-- Settles O21: the two commands' check raises GF_DOMAIN, which no other command's pseudocode raises. -/
theorem gfDomainIsLogOfZero : Obligations.GfDomainIsLogOfZero := by
  refine ⟨fun s hs => ?_, fun a s hs => ?_, fun i s t hs h hcode ht => ?_⟩
  · rw [exec, execGfLog, command_unlocked hs, raiseIf_pos rfl]
    rfl
  · rw [exec, execGfDiv, command_unlocked hs, raiseIf_pos rfl]
    rfl
  · obtain ⟨c, hc, hfcode⟩ := exec_fault hs h ht
    obtain rfl : c = .gfDomain := FaultCode.eq_gfDomain_of_code (hfcode.symm.trans hcode)
    exact Instr.eq_of_gfDomain_mem_faults hc

/-- Settles O22: the recurrence from the table, distinctness and cover from the log table. -/
theorem expTableFollowsItsRule : Obligations.ExpTableFollowsItsRule := by
  refine ⟨rfl, fun i hi => ?_, fun i hi j hj h => ?_, fun a ha => ⟨_, gfExp_gfLog a ha⟩⟩
  · have h := gfExp_succ i (by omega)
    rwa [Nat.mod_eq_of_lt (by omega)] at h
  · rw [← gfLog_gfExp i hi, h, gfLog_gfExp j hj]

/-- Settles O23: the table, read entry by entry. -/
theorem logTableInvertsExp : Obligations.LogTableInvertsExp := gfLog_gfExp

/-- Settles O24: both products add the exponents of powers of x. -/
theorem productIsPolynomialProduct : Obligations.ProductIsPolynomialProduct := gmul_eq_polyProduct

/-- Settles O25: the formula is the model's own, and on powers of x the exponents cancel. -/
theorem divisionUndoesMultiplication : Obligations.DivisionUndoesMultiplication :=
  ⟨fun _ _ _ => rfl, fun a _ hb => ⟨gmul_gdiv_cancel a hb, gdiv_gmul_cancel a hb⟩⟩

/-- Settles O26: the multiplicative laws from exponents, distributivity from the polynomial product. -/
theorem fieldLaws : Obligations.FieldLaws :=
  ⟨gmul_comm, gmul_assoc, gmul_xor, fun a => ⟨gmul_one a, gmul_zero_right a⟩,
    fun a ha => by rw [gmul_comm, gmul_gdiv_cancel 1#8 ha]⟩

/-- Settles O27: an unlocked block runs the pseudocode, whose check passes. -/
theorem gfCommandsComplete : Obligations.GfCommandsComplete := by
  refine fun s hs => ⟨fun a b => ?_, fun e => ?_, fun a b hb => ?_, fun a ha => ?_⟩
  · rw [exec, execGfMul, command_unlocked hs]
    rfl
  · rw [exec, execGfExp, command_unlocked hs]
    rfl
  · rw [exec, execGfDiv, command_unlocked hs, raiseIf_neg hb]
    rfl
  · rw [exec, execGfLog, command_unlocked hs, raiseIf_neg ha]
    rfl

end Sys2Proof.Machine
end

section
/-! SUPPORT. Polynomials as lists of coefficients: the value at a point, the generators, and adding to the front of one
(00_scope.md R14; 41_rs_encoder.md R80, R81, R83). -/

namespace Sys2Proof.Machine

/-! ### The field -/

theorem xor_gmul (a b c : Byte) : gmul (a ^^^ b) c = gmul a c ^^^ gmul b c := by
  rw [gmul_comm, gmul_xor, gmul_comm c a, gmul_comm c b]

theorem gmul_right_comm (a b c : Byte) : gmul (gmul a b) c = gmul (gmul a c) b := by
  rw [gmul_assoc, gmul_comm b c, ← gmul_assoc]

theorem gmul_left_comm (a b c : Byte) : gmul a (gmul b c) = gmul b (gmul a c) := by
  rw [← gmul_assoc, gmul_comm a b, gmul_assoc]

/-! ### The value of a polynomial -/

/-- A coefficient at the end is one step of Horner's scheme. -/
@[simp] theorem evalPoly_append_singleton (p : List Byte) (c x : Byte) :
    evalPoly (p ++ [c]) x = gmul (evalPoly p x) x ^^^ c := List.foldl_append

/-- A leading zero does not change the value. -/
@[simp] theorem evalPoly_zero_cons (p : List Byte) (x : Byte) : evalPoly (0#8 :: p) x = evalPoly p x := by
  simp [evalPoly]

/-- The value of a multiple is the multiple of the value. -/
theorem evalPoly_map_gmul (p : List Byte) (e x : Byte) :
    evalPoly (p.map fun c => gmul c e) x = gmul (evalPoly p x) e := by
  induction p using List.reverseRecOn with
  | nil => simp [evalPoly]
  | append_singleton p c ih =>
    rw [List.map_append, List.map_singleton, evalPoly_append_singleton, evalPoly_append_singleton, ih, xor_gmul,
      gmul_right_comm]

/-- The value of a sum is the sum of the values. -/
theorem evalPoly_zipWith_xor (x : Byte) : ∀ {p q : List Byte}, p.length = q.length →
    evalPoly (List.zipWith (· ^^^ ·) p q) x = evalPoly p x ^^^ evalPoly q x := by
  intro p
  induction p using List.reverseRecOn with
  | nil => intro q h; rw [List.eq_nil_of_length_eq_zero h.symm]; simp [evalPoly]
  | append_singleton p c ih =>
    intro q h
    obtain rfl | ⟨q, d, rfl⟩ := List.eq_nil_or_concat' q
    · simp at h
    · have hlen : p.length = q.length := by simpa using h
      rw [List.zipWith_append hlen, List.zipWith_cons_cons, List.zipWith_nil_right, evalPoly_append_singleton,
        evalPoly_append_singleton, evalPoly_append_singleton, ih hlen, xor_gmul, xor_xor_xor_comm]

/-- Multiplying by [1, e] multiplies the value at x by x + e (R80). -/
theorem evalPoly_timesLinear (p : List Byte) (e x : Byte) :
    evalPoly (timesLinear p e) x = gmul (evalPoly p x) (x ^^^ e) := by
  rw [timesLinear, evalPoly_zipWith_xor x (by simp), evalPoly_append_singleton, evalPoly_zero_cons, evalPoly_map_gmul,
    BitVec.xor_zero, gmul_xor]

/-- g_n vanishes at exp[0] to exp[n-1]: one factor is 0 there (R80). -/
theorem evalPoly_generator_root {n i : Nat} (h : i < n) : evalPoly (generator n) (gfExp i) = 0#8 := by
  induction n with
  | zero => omega
  | succ n ih =>
    rw [generator, evalPoly_timesLinear]
    obtain hlt | rfl := Nat.lt_succ_iff_lt_or_eq.1 h
    · rw [ih hlt, gmul_zero_left]
    · rw [BitVec.xor_self, gmul_zero_right]

/-! ### The printed generators (R83) -/

/-- Each printed row is the row before it times [1, exp[n]] (R80, R83). -/
theorem generatorRows_succ : ∀ n < 30,
    generatorRows.getD (n + 1) [] = timesLinear (generatorRows.getD n []) (gfExp n) := by decide +kernel

/-- The generators are the printed ones (R83). -/
theorem generator_eq_row {n : Nat} (h : n ≤ 30) : generator n = generatorRows.getD n [] := by
  induction n with
  | zero => rfl
  | succ n ih => rw [generator, ih (by omega), generatorRows_succ n h]

/-! ### Adding to the front -/

@[simp] theorem addToFront_nil_left (b : List Byte) : addToFront [] b = [] := rfl
@[simp] theorem addToFront_nil_right (a : List Byte) : addToFront a [] = a := by cases a <;> rfl
@[simp] theorem addToFront_cons (x y : Byte) (a b : List Byte) :
    addToFront (x :: a) (y :: b) = (x ^^^ y) :: addToFront a b := rfl

@[simp] theorem addToFront_length : ∀ a b : List Byte, (addToFront a b).length = a.length
  | [], _ => rfl
  | _ :: _, [] => rfl
  | _ :: a, _ :: b => congrArg (· + 1) (addToFront_length a b)

/-- A coefficient of the sum. -/
theorem addToFront_getD {a : List Byte} (b : List Byte) {i : Nat} (h : i < a.length) :
    (addToFront a b).getD i 0#8 = a.getD i 0#8 ^^^ b.getD i 0#8 := by
  induction a generalizing b i with
  | nil => simp at h
  | cons x a ih =>
    cases b with
    | nil => simp
    | cons y b =>
      cases i with
      | zero => simp
      | succ i => simpa using ih b (Nat.lt_of_succ_lt_succ h)

/-- Adding two lists in turn is adding the sum of the two, the longer one first. -/
theorem addToFront_addToFront (a : List Byte) {b c : List Byte} (h : b.length ≤ c.length) :
    addToFront (addToFront a b) c = addToFront a (addToFront c b) := by
  induction a generalizing b c with
  | nil => rfl
  | cons x a ih =>
    cases c with
    | nil => simp [List.eq_nil_of_length_eq_zero (Nat.le_zero.1 h)]
    | cons z c =>
      cases b with
      | nil => simp
      | cons y b => simp [ih (Nat.le_of_succ_le_succ h), BitVec.xor_assoc, BitVec.xor_comm y z]

/-- Adding zeros changes nothing. -/
@[simp] theorem addToFront_zeros (a : List Byte) (k : Nat) : addToFront a (List.replicate k 0#8) = a := by
  induction a generalizing k with
  | nil => rfl
  | cons x a ih => cases k <;> simp [List.replicate_succ, ih]

/-- Zeros give what is added to them. -/
theorem zeros_addToFront {k : Nat} {b : List Byte} (h : b.length = k) : addToFront (List.replicate k 0#8) b = b := by
  subst h
  induction b with
  | nil => rfl
  | cons y b ih => simp [List.replicate_succ, ih]

/-- A list added to itself cancels. -/
theorem addToFront_self_append (a m : List Byte) :
    addToFront (a ++ m) a = List.replicate a.length 0#8 ++ m := by
  induction a with
  | nil => simp
  | cons x a ih => simp [List.replicate_succ, ih]

/-- Adding is additive in both lists together. -/
theorem addToFront_zipWith_xor {a a' b b' : List Byte} (ha : a.length = a'.length) (hb : b.length = b'.length) :
    addToFront (List.zipWith (· ^^^ ·) a a') (List.zipWith (· ^^^ ·) b b') =
      List.zipWith (· ^^^ ·) (addToFront a b) (addToFront a' b') := by
  induction a generalizing a' b b' with
  | nil => rfl
  | cons x a ih =>
    obtain ⟨x', a', rfl⟩ := List.exists_cons_of_length_eq_add_one ha.symm
    cases b with
    | nil => rw [List.eq_nil_of_length_eq_zero hb.symm]; simp
    | cons y b =>
      obtain ⟨y', b', rfl⟩ := List.exists_cons_of_length_eq_add_one hb.symm
      simp [ih (Nat.succ.inj ha) (Nat.succ.inj hb), xor_xor_xor_comm x x']

/-- Adding commutes with taking a multiple of both lists. -/
theorem addToFront_map_gmul (c : Byte) (a b : List Byte) :
    addToFront (a.map (gmul c)) (b.map (gmul c)) = (addToFront a b).map (gmul c) := by
  induction a generalizing b with
  | nil => rfl
  | cons x a ih => cases b <;> simp [ih, gmul_xor]

end Sys2Proof.Machine
end

section
/-! SUPPORT. The long division: one reduction as an addition whatever the leading term, linearity, and the shift register it
amounts to (41_rs_encoder.md R81, R82, R88). -/

namespace Sys2Proof.Machine

variable {g : List Byte}

/-- The multiple 0 of a list. -/
theorem map_gmul_zero (p : List Byte) : p.map (fun c => gmul c 0#8) = List.replicate p.length 0#8 := by
  simp [List.map_const']

/-- A leading term 0 needs no case of its own: 0 times the divisor is added (R81). -/
theorem reduceLeading_cons (f : Byte) (m : List Byte) :
    reduceLeading g (f :: m) = addToFront m (g.tail.map fun c => gmul c f) := by
  by_cases hf : f = 0#8
  · rw [hf, map_gmul_zero, addToFront_zeros]
    rfl
  · simp [reduceLeading, hf]

@[simp] theorem reduceLeading_length (m : List Byte) : (reduceLeading g m).length = m.length - 1 := by
  cases m with
  | nil => rfl
  | cons f m => simp [reduceLeading_cons]

@[simp] theorem longDivision_length (k : Nat) (m : List Byte) : (longDivision g k m).length = m.length - k := by
  induction k generalizing m with
  | zero => rfl
  | succ k ih => simp [longDivision, ih, Nat.sub_sub, Nat.add_comm 1 k]

/-- There are n EC codewords (R81). -/
@[simp] theorem ecCodewords_length (data : List Byte) (n : Nat) : (ecCodewords data n).length = n := by
  simp [ecCodewords]

/-! ### Linearity (R89) -/

theorem reduceLeading_zipWith_xor {m m' : List Byte} (h : m.length = m'.length) :
    reduceLeading g (List.zipWith (· ^^^ ·) m m') =
      List.zipWith (· ^^^ ·) (reduceLeading g m) (reduceLeading g m') := by
  cases m with
  | nil => rfl
  | cons f m =>
    obtain ⟨f', m', rfl⟩ := List.exists_cons_of_length_eq_add_one h.symm
    have hmultiples : (g.tail.map fun c => gmul c (f ^^^ f')) =
        List.zipWith (· ^^^ ·) (g.tail.map fun c => gmul c f) (g.tail.map fun c => gmul c f') := by
      rw [List.zipWith_map, List.zipWith_self]
      simp only [gmul_xor]
    rw [List.zipWith_cons_cons, reduceLeading_cons, reduceLeading_cons, reduceLeading_cons, hmultiples,
      addToFront_zipWith_xor (Nat.succ.inj h) (by simp)]

theorem longDivision_zipWith_xor (k : Nat) {m m' : List Byte} (h : m.length = m'.length) :
    longDivision g k (List.zipWith (· ^^^ ·) m m') =
      List.zipWith (· ^^^ ·) (longDivision g k m) (longDivision g k m') := by
  induction k generalizing m m' with
  | zero => rfl
  | succ k ih => rw [longDivision, reduceLeading_zipWith_xor h, ih (by simp [h])]; rfl

theorem reduceLeading_map_gmul (c : Byte) (m : List Byte) :
    reduceLeading g (m.map (gmul c)) = (reduceLeading g m).map (gmul c) := by
  cases m with
  | nil => rfl
  | cons f m =>
    have hmultiples : (g.tail.map fun x => gmul x (gmul c f)) = (g.tail.map fun x => gmul x f).map (gmul c) := by
      rw [List.map_map]
      exact List.map_congr_left fun x _ => gmul_left_comm x c f
    rw [List.map_cons, reduceLeading_cons, reduceLeading_cons, hmultiples, addToFront_map_gmul]

theorem longDivision_map_gmul (k : Nat) (c : Byte) (m : List Byte) :
    longDivision g k (m.map (gmul c)) = (longDivision g k m).map (gmul c) := by
  induction k generalizing m with
  | zero => rfl
  | succ k ih => rw [longDivision, reduceLeading_map_gmul, ih]; rfl

/-- Dividing zeros leaves zeros. -/
theorem longDivision_zeros (k n : Nat) : longDivision g k (List.replicate (k + n) 0#8) = List.replicate n 0#8 := by
  induction k with
  | zero => simp [longDivision]
  | succ k ih =>
    rw [Nat.succ_add, List.replicate_succ, longDivision, reduceLeading_cons, map_gmul_zero, addToFront_zeros, ih]

/-! ### The shift register (R82) -/

/-- One step of the shift register R[0..n-1], as a list, for the divisor g (R82). -/
def shiftIn (g reg : List Byte) (d : Byte) : List Byte :=
  addToFront (g.tail.map fun c => gmul c (d ^^^ reg.getD 0 0#8)) reg.tail

@[simp] theorem shiftIn_length (reg : List Byte) (d : Byte) : (shiftIn g reg d).length = g.length - 1 := by
  simp [shiftIn]

/-- An entry of the register after a step (R82). -/
theorem shiftIn_getD (reg : List Byte) (d : Byte) {i : Nat} (h : i + 1 < g.length) :
    (shiftIn g reg d).getD i 0#8 =
      gmul (g.getD (i + 1) 0#8) (d ^^^ reg.getD 0 0#8) ^^^ reg.getD (i + 1) 0#8 := by
  have htail : ∀ l : List Byte, l.tail.getD i 0#8 = l.getD (i + 1) 0#8 := by
    intro l; cases l <;> simp
  have hzero := List.getD_map (d := 0#8) (l := g.tail) (n := i) fun c => gmul c (d ^^^ reg.getD 0 0#8)
  rw [gmul_zero_left] at hzero
  rw [shiftIn, addToFront_getD _ (by simp; omega), hzero, htail, htail]

/-- A reduction of a dividend to whose front the register is still to be added is a step of the register (R82, R88). -/
theorem reduceLeading_addToFront {reg : List Byte} (h : reg.length + 1 = g.length) (d : Byte) (m : List Byte) :
    reduceLeading g (addToFront (d :: m) reg) = addToFront m (shiftIn g reg d) := by
  cases reg with
  | nil => simp [reduceLeading_cons, shiftIn]
  | cons r reg =>
    have hle : reg.length ≤ (g.tail.map fun c => gmul c (d ^^^ r)).length := by simp at h ⊢; omega
    rw [addToFront_cons, reduceLeading_cons, addToFront_addToFront m hle]
    rfl

/-- The register fed with a block holds what the long division leaves (R88). -/
theorem longDivision_addToFront {data reg : List Byte} {n : Nat} (hg : g.length = n + 1) (h : reg.length = n) :
    longDivision g data.length (addToFront (data ++ List.replicate n 0#8) reg) = data.foldl (shiftIn g) reg := by
  induction data generalizing reg with
  | nil => exact zeros_addToFront h
  | cons d data ih =>
    rw [List.length_cons, longDivision, List.cons_append, reduceLeading_addToFront (by omega), ih (by simp [hg])]
    rfl

/-- Fed from zeros, the register holds the EC codewords (R88). -/
theorem foldl_shiftIn_zeros (data : List Byte) (n : Nat) :
    data.foldl (shiftIn (generator n)) (List.replicate n 0#8) = ecCodewords data n := by
  rw [← longDivision_addToFront (generator_length n) (by simp), addToFront_zeros, ecCodewords]

/-- Fed with its own contents, the register holds zeros: the dividend cancels (R88). -/
theorem foldl_shiftIn_self {reg : List Byte} {n : Nat} (hg : g.length = n + 1) (h : reg.length = n) :
    reg.foldl (shiftIn g) reg = List.replicate n 0#8 := by
  rw [← longDivision_addToFront hg h, addToFront_self_append, List.replicate_append_replicate, longDivision_zeros]

/-- A block followed by its own EC codewords has zeros for EC codewords (R88). -/
theorem ecCodewords_append_self (data : List Byte) (n : Nat) :
    ecCodewords (data ++ ecCodewords data n) n = List.replicate n 0#8 := by
  rw [← foldl_shiftIn_zeros, List.foldl_append, foldl_shiftIn_zeros,
    foldl_shiftIn_self (generator_length n) (ecCodewords_length data n)]

end Sys2Proof.Machine
end

section
/-! SUPPORT. The RS unit's commands in an unlocked block, an equation each, and the unit during a block (41_rs_encoder.md R84 to
R88). -/

namespace Sys2Proof.Machine

/-! ### The commands -/

/-- RS_START of an EC count within EC_MAX (R84). -/
theorem exec_rsStart {n : Byte} {s : State} (hf : s.fault = false) (hn : n.toNat ≤ s.params.ecMax.toNat) :
    exec (.rsStart n) s = .next { s with
      g := .held (generatorFile n.toNat s), r := .held (List.replicate s.params.ecMax.toNat 0#8),
      rsN := n, rsCnt := 0#16, rsActive := true } := by
  rw [exec, execRsStart, command_unlocked hf, raiseIf_neg (BitVec.not_lt.2 hn)]
  rfl

/-- RS_DATA during a block (R85). -/
theorem exec_rsData {s : State} (d : Byte) (hf : s.fault = false) (ha : s.rsActive = true) :
    exec (.rsData d) s = .next { s with r := .held (remainderStep d s), rsCnt := s.rsCnt + 1#16 } := by
  rw [exec, execRsData, command_unlocked hf, raiseIf_neg (by simp [ha])]
  rfl

/-- The two checks of RS_RDEC and RS_RDGEN, in their order (R86, R87; 60_exceptions.md R162). -/
theorem command_rsRead_fault {i : Instr} {p : Prop} [Decidable p] {k : State → Ran} {s : State} (hf : s.fault = false)
    (h : s.rsActive = false ∨ p) :
    command i (raiseIf (s.rsActive = false) .sequence <| raiseIf p .operandRange k) s =
      .next { s with fault := true, fcode := if s.rsActive = false then 3#4 else 4#4, faultCmd := encode i } := by
  rw [command_unlocked hf]
  by_cases ha : s.rsActive = false
  · rw [raiseIf_pos ha, if_pos ha]
    rfl
  · rw [raiseIf_neg ha, raiseIf_pos (h.resolve_left ha), if_neg ha]
    rfl

/-! ### The register files -/

@[simp] theorem getD_zeros (k i : Nat) : (List.replicate k 0#8).getD i 0#8 = 0#8 := by
  by_cases h : i < k
  · exact List.getD_replicate _ h
  · exact List.getD_eq_default _ _ (by simpa using h)

/-- Zeros at the end of a register file do not change what an entry reads as. -/
@[simp] theorem getD_append_zeros (l : List Byte) (k i : Nat) :
    (l ++ List.replicate k 0#8).getD i 0#8 = l.getD i 0#8 := by
  by_cases h : i < l.length
  · exact List.getD_append _ _ _ _ h
  · have hi : l.length ≤ i := Nat.le_of_not_lt h
    rw [List.getD_append_right _ _ _ _ hi, List.getD_eq_default _ _ hi, getD_zeros]

/-- An entry of G after RS_START, zero above the generator (10_state.md R34). -/
theorem readG_generatorFile {n : Nat} {s t : State} (h : t.g = .held (generatorFile n s)) (i : Nat) :
    readG t i = (generator n).getD i 0#8 := by
  rw [readG_held h, generatorFile, getD_append_zeros]

/-! ### The unit during a block -/

/-- The RS unit is on a block with n EC codewords, and R[0..n-1] holds `reg` (R84, R85). -/
structure Dividing (n : Nat) (reg : List Byte) (t : State) : Prop where
  unlocked : t.fault = false
  active : t.rsActive = true
  count : t.rsN.toNat = n
  count_le : n ≤ t.params.ecMax.toNat
  divisor : t.g = .held (generatorFile n t)
  reg_length : reg.length = n
  register : t.r = .held (reg ++ List.replicate (t.params.ecMax.toNat - n) 0#8)

theorem Dividing.readR {n : Nat} {reg : List Byte} {t : State} (h : Dividing n reg t) (i : Nat) :
    readR t i = reg.getD i 0#8 := by
  rw [readR_held h.register, getD_append_zeros]

theorem Dividing.readG {n : Nat} {reg : List Byte} {t : State} (h : Dividing n reg t) (i : Nat) :
    readG t i = (generator n).getD i 0#8 := readG_generatorFile h.divisor i

/-- RS_START begins a block with zeros in R (R84). -/
theorem exec_rsStart_dividing {n : Byte} {s : State} (hf : s.fault = false) (hn : n.toNat ≤ s.params.ecMax.toNat) :
    ∃ t, exec (.rsStart n) s = .next t ∧ t.params = s.params ∧ Dividing n.toNat (List.replicate n.toNat 0#8) t := by
  refine ⟨_, exec_rsStart hf hn, rfl, hf, rfl, rfl, hn, rfl, List.length_replicate, ?_⟩
  rw [List.replicate_append_replicate, Nat.add_sub_cancel' hn]

/-- The hardware's step is the shift register's, and the entries above stay zero (R82). -/
theorem Dividing.remainderStep {n : Nat} {reg : List Byte} {t : State} (h : Dividing n reg t) (d : Byte) :
    remainderStep d t = shiftIn (generator n) reg d ++ List.replicate (t.params.ecMax.toNat - n) 0#8 := by
  have hle := h.count_le
  refine List.ext_getElem (by simp; omega) fun i hi hi' => ?_
  have hmax : i < t.params.ecMax.toNat := by simpa using hi
  rw [← List.getD_eq_getElem _ 0#8 hi, ← List.getD_eq_getElem _ 0#8 hi', remainderStep_getD d t hmax, getD_append_zeros,
    h.count, h.readR, h.readR, h.readR, h.readG, h.readG]
  obtain hlt | heq | hgt := Nat.lt_trichotomy (i + 1) n
  · rw [if_pos hlt, shiftIn_getD _ _ (by simp; omega), BitVec.xor_comm]
  · have hreg : reg.getD (i + 1) 0#8 = 0#8 := List.getD_eq_default _ _ (by rw [h.reg_length, heq])
    rw [if_neg (by omega), if_pos heq, shiftIn_getD _ _ (by simp; omega), hreg, BitVec.xor_zero, heq]
  · have hreg : reg.getD i 0#8 = 0#8 := List.getD_eq_default _ _ (by rw [h.reg_length]; omega)
    rw [if_neg (by omega), if_neg (by omega), hreg, List.getD_eq_default _ _ (by simp; omega)]

/-- RS_DATA takes a codeword into the register (R85). -/
theorem Dividing.exec_rsData {n : Nat} {reg : List Byte} {t : State} (h : Dividing n reg t) (d : Byte) :
    ∃ u, exec (.rsData d) t = .next u ∧ u.params = t.params ∧ Dividing n (shiftIn (generator n) reg d) u := by
  refine ⟨_, Machine.exec_rsData d h.unlocked h.active, rfl, h.unlocked, h.active, h.count, h.count_le, h.divisor, by simp, ?_⟩
  rw [h.remainderStep]

/-- RS_DATA for each codeword of a block (R88). -/
theorem Dividing.execAll_rsData {n : Nat} (data : List Byte) {reg : List Byte} {t : State} (h : Dividing n reg t) :
    ∃ u, execAll (data.map .rsData) t = .next u ∧ u.params = t.params ∧
      Dividing n (data.foldl (shiftIn (generator n)) reg) u := by
  induction data generalizing reg t with
  | nil => exact ⟨t, rfl, rfl, h⟩
  | cons d data ih =>
    obtain ⟨u, hu, hparams, hdiv⟩ := h.exec_rsData d
    obtain ⟨v, hv, hparams', hdiv'⟩ := ih hdiv
    exact ⟨v, by rw [List.map_cons, execAll, hu]; exact hv, hparams'.trans hparams, hdiv'⟩

/-- RS_START and RS_DATA for each codeword of a block leave its EC codewords in the register (R88). -/
theorem execAll_block {n : Byte} {s : State} (data : List Byte) (hf : s.fault = false)
    (hn : n.toNat ≤ s.params.ecMax.toNat) :
    ∃ t, execAll (.rsStart n :: data.map .rsData) s = .next t ∧ t.params = s.params ∧
      Dividing n.toNat (ecCodewords data n.toNat) t := by
  obtain ⟨t, ht, hparams, hdiv⟩ := exec_rsStart_dividing hf hn
  obtain ⟨u, hu, hparams', hdiv'⟩ := hdiv.execAll_rsData data
  rw [foldl_shiftIn_zeros] at hdiv'
  exact ⟨u, by rw [execAll, ht]; exact hu, hparams'.trans hparams, hdiv'⟩

end Sys2Proof.Machine
end

section
/-! The obligations about the RS unit (41_rs_encoder.md). -/

namespace Sys2Proof.Machine

/-- Settles O29: the generators from the printed rows, the exponent forms read off them. -/
theorem printedGenerators : Obligations.PrintedGenerators := by
  refine ⟨fun n => generator_eq_row, ?_, ?_⟩
  · rw [generator_eq_row (by decide)]
    rfl
  · rw [generator_eq_row (by decide)]
    rfl

/-- Settles O30: each linear factor keeps the leading 1 and adds its root. -/
theorem generatorIsMonicWithItsRoots : Obligations.GeneratorIsMonicWithItsRoots := by
  intro n _
  obtain ⟨rest, hrest⟩ := generator_eq_cons n
  exact ⟨generator_length n, by rw [hrest]; rfl, fun i => evalPoly_generator_root⟩

/-- Settles O31: the register files RS_START writes, read entry by entry. -/
theorem rsStartCompletes : Obligations.RsStartCompletes := by
  intro n s hf hn
  refine ⟨_, exec_rsStart hf hn, rfl, fun j _ => readG_generatorFile rfl j, fun j hj _ => ?_, fun j _ => ?_⟩
  · rw [readG_generatorFile rfl, List.getD_eq_default _ _ (by simpa using hj)]
  · rw [readR_held rfl, getD_zeros]

/-- Settles O32: the register file RS_DATA writes, by the three ranges of its entries. -/
theorem rsDataCompletes : Obligations.RsDataCompletes := by
  intro d s hf ha hn
  refine ⟨_, exec_rsData d hf ha, rfl, fun j hj => ?_, fun j hj => ?_, fun j hj hmax => ?_⟩
  · rw [readR_held rfl, remainderStep_getD d s (by omega), if_pos hj]
  · rw [readR_held rfl, remainderStep_getD d s (by omega), if_neg (by omega), if_pos hj]
  · rw [readR_held rfl, remainderStep_getD d s hmax, if_neg (by omega), if_neg (by omega)]

/-- Settles O33: an unlocked block runs the pseudocode, whose checks pass. -/
theorem rsReadsComplete : Obligations.RsReadsComplete := by
  intro i s hf ha
  have hactive : ¬s.rsActive = false := by simp [ha]
  refine ⟨fun hi => ?_, fun hi => ?_⟩
  · rw [exec, execRsRdec, command_unlocked hf, raiseIf_neg hactive, raiseIf_neg (BitVec.not_le.2 hi)]
    rfl
  · rw [exec, execRsRdgen, command_unlocked hf, raiseIf_neg hactive, raiseIf_neg (BitVec.not_lt.2 hi)]
    rfl

/-- Settles O34: the first check that fails raises its fault. -/
theorem rsUnitFaults : Obligations.RsUnitFaults := by
  refine fun s hf => ⟨fun n hn => ?_, fun d ha => ?_, fun i h => command_rsRead_fault hf h,
    fun i h => command_rsRead_fault hf h⟩
  · rw [exec, execRsStart, command_unlocked hf, raiseIf_pos (show ecCountTooLarge n s from hn)]
    rfl
  · rw [exec, execRsData, command_unlocked hf, raiseIf_pos ha]
    rfl

/-- Settles O36: the register holds the EC codewords, and R is the register with zeros above it. -/
theorem remainderIsTheLongDivision : Obligations.RemainderIsTheLongDivision := by
  intro s n data hf hn
  obtain ⟨t, ht, hparams, hdiv⟩ := execAll_block data hf hn
  refine ⟨t, _, ht, hdiv.unlocked, hdiv.register, ?_, List.take_left' hdiv.reg_length, fun j hj => ?_⟩
  · rw [List.length_append, hdiv.reg_length, List.length_replicate, hparams, Nat.add_sub_cancel' hn]
  · rw [getD_append_zeros, List.getD_eq_default _ _ (by rwa [hdiv.reg_length])]

/-- Settles O37: the register, fed with its own contents, holds zeros. -/
theorem codewordLeavesZeroRemainder : Obligations.CodewordLeavesZeroRemainder := by
  intro s n data hf hn
  obtain ⟨t, ht, -, hdiv⟩ := execAll_block (data ++ ecCodewords data n.toNat) hf hn
  rw [ecCodewords_append_self] at hdiv
  exact ⟨t, ht, hdiv.unlocked, fun j _ => by rw [hdiv.readR, getD_zeros]⟩

/-- Settles O38: each reduction of the long division is linear, and the generator is monic. -/
theorem ecCodewordsAreLinear : Obligations.EcCodewordsAreLinear := by
  refine ⟨fun n a b h => ?_, fun n c a => ?_, fun n k => ?_, fun n d => ?_⟩
  · have hzeros : List.replicate n 0#8 = List.zipWith (· ^^^ ·) (List.replicate n 0#8) (List.replicate n 0#8) := by
      simp
    have hlen : (List.zipWith (· ^^^ ·) a b).length = a.length := by simp [h]
    rw [ecCodewords, hlen, hzeros, ← List.zipWith_append h, longDivision_zipWith_xor _ (by simp [h])]
    simp only [ecCodewords, h]
  · have hzeros : List.replicate n 0#8 = (List.replicate n 0#8).map (gmul c) := by simp
    rw [ecCodewords, List.length_map, hzeros, ← List.map_append, longDivision_map_gmul, ecCodewords]
  · rw [ecCodewords, List.length_replicate, List.replicate_append_replicate, longDivision_zeros]
  · have hmultiple : (fun c => gmul c d) = gmul d := funext fun c => gmul_comm c d
    have hstep : ecCodewords [d] n = reduceLeading (generator n) (d :: List.replicate n 0#8) := rfl
    rw [hstep, reduceLeading_cons, hmultiple, zeros_addToFront (by simp)]

end Sys2Proof.Machine
end

section
/-! SUPPORT. The whole path as a list: its cells in order of how many are left, the directions of its pairs, and its last cell
(42_placer.md R131, R133). -/

namespace Sys2Proof.Machine

/-! ### One cell of the path -/

/-- Going up is having an odd number of pairs still to come (R131). -/
theorem pairGoesUp_iff {size right : Nat} (h : isPairRight size right) : pairGoesUp right = true ↔ pairsAfter right % 2 = 1 := by
  obtain ⟨h8, -, heven⟩ | rfl | rfl | rfl := h
  · simp only [pairGoesUp, pairsAfter, h8, if_true, beq_iff_eq]
    omega
  · decide
  · decide
  · decide

/-- The pairs still to come, from the cells still to come: each pair has 2 * S of them (R133). -/
theorem pairsAfter_eq_cellsLeft_div {size : Nat} {c : Cursor} (hc : c.onPath size) (hd : c.done = false) :
    pairsAfter (pairRight c) = (cellsLeft size c - 1) / (2 * size) := by
  obtain ⟨hrow, -⟩ := hc
  obtain ⟨extra, hextra, hleft⟩ :
      ∃ extra < 2 * size, cellsLeft size c = pairsAfter (pairRight c) * (2 * size) + extra + 1 := by
    refine ⟨2 * (if c.up then c.row.toNat else size - 1 - c.row.toNat) + (if c.right then 2 else 1) - 1, ?_, ?_⟩
    · split <;> split <;> omega
    · rw [cellsLeft, if_neg (by simp [hd])]
      split <;> split <;> omega
  rw [hleft, Nat.add_sub_cancel, Nat.mul_comm, Nat.mul_add_div (by omega), Nat.div_eq_of_lt hextra, Nat.add_zero]

/-- The direction at a cell, from how many cells are left. -/
theorem onPath_up_iff {size : Nat} {c : Cursor} (hc : c.onPath size) (hd : c.done = false) :
    c.up = true ↔ (cellsLeft size c - 1) / (2 * size) % 2 = 1 := by
  obtain ⟨-, hpair, hup, -⟩ := id hc
  rw [hup, pairGoesUp_iff hpair, pairsAfter_eq_cellsLeft_div hc hd]

/-- No cell of the path is in column 6 (R133). -/
theorem onPath_col_ne_six {size : Nat} {c : Cursor} (hc : c.onPath size) : c.col.toNat ≠ 6 := by
  obtain ⟨-, hpair, -, -⟩ := hc
  unfold pairRight at hpair
  split at hpair <;> omega

theorem onPath_eq_cursorEnd {size : Nat} {c : Cursor} (hc : c.onPath size) (hd : c.done = true) : c = cursorEnd size := by
  obtain ⟨-, -, -, hend⟩ := hc
  exact hend hd

/-- Only the last cell of the path steps to its end (R131, R133). -/
theorem eq_of_pathStep_eq_cursorEnd {size : Nat} {c : Cursor} (hd : c.done = false) (h : pathStep size c = cursorEnd size) :
    c = { cursorEnd size with done := false } := by
  have hdone : (pathStep size c).done = true := by rw [h]; rfl
  have hstep : pathStep size c = { c with done := true } := by
    unfold pathStep at hdone ⊢
    split_ifs at hdone ⊢
    any_goals exact absurd (hd.symm.trans hdone) (by decide)
    rfl
  rw [← h, hstep, ← hd]

/-! ### The path from a cell on -/

/-- Induction along the path from its end back: what holds after a step passes to the cell before it (R131). -/
theorem onPath_induction {size : Nat} (h : legalSize size) {P : ∀ c : Cursor, c.onPath size → Prop}
    (finished : P (cursorEnd size) (cursorEnd_onPath h))
    (cell : ∀ (c : Cursor) (hc : c.onPath size) (hd : c.done = false),
      P (pathStep size c) (pathStep_onPath h hc hd).1 → P c hc)
    (c : Cursor) (hc : c.onPath size) : P c hc := by
  induction hn : cellsLeft size c using Nat.strong_induction_on generalizing c with
  | _ n ih =>
    cases hd : c.done
    · obtain ⟨hp, hleft⟩ := pathStep_onPath h hc hd
      exact cell c hc hd (ih _ (by omega) _ hp rfl)
    · obtain rfl := onPath_eq_cursorEnd hc hd
      exact finished

@[simp] theorem pathFrom_cursorEnd (size : Nat) : pathFrom size (cursorEnd size) = [] := pathFrom_done rfl

/-- The path from a cell on has the cells that are left (R133). -/
theorem pathFrom_length {size : Nat} (h : legalSize size) {c : Cursor} (hc : c.onPath size) :
    (pathFrom size c).length = cellsLeft size c := by
  induction c, hc using onPath_induction h with
  | finished => simp
  | cell c hc hd ih => rw [pathFrom_cons h hc hd, List.length_cons, ih, (pathStep_onPath h hc hd).2]

/-- The i-th cell from a cell on has i cells fewer left. -/
theorem pathFrom_getElem? {size : Nat} (h : legalSize size) {c : Cursor} (hc : c.onPath size) :
    ∀ (i : Nat) (x : Cursor), (pathFrom size c)[i]? = some x →
      x.onPath size ∧ x.done = false ∧ cellsLeft size x + i = cellsLeft size c := by
  induction c, hc using onPath_induction h with
  | finished => simp
  | cell c hc hd ih =>
    obtain ⟨-, hleft⟩ := pathStep_onPath h hc hd
    intro i x hx
    rw [pathFrom_cons h hc hd] at hx
    cases i with
    | zero =>
      obtain rfl := Option.some.inj hx
      exact ⟨hc, hd, rfl⟩
    | succ i =>
      obtain ⟨hp, hnd, hi⟩ := ih i x hx
      exact ⟨hp, hnd, by omega⟩

/-- No cell is visited twice (R133). -/
theorem pathFrom_nodup {size : Nat} (h : legalSize size) {c : Cursor} (hc : c.onPath size) :
    ((pathFrom size c).map fun x => (x.row.toNat, x.col.toNat)).Nodup := by
  induction c, hc using onPath_induction h with
  | finished => simp
  | cell c hc hd ih =>
    rw [pathFrom_cons h hc hd, List.map_cons, List.nodup_cons]
    refine ⟨fun hmem => ?_, ih⟩
    obtain ⟨x, hx, heq⟩ := List.mem_map.1 hmem
    obtain ⟨hp, hleft⟩ := pathStep_onPath h hc hd
    obtain ⟨hxp, hxd, hxleft⟩ := mem_pathFrom h _ _ x rfl hp hx
    obtain rfl := onPath_ext hxp hc hxd hd (congrArg Prod.fst heq) (congrArg Prod.snd heq)
    omega

/-- The path ends on (S-1, 0), reached moving down (R133). -/
theorem pathFrom_getLast? {size : Nat} (h : legalSize size) {c : Cursor} (hc : c.onPath size) (hd : c.done = false) :
    (pathFrom size c).getLast? = some { cursorEnd size with done := false } := by
  induction c, hc using onPath_induction h with
  | finished => exact absurd hd (by simp [cursorEnd])
  | cell c hc _ ih =>
    obtain ⟨hp, -⟩ := pathStep_onPath h hc hd
    rw [pathFrom_cons h hc hd]
    cases hnext : (pathStep size c).done
    · rw [List.getLast?_cons, ih hnext]
      rfl
    · rw [pathFrom_done hnext, List.getLast?_singleton, eq_of_pathStep_eq_cursorEnd hd (onPath_eq_cursorEnd hp hnext)]

/-- From its last cell the walk ends (R131, R133). -/
theorem pathStep_lastCell {size : Nat} (h : legalSize size) :
    pathStep size { cursorEnd size with done := false } = cursorEnd size := by
  have hrow : (BitVec.ofNat 8 (size - 1)).toNat = size - 1 := toNat_ofNat_of_lt (by omega)
  simp only [pathStep, cursorEnd, hrow]
  simp

/-! ### The whole path -/

/-- The rows and columns of the grid off column 6 (R133). -/
def gridOffColumnSix (size : Nat) : Finset (Nat × Nat) := Finset.range size ×ˢ (Finset.range size).erase 6

theorem mem_gridOffColumnSix {size r q : Nat} : (r, q) ∈ gridOffColumnSix size ↔ r < size ∧ q ≠ 6 ∧ q < size := by
  simp [gridOffColumnSix]

theorem card_gridOffColumnSix {size : Nat} (h : legalSize size) : (gridOffColumnSix size).card = size * (size - 1) := by
  have h6 : 6 ∈ Finset.range size := Finset.mem_range.2 (by omega)
  rw [gridOffColumnSix, Finset.card_product, Finset.card_erase_of_mem h6, Finset.card_range]

/-- The cells of the path are the grid off column 6: they lie in it, and there are as many of one as of the other (R133). -/
theorem path_toFinset {size : Nat} (h : legalSize size) :
    ((pathFrom size (cursorStart size)).map fun c => (c.row.toNat, c.col.toNat)).toFinset = gridOffColumnSix size := by
  obtain ⟨hstart, hcells⟩ := cursorStart_onPath h
  refine Finset.eq_of_subset_of_card_le (fun p hp => ?_) ?_
  · obtain ⟨c, hc, rfl⟩ := List.mem_map.1 (List.mem_toFinset.1 hp)
    obtain ⟨hon, -, -⟩ := mem_pathFrom h _ _ c rfl hstart hc
    exact mem_gridOffColumnSix.2 ⟨hon.1, onPath_col_ne_six hon, onPath_col_lt h hon⟩
  · rw [card_gridOffColumnSix h, List.toFinset_card_of_nodup (pathFrom_nodup h hstart), List.length_map,
      pathFrom_length h hstart, hcells]

/-- The path reaches every cell off column 6 (R133). -/
theorem exists_mem_path {size : Nat} (h : legalSize size) {r q : Nat} (hr : r < size) (hq : q < size) (h6 : q ≠ 6) :
    ∃ c ∈ pathFrom size (cursorStart size), c.row.toNat = r ∧ c.col.toNat = q := by
  have hmem : (r, q) ∈ gridOffColumnSix size := mem_gridOffColumnSix.2 ⟨hr, h6, hq⟩
  rw [← path_toFinset h] at hmem
  obtain ⟨c, hc, heq⟩ := List.mem_map.1 (List.mem_toFinset.1 hmem)
  exact ⟨c, hc, congrArg Prod.fst heq, congrArg Prod.snd heq⟩

/-- For S = 21 the direction reverses after every 42 cells of the 420 (R133). -/
theorem path21_up_ne_iff {i : Nat} {c d : Cursor} (hi : i < 419) (hc : (pathFrom 21 (cursorStart 21))[i]? = some c)
    (hd : (pathFrom 21 (cursorStart 21))[i + 1]? = some d) : c.up ≠ d.up ↔ (i + 1) % 42 = 0 := by
  have h : legalSize 21 := by decide
  obtain ⟨hstart, hcells⟩ := cursorStart_onPath h
  obtain ⟨hcp, hcd, hcleft⟩ := pathFrom_getElem? h hstart i c hc
  obtain ⟨hdp, hdd, hdleft⟩ := pathFrom_getElem? h hstart (i + 1) d hd
  rw [Ne, Bool.eq_iff_iff, onPath_up_iff hcp hcd, onPath_up_iff hdp hdd]
  omega

end Sys2Proof.Machine
end

section
/-! SUPPORT. The placement unit's commands in an unlocked block, an equation each (42_placer.md R135 to R140). -/

namespace Sys2Proof.Machine

/-- A module of a matrix is an entry of MODMEM (20_memory.md R41, R42). -/
theorem cellIndex_lt {s : State} (hv : s.ver.toNat ≤ 40) {row col : Byte} (hc : ¬cellOutside row col s) :
    cellIndex s.size row.toNat col.toNat < Config.modmemSize := by
  simp only [cellOutside, not_or, Nat.not_le] at hc
  obtain ⟨hrow, hcol⟩ := hc
  have hsize : s.size ≤ 177 := by
    unfold State.size sideOf
    split <;> omega
  have hmul := Nat.mul_le_mul (show row.toNat ≤ 176 by omega) hsize
  simp only [cellIndex, Config.modmemSize]
  omega

/-- MTX_INIT of a legal version (R135). -/
theorem exec_mtxInit {v : Byte} {s : State} (hf : s.fault = false) (hv : ¬versionOutside v) :
    exec (.mtxInit v) s = .next { s with
      ver := v, modmem := .allUnset, cursor := cursorStart (sideOf v), plCnt := 0#16, phase := .build } := by
  rw [exec, execMtxInit, command_unlocked hf, raiseIf_neg hv]
  rfl

/-- MOD_RSV in BUILD for a module of the matrix: its check of the module (R136). -/
theorem exec_modRsv {row col : Byte} {dark : Bool} {s : State} (hf : s.fault = false) (hp : s.phase = .build)
    (hv : s.ver.toNat ≤ 40) (hc : ¬cellOutside row col s) :
    exec (.modRsv row col dark) s =
      if moduleKind (s.modmem.get (cellIndex s.size row.toNat col.toNat)) ≠ 0#2 then
        .next (recordFault .moduleOverwrite (encode (.modRsv row col dark)) s)
      else
        .next { s with modmem := s.modmem.put (cellIndex s.size row.toNat col.toNat) (reservedCode dark) } := by
  have hlt := cellIndex_lt hv hc
  rw [exec, execModRsv, command_unlocked hf, raiseIf_neg (not_not.2 hp), raiseIf_neg hc]
  simp only [memRead_eq hlt]
  split
  · next hset => rw [raiseIf_pos hset]; rfl
  · next hunset => rw [raiseIf_neg hunset, memWrite_eq hlt]; rfl

/-- MOD_RD with a matrix, for a module of it (R137). -/
theorem exec_modRd {row col : Byte} {s : State} (hf : s.fault = false) (hp : s.phase ≠ .idle)
    (hv : s.ver.toNat ≤ 40) (hc : ¬cellOutside row col s) :
    exec (.modRd row col) s = .next (setResult (s.modmem.get (cellIndex s.size row.toNat col.toNat)) s) := by
  rw [exec, execModRd, command_unlocked hf, raiseIf_neg hp, raiseIf_neg hc]
  simp only [memRead_eq (cellIndex_lt hv hc)]
  rfl

/-- A command whose check fails records that check's fault and does nothing else (43_control.md R150; 60_exceptions.md R160). -/
theorem command_check_fails {i : Instr} {p : Prop} [Decidable p] {c : FaultCode} {k : State → Ran} {s : State}
    (hf : s.fault = false) (hp : p) : command i (raiseIf p c k) s = .next (recordFault c (encode i) s) := by
  rw [command_unlocked hf, raiseIf_pos hp]
  rfl

/-- So does one whose first check passes and second fails (60_exceptions.md R162). -/
theorem command_second_check_fails {i : Instr} {p q : Prop} [Decidable p] [Decidable q] {c d : FaultCode} {k : State → Ran}
    {s : State} (hf : s.fault = false) (hp : ¬p) (hq : q) :
    command i (raiseIf p c <| raiseIf q d k) s = .next (recordFault d (encode i) s) := by
  rw [command_unlocked hf, raiseIf_neg hp, raiseIf_pos hq]
  rfl

/-- PL_DATA and PL_FINISH in IDLE and FINISHED fail their check (R138, R140). -/
theorem not_placing {s : State} (h : s.phase = .idle ∨ s.phase = .finished) : s.phase ≠ .build ∧ s.phase ≠ .place := by
  obtain hp | hp := h <;> simp [hp]

end Sys2Proof.Machine
end

section
/-! SUPPORT. PL_DATA and PL_FINISH in BUILD and PLACE, from the Unset cells ahead (42_placer.md R138, R140). -/

namespace Sys2Proof.Machine

/-- A PL_DATA that leaves the block unlocked has placed its eight bits (R138). -/
theorem placeBits_of_exec_plData {d : Byte} {s t : State} (hs : s.fault = false) (ht : t.fault = false)
    (h : exec (.plData d) s = .next t) : placeBits (bitsMsbFirst d) { s with phase := .place } = .done t := by
  obtain ⟨hl, -⟩ | ⟨-, hdone⟩ | ⟨-, c, u, -, rfl⟩ := command_eq_next h
  · exact absurd (hl.symm.trans hs) (by decide)
  · exact (raiseIf_eq_done.1 hdone).2
  · exact absurd ht (by simp)

/-- Bits placed from a state whose phase alone was changed: what is counted, and what stays. -/
theorem Placed.frame_plCnt {s t : State} {bs : List Bool} (h : Placed { s with phase := .place } bs t) :
    t = { s with phase := .place, modmem := t.modmem, cursor := t.cursor,
                 plCnt := s.plCnt + BitVec.ofNat 16 bs.length } := by
  have hcount : t.plCnt = s.plCnt + BitVec.ofNat 16 bs.length := h.count
  rw [← hcount]
  exact h.frame

/-- Bits placed from such a state: where they stand, and what stays (R134, R138). -/
theorem Placed.modules_of_inv {s t : State} {bs : List Bool} (h : Placed { s with phase := .place } bs t) (hs : s.Inv)
    (hp : s.phase ≠ .idle) :
    (∀ (j : Nat) (u : Cursor) (b : Bool), (unsetAhead s)[j]? = some u → bs[j]? = some b →
      t.modmem.get (cellOf s.size u) = dataCode b) ∧
    (∀ idx, (∀ u ∈ (unsetAhead s).take bs.length, cellOf s.size u ≠ idx) → t.modmem.get idx = s.modmem.get idx) :=
  placed_modules (s := { s with phase := .place }) h (inv_legalSize (s := s) hs hp) (hs.on_path hp)

theorem finishRemainder_fatal {s : State} (hd : s.cursor.done = false) (hp : s.params.policy = .fatal) :
    finishRemainder s = .raised .plUnderrun s := by
  simp [finishRemainder, hd, hp]

theorem finishRemainder_zeroFill {s : State} (hd : s.cursor.done = false) (hp : s.params.policy = .zeroFill) :
    finishRemainder s = zeroFill s := by
  simp [finishRemainder, hd, hp]

/-- PL_FINISH with no Unset cell ahead (R140). -/
theorem exec_plFinish_of_nil {s : State} (h : s.Inv) (hf : s.fault = false) (hp : s.phase = .build ∨ s.phase = .place)
    (hu : unsetAhead s = []) : exec .plFinish s = .next { s with phase := .finished, cursor := cursorEnd s.size } := by
  obtain ⟨hidle, -⟩ := placing_phase hp
  obtain ⟨c, hseek, -, -, -, ⟨-, rfl⟩ | ⟨us, hcons, -⟩⟩ := seek_spec (inv_legalSize h hidle) (h.on_path hidle)
  · rw [execPlFinish_placing hf hp, hseek]
    rfl
  · simp [hu] at hcons

/-- PL_FINISH with an Unset cell ahead: REMAINDER_POLICY decides on the first of them (R140). -/
theorem exec_plFinish_of_cons {s : State} (h : s.Inv) (hf : s.fault = false) (hp : s.phase = .build ∨ s.phase = .place)
    {u : Cursor} {us : List Cursor} (hu : unsetAhead s = u :: us) :
    exec .plFinish s = ((finishRemainder { s with cursor := u }).andThen fun t =>
      .done { t with phase := .finished }).outcome (encode .plFinish) ∧
    u.onPath s.size ∧ u.done = false ∧ unsetAhead { s with cursor := u } = unsetAhead s := by
  obtain ⟨hidle, -⟩ := placing_phase hp
  obtain ⟨c, hseek, hc, hahead, -, ⟨hnil, -⟩ | ⟨us', hcons, hnd, -⟩⟩ := seek_spec (inv_legalSize h hidle) (h.on_path hidle)
  · simp [hu] at hnil
  · obtain ⟨rfl, -⟩ := List.cons.inj (hu.symm.trans hcons)
    refine ⟨?_, hc, hnd, hahead⟩
    rw [execPlFinish_placing hf hp, hseek, andThen_done]

end Sys2Proof.Machine
end

section
/-! SUPPORT. A module that is not Unset is kept: what every command but MTX_INIT and RESET does to MODMEM, from any state
(42_placer.md R125). -/

namespace Sys2Proof.Machine

/-- No module that is not Unset differs (R125). -/
def SetKept (s t : State) : Prop :=
  ∀ idx, moduleKind (s.modmem.get idx) ≠ 0#2 → t.modmem.get idx = s.modmem.get idx

theorem SetKept.refl (s : State) : SetKept s s := fun _ _ => rfl

theorem SetKept.trans {s t u : State} (h1 : SetKept s t) (h2 : SetKept t u) : SetKept s u := fun idx hset =>
  (h2 idx (by rwa [h1 idx hset])).trans (h1 idx hset)

/-- Pseudocode that writes Unset modules alone, whether it ends or raises. -/
abbrev KeepsSet (s : State) (x : Ran) : Prop := x.Ends (SetKept s) (SetKept s)

theorem KeepsSet.of_setKept {s t : State} {x : Ran} (h : SetKept s t) (hx : KeepsSet t x) : KeepsSet s x :=
  hx.mono (fun _ => h.trans) (fun _ => h.trans)

theorem keepsSet_andThen {s : State} {x : Ran} {k : State → Ran} (hx : KeepsSet s x) (hk : ∀ t, KeepsSet t (k t)) :
    KeepsSet s (x.andThen k) :=
  ends_andThen hx fun t ht => (hk t).of_setKept ht

theorem keepsSet_raiseIf {p : Prop} [Decidable p] {c : FaultCode} {k : State → Ran} {s : State}
    (hk : ¬p → KeepsSet s (k s)) : KeepsSet s (raiseIf p c k s) :=
  ends_raiseIf (.refl s) hk

/-- A write to an Unset module. -/
theorem memWrite_keepsSet {idx : Nat} (c : ModCode) {s : State} (hu : moduleKind (s.modmem.get idx) = 0#2) :
    KeepsSet s (memWrite idx c s) := by
  unfold memWrite
  split
  · intro j hset
    exact ModMem.get_put_other _ c fun hj => hset (hj ▸ hu)
  · trivial

theorem memRead_eq_ok {idx : Nat} {c : ModCode} {s : State} (h : memRead idx s = .ok c) : c = s.modmem.get idx := by
  unfold memRead at h
  split at h
  · exact (Except.ok.inj h).symm
  · cases h

/-- Where a seek ends: MODMEM as it was, and the walk over or the cursor on an Unset module (R132). -/
def SeekEnd (s t : State) : Prop :=
  t.modmem = s.modmem ∧ (t.cursor.done = true ∨ moduleKind (t.modmem.get (cursorIndex t)) = 0#2)

theorem SeekEnd.setKept {s t : State} (h : SeekEnd s t) : SetKept s t := fun idx _ => by rw [h.1]

theorem seekWithin_ends : ∀ (k : Nat) (s : State), (seekWithin k s).Ends (SeekEnd s) (SetKept s)
  | 0, _ => trivial
  | k + 1, s => by
    unfold seekWithin
    split
    · next hd => exact ⟨rfl, .inl hd⟩
    · split
      · trivial
      · next c hc =>
        split
        · next hu => exact ⟨rfl, .inr (memRead_eq_ok hc ▸ hu)⟩
        · exact seekWithin_ends k (stepCursor s)

/-- What is done at the cell a seek found, when it found one. -/
theorem keepsSet_seek {k : State → Ran} {s : State}
    (hk : ∀ t, t.cursor.done = true ∨ moduleKind (t.modmem.get (cursorIndex t)) = 0#2 → KeepsSet t (k t)) :
    KeepsSet s ((seek s).andThen k) :=
  ends_andThen (seekWithin_ends _ s) fun t ht => (hk t ht.2).of_setKept ht.setKept

theorem placeBit_keepsSet (b : Bool) (s : State) : KeepsSet s (placeBit b s) :=
  keepsSet_seek fun _ ht => keepsSet_raiseIf fun hd =>
    keepsSet_andThen (memWrite_keepsSet _ (ht.resolve_left hd)) fun u => SetKept.refl u

theorem placeBits_keepsSet : ∀ (bs : List Bool) (s : State), KeepsSet s (placeBits bs s)
  | [], s => .refl s
  | b :: bs, s => keepsSet_andThen (placeBit_keepsSet b s) (placeBits_keepsSet bs)

theorem zeroFillWithin_keepsSet : ∀ (k : Nat) (s : State), KeepsSet s (zeroFillWithin k s)
  | 0, _ => trivial
  | k + 1, s => keepsSet_seek fun t ht => by
    split
    · exact .refl t
    · next hd =>
      exact keepsSet_andThen (memWrite_keepsSet _ (ht.resolve_left hd)) fun u => zeroFillWithin_keepsSet k (stepCursor u)

theorem finishRemainder_keepsSet (s : State) : KeepsSet s (finishRemainder s) := by
  unfold finishRemainder
  split
  · exact .refl s
  · split
    · exact .refl s
    · exact zeroFillWithin_keepsSet _ s

/-- A command keeps what its pseudocode keeps in an unlocked block (43_control.md R150, R151). -/
theorem command_setKept {i : Instr} {body : State → Ran} {s t : State} (h : command i body s = .next t)
    (hb : KeepsSet s (body s)) : SetKept s t := by
  obtain ⟨-, rfl⟩ | ⟨-, ht⟩ | ⟨-, c, u, hu, rfl⟩ := command_ends h fun _ => hb
  · exact .refl _
  · exact ht
  · exact hu

/-- Every command but MTX_INIT and RESET keeps the modules that are not Unset. -/
theorem exec_setKept {i : Instr} {s t : State} (hr : i ≠ .reset) (hm : ∀ v, i ≠ .mtxInit v) (h : exec i s = .next t) :
    SetKept s t := by
  have hs := SetKept.refl s
  cases i with
  | reset => exact absurd rfl hr
  | mtxInit v => exact absurd rfl (hm v)
  | nop => exact command_setKept h hs
  | gfMul a b =>
    unfold exec execGfMul at h
    exact command_setKept h hs
  | gfExp e =>
    unfold exec execGfExp at h
    exact command_setKept h hs
  | gfDiv _ _ | gfLog _ | rsStart _ | rsData _ => exact command_setKept h (keepsSet_raiseIf fun _ => hs)
  | rsRdec _ | rsRdgen _ => exact command_setKept h (keepsSet_raiseIf fun _ => keepsSet_raiseIf fun _ => hs)
  | modRsv row col dark =>
    refine command_setKept h (keepsSet_raiseIf fun _ => keepsSet_raiseIf fun _ => ?_)
    dsimp only
    split
    · trivial
    · next c hc => exact keepsSet_raiseIf fun hu => memWrite_keepsSet _ (memRead_eq_ok hc ▸ not_not.1 hu)
  | modRd row col =>
    refine command_setKept h (keepsSet_raiseIf fun _ => keepsSet_raiseIf fun _ => ?_)
    split
    · trivial
    · exact hs
  | plData d => exact command_setKept h (keepsSet_raiseIf fun _ => placeBits_keepsSet _ { s with phase := .place })
  | plFinish =>
    exact command_setKept h (keepsSet_raiseIf fun _ =>
      keepsSet_andThen (keepsSet_andThen ((seekWithin_ends _ s).mono (fun _ => SeekEnd.setKept) fun _ => id)
        finishRemainder_keepsSet) fun u => SetKept.refl u)

end Sys2Proof.Machine
end

section
/-! The obligations about the placement unit (42_placer.md). -/

namespace Sys2Proof.Machine

/-- Settles O43: what a step does to the cells left, and a count of the grid. -/
theorem pathVisitsEveryCellOnce : Obligations.PathVisitsEveryCellOnce := by
  refine ⟨fun v h1 h40 => ?_, fun i hi c d => path21_up_ne_iff hi, by decide +kernel, by decide +kernel⟩
  have h : legalSize (4 * v + 17) := by omega
  obtain ⟨hstart, hcells⟩ := cursorStart_onPath h
  have hlast := pathFrom_getLast? h hstart rfl
  refine ⟨(pathFrom_length h hstart).trans hcells, pathFrom_nodup h hstart, fun c hc => ?_,
    fun r q => exists_mem_path h, hlast, fun c hc => ?_⟩
  · obtain ⟨hon, -, -⟩ := mem_pathFrom h _ _ c rfl hstart hc
    exact ⟨hon.1, onPath_col_lt h hon, onPath_col_ne_six hon⟩
  · obtain rfl := Option.some.inj (hlast.symm.trans hc)
    exact pathStep_lastCell h

/-- Settles O39: the state MTX_INIT writes, read field by field. -/
theorem mtxInitCompletes : Obligations.MtxInitCompletes := by
  intro v s hf h1 h40
  have hv : ¬versionOutside v := by
    simp only [versionOutside, not_or, BitVec.not_lt, BitVec.le_def]
    exact ⟨h1, h40⟩
  have hsize : sideOf v = 4 * v.toNat + 17 := if_neg fun h0 => by simp [h0] at h1
  have hlast : (BitVec.ofNat 8 (sideOf v - 1)).toNat = sideOf v - 1 := toNat_ofNat_of_lt (by omega)
  exact ⟨_, exec_mtxInit hf hv, rfl, hsize, hlast, hlast, rfl, rfl, rfl, ModMem.allUnset_get⟩

/-- Settles O40: the checks pass, and one entry is written. -/
theorem modRsvCompletes : Obligations.ModRsvCompletes := by
  intro row col dark s hf hp hv hrow hcol hunset
  have hc : ¬cellOutside row col s := not_or.2 ⟨Nat.not_le.2 hrow, Nat.not_le.2 hcol⟩
  refine ⟨_, (exec_modRsv hf hp hv hc).trans (if_neg (not_not.2 hunset)), rfl, fun idx => ?_⟩
  have hcode : reservedCode dark = if dark = true then 0b011#3 else 0b010#3 := by cases dark <;> rfl
  rw [← hcode]
  exact ModMem.get_put _ _ _ _

/-- Settles O41: the checks pass, and RESULT is written. -/
theorem modRdCompletes : Obligations.ModRdCompletes := by
  intro row col s hf hp hv hrow hcol
  exact exec_modRd hf hp hv (not_or.2 ⟨Nat.not_le.2 hrow, Nat.not_le.2 hcol⟩)

/-- Settles O42: the first check that fails raises its fault. -/
theorem placerFaults : Obligations.PlacerFaults := by
  refine fun s hf hv => ⟨fun v h => ?_, fun row col dark h => ?_, fun row col h => ?_, fun h => ⟨fun d => ?_, ?_⟩⟩
  · exact command_check_fails hf (show versionOutside v from h)
  · by_cases hp : s.phase ≠ .build
    · rw [if_pos hp]
      exact command_check_fails hf hp
    · rw [if_neg hp]
      by_cases hc : cellOutside row col s
      · rw [if_pos hc]
        exact command_second_check_fails hf hp hc
      · have hset : moduleKind (s.modmem.get (cellIndex s.size row.toNat col.toNat)) ≠ 0#2 :=
          ((h.resolve_left hp).resolve_left fun hrow => hc (.inl hrow)).resolve_left fun hcol => hc (.inr hcol)
        rw [if_neg hc, exec_modRsv hf (not_not.1 hp) hv hc, if_pos hset]
        rfl
  · by_cases hp : s.phase = .idle
    · rw [if_pos hp]
      exact command_check_fails hf hp
    · have hc : cellOutside row col s := h.resolve_left hp
      rw [if_neg hp]
      exact command_second_check_fails hf hp hc
  · exact command_check_fails hf (not_placing h)
  · exact command_check_fails hf (not_placing h)

/-- Settles O44: all eight bits are placed. -/
theorem plDataCompletes : Obligations.PlDataCompletes := by
  intro d s h hf hp h8
  obtain ⟨hidle, -⟩ := placing_phase hp
  obtain ⟨-, t, ht, hpl⟩ | ⟨hlt, -⟩ := execPlData_placing (d := d) h hf hp
  · obtain ⟨hbits, hkept⟩ := hpl.modules_of_inv h hidle
    refine ⟨t, ht, hpl.frame_plCnt, fun j hj u hu => hbits j u _ hu (bitsMsbFirst_get d hj), hkept, fun u hu => ?_,
      hpl.ahead⟩
    have hdone := placeBits_of_exec_plData hf ((congrArg State.fault hpl.frame).trans hf) ht
    exact placeBits_cursor _ { s with phase := .place } t u (inv_legalSize (s := s) h hidle) (h.on_path hidle) hdone
      (by simp [bitsMsbFirst]) hu
  · omega

/-- Settles O45: as many bits are placed as there are cells. -/
theorem plDataOverruns : Obligations.PlDataOverruns := by
  intro d s h hf hp hlt
  obtain ⟨hidle, -⟩ := placing_phase hp
  obtain ⟨h8, -⟩ | ⟨-, t, ht, hpl, hcursor⟩ := execPlData_placing (d := d) h hf hp
  · omega
  · have hlen : ((bitsMsbFirst d).take (unsetAhead s).length).length = (unsetAhead s).length := by
      rw [List.length_take]
      exact Nat.min_eq_left (Nat.le_of_lt hlt)
    obtain ⟨hbits, hkept⟩ := hpl.modules_of_inv h hidle
    refine ⟨_, ht, ?_, fun j hj u hu => hbits j u _ hu ?_,
      fun idx hidx => hkept idx fun u hu => hidx u (List.mem_of_mem_take hu)⟩
    · have hframe := hpl.frame_plCnt
      rw [hlen, hcursor] at hframe
      exact congrArg (recordFault .plOverrun (encode (.plData d))) hframe
    · obtain ⟨hju, -⟩ := List.getElem?_eq_some_iff.1 hu
      rw [List.getElem?_take_of_lt hju]
      exact bitsMsbFirst_get d hj

/-- Settles O46: the seek ends the walk. -/
theorem plFinishCompletes : Obligations.PlFinishCompletes := fun _ => exec_plFinish_of_nil

/-- Settles O47: with Unset cells ahead the zero fill ends the walk, else the seek does. -/
theorem plFinishZeroFills : Obligations.PlFinishZeroFills := by
  intro s h hf hp hpol
  cases hu : unsetAhead s with
  | nil => exact ⟨_, exec_plFinish_of_nil h hf hp hu, rfl, by simp, fun _ _ => rfl⟩
  | cons u us =>
    obtain ⟨hexec, hc, hnd, hahead⟩ := exec_plFinish_of_cons h hf hp hu
    obtain ⟨t, ht, hfill⟩ := zeroFill_spec (s := { s with cursor := u }) (inv_legalSize (s := s) h (placing_phase hp).1) hc
    have hmod := hfill.modules
    rw [hahead, hu] at hmod
    rw [finishRemainder_zeroFill (s := { s with cursor := u }) hnd hpol, ht] at hexec
    refine ⟨_, hexec, ?_, fun x hx => ?_, fun idx hidx => ?_⟩
    · exact congrArg (fun t : State => { t with phase := .finished }) hfill.frame
    · exact (hmod _).trans (if_pos (List.mem_map_of_mem hx))
    · refine (hmod _).trans (if_neg fun hmem => ?_)
      obtain ⟨x, hx, hcell⟩ := List.mem_map.1 hmem
      exact hidx x hx hcell

/-- Settles O48: PL_UNDERRUN is raised where the seek stopped. -/
theorem plFinishUnderruns : Obligations.PlFinishUnderruns := by
  intro s u h hf hp hpol hu
  obtain ⟨us, hcons⟩ := List.head?_eq_some_iff.1 hu
  obtain ⟨hexec, -, hnd, -⟩ := exec_plFinish_of_cons h hf hp hcons
  rw [hexec, finishRemainder_fatal (s := { s with cursor := u }) hnd hpol]
  rfl

/-- Settles O51: every write is to a module that a read has found Unset. -/
theorem setModulesAreNeverOverwritten : Obligations.SetModulesAreNeverOverwritten :=
  fun _ _ _ idx hr hm h => exec_setKept hr hm h idx

end Sys2Proof.Machine
end

section
/-! SUPPORT. Streams of codewords: PL_DATA after PL_DATA, until the stream or the Unset cells end (42_placer.md R141, R142). -/

namespace Sys2Proof.Machine

/-! ### Runs of commands -/

theorem execAll_cons {i : Instr} {is : List Instr} {s t : State} (h : exec i s = .next t) :
    execAll (i :: is) s = execAll is t := by
  rw [execAll, h]

/-- A run goes on where its first part ended. -/
theorem execAll_append {is : List Instr} (js : List Instr) {s t : State} (h : execAll is s = .next t) :
    execAll (is ++ js) s = execAll js t := by
  induction is generalizing s with
  | nil =>
    obtain rfl := Host.Outcome.next.inj h
    rfl
  | cons i is ih =>
    rw [execAll] at h
    cases hi : exec i s with
    | next u =>
      rw [hi] at h
      rw [List.cons_append, execAll_cons hi]
      exact ih h
    | fault f | refused r =>
      rw [hi] at h
      cases h

/-- A locked block ignores every command but RESET (43_control.md R151). -/
theorem exec_locked {i : Instr} {s : State} (hi : i ≠ .reset) (hf : s.fault = true) : exec i s = .next s := by
  cases i with
  | reset => exact absurd rfl hi
  | gfMul a b => rw [exec, execGfMul, command_locked hf]
  | gfExp e => rw [exec, execGfExp, command_locked hf]
  | _ => exact command_locked hf

/-- It ignores a run of such commands too. -/
theorem execAll_locked {is : List Instr} {s : State} (hi : ∀ i ∈ is, i ≠ .reset) (hf : s.fault = true) :
    execAll is s = .next s := by
  induction is with
  | nil => rfl
  | cons i is ih =>
    rw [execAll_cons (exec_locked (hi i List.mem_cons_self) hf)]
    exact ih fun j hj => hi j (List.mem_cons_of_mem i hj)

/-- No command of a stream, with the PL_FINISH after it, is RESET. -/
theorem stream_ne_reset (stream : List Byte) : ∀ i ∈ stream.map Instr.plData ++ [.plFinish], i ≠ .reset := by
  simp only [List.mem_append, List.mem_map, List.mem_singleton]
  rintro i (⟨d, -, rfl⟩ | rfl)
  · exact Instr.noConfusion
  · exact Instr.noConfusion

/-- Streams keep the modules that are not Unset (R125). -/
theorem execAll_plData_setKept {stream : List Byte} {s t : State} (h : execAll (stream.map .plData) s = .next t) :
    SetKept s t := by
  induction stream generalizing s with
  | nil =>
    obtain rfl := Host.Outcome.next.inj h
    exact .refl _
  | cons d stream ih =>
    rw [List.map_cons, execAll] at h
    cases hd : exec (.plData d) s with
    | next u =>
      rw [hd] at h
      exact (exec_setKept Instr.noConfusion (fun _ => Instr.noConfusion) hd).trans (ih h)
    | fault f | refused r =>
      rw [hd] at h
      cases h

/-! ### A stream that the Unset cells hold -/

/-- Ready for PL_DATA: legal, unlocked, in BUILD or PLACE. -/
structure Placing (s : State) : Prop where
  legal : s.Inv
  unlocked : s.fault = false
  phase : s.phase = .build ∨ s.phase = .place

/-- What a stream of codewords has done: every bit is in its Unset cell, and the cells behind them are ahead (R142). -/
structure Streamed (s : State) (stream : List Byte) (t : State) : Prop where
  placing : Placing t
  params : t.params = s.params
  size : t.size = s.size
  count : t.plCnt.toNat = s.plCnt.toNat + 8 * stream.length
  ahead : unsetAhead t = (unsetAhead s).drop (8 * stream.length)
  bits : ∀ (q j : Nat) (d : Byte) (u : Cursor), j < 8 → stream[q]? = some d → (unsetAhead s)[8 * q + j]? = some u →
    t.modmem.get (cellOf s.size u) = dataCode (d.getLsbD (7 - j))

theorem Placing.streamed_nil {s : State} (h : Placing s) : Streamed s [] s where
  placing := h
  params := rfl
  size := rfl
  count := rfl
  ahead := rfl
  bits := by simp

/-- One codeword, when eight Unset cells are ahead (R138). -/
theorem Placing.exec_plData {s : State} (h : Placing s) (d : Byte) (h8 : 8 ≤ (unsetAhead s).length) :
    ∃ t, exec (.plData d) s = .next t ∧ Streamed s [d] t := by
  obtain ⟨t, ht, hframe, hbits, -, -, hahead⟩ := plDataCompletes d s h.legal h.unlocked h.phase h8
  have hcount := inv_plCnt_le h.legal
  refine ⟨t, ht, ⟨exec_inv Instr.noConfusion ht h.legal, ?_, ?_⟩, ?_, ?_, ?_, hahead, fun q j e u hj hq hu => ?_⟩
  · rw [hframe]; exact h.unlocked
  · rw [hframe]; exact .inr rfl
  · rw [hframe]
  · rw [hframe]; rfl
  · rw [hframe]
    simp only [BitVec.toNat_add, BitVec.toNat_ofNat, List.length_singleton]
    omega
  · rw [List.getElem?_singleton] at hq
    split at hq
    · next hq0 =>
      obtain rfl := Option.some.inj hq
      exact hbits j hj u (by rwa [hq0, Nat.mul_zero, Nat.zero_add] at hu)
    · cases hq

/-- A stream after a codeword: later commands keep its bits (R125). -/
theorem Streamed.cons {s t v : State} {d : Byte} {stream : List Byte} (h1 : Streamed s [d] t) (h2 : Streamed t stream v)
    (hkept : SetKept t v) : Streamed s (d :: stream) v where
  placing := h2.placing
  params := h2.params.trans h1.params
  size := h2.size.trans h1.size
  count := by rw [h2.count, h1.count, List.length_singleton, List.length_cons]; omega
  ahead := by rw [h2.ahead, h1.ahead, List.drop_drop, List.length_singleton, List.length_cons, Nat.mul_add, Nat.add_comm]
  bits := by
    intro q j e u hj hq hu
    cases q with
    | zero =>
      have hbit := h1.bits 0 j e u hj hq hu
      rw [hkept _ (by rw [hbit]; simp), hbit]
    | succ q =>
      have hu' : (unsetAhead t)[8 * q + j]? = some u := by
        rw [h1.ahead, List.getElem?_drop, ← hu]
        congr 1
        simp only [List.length_singleton]
        omega
      rw [← h1.size]
      exact h2.bits q j e u hj hq hu'

/-- A stream that the Unset cells ahead hold is placed (R141, R142). -/
theorem Placing.execAll_plData {s : State} (h : Placing s) {stream : List Byte}
    (hfit : 8 * stream.length ≤ (unsetAhead s).length) :
    ∃ t, execAll (stream.map .plData) s = .next t ∧ Streamed s stream t := by
  induction stream generalizing s with
  | nil => exact ⟨s, rfl, h.streamed_nil⟩
  | cons d stream ih =>
    rw [List.length_cons] at hfit
    obtain ⟨t, ht, hst⟩ := h.exec_plData d (by omega)
    have hrest : 8 * stream.length ≤ (unsetAhead t).length := by
      rw [hst.ahead, List.length_drop, List.length_singleton]
      omega
    obtain ⟨v, hv, hst'⟩ := ih hst.placing hrest
    exact ⟨v, (execAll_cons ht).trans hv, hst.cons hst' (execAll_plData_setKept hv)⟩

/-! ### A stream that the Unset cells do not hold -/

/-- A codeword with fewer than eight Unset cells ahead: its fault, and the count of the bits that had a cell (R138;
60_exceptions.md R164). -/
theorem Placing.exec_plData_overrun {s : State} (h : Placing s) (d : Byte) (h8 : (unsetAhead s).length < 8) :
    ∃ t, exec (.plData d) s = .next t ∧ t.fault = true ∧ t.fcode = 7#4 ∧ t.faultCmd = encode (.plData d) ∧
      t.plCnt.toNat = s.plCnt.toNat + (unsetAhead s).length := by
  obtain ⟨t, ht, hframe, -⟩ := plDataOverruns d s h.legal h.unlocked h.phase h8
  have hcount := inv_plCnt_le h.legal
  refine ⟨t, ht, by rw [hframe], by rw [hframe], by rw [hframe], ?_⟩
  rw [hframe]
  simp only [BitVec.toNat_add, BitVec.toNat_ofNat]
  omega

/-- A longer stream overruns in its codeword number U / 8, counted from 0, after U bits, and the rest is ignored (R141). -/
theorem Placing.execAll_overrun {s : State} (h : Placing s) {stream : List Byte}
    (hlong : (unsetAhead s).length < 8 * stream.length) :
    ∃ t, execAll (stream.map .plData ++ [.plFinish]) s = .next t ∧ t.fault = true ∧ t.fcode = 7#4 ∧
      t.plCnt.toNat = s.plCnt.toNat + (unsetAhead s).length ∧
      ∀ d, stream[(unsetAhead s).length / 8]? = some d → t.faultCmd = encode (.plData d) := by
  generalize hq : (unsetAhead s).length / 8 = q
  have hlt : q < stream.length := by omega
  have htake : (stream.take q).length = q := by rw [List.length_take]; omega
  obtain ⟨t, ht, hst⟩ := h.execAll_plData (stream := stream.take q) (by rw [htake]; omega)
  have hahead : (unsetAhead t).length = (unsetAhead s).length - 8 * q := by rw [hst.ahead, List.length_drop, htake]
  obtain ⟨v, hv, hfault, hcode, hcmd, hcount⟩ := hst.placing.exec_plData_overrun stream[q] (by omega)
  refine ⟨v, ?_, hfault, hcode, ?_, fun d hd => ?_⟩
  · have hsplit : stream.map Instr.plData ++ [.plFinish] = (stream.take q).map .plData ++
        .plData stream[q] :: ((stream.drop (q + 1)).map .plData ++ [.plFinish]) := by
      rw [← List.cons_append, ← List.map_cons, ← List.drop_eq_getElem_cons hlt, ← List.append_assoc, ← List.map_append,
        List.take_append_drop]
    rw [hsplit, execAll_append _ ht, execAll_cons hv]
    exact execAll_locked (stream_ne_reset _) hfault
  · rw [hcount, hst.count, hahead, htake]
    omega
  · obtain ⟨_, rfl⟩ := List.getElem?_eq_some_iff.1 hd
    exact hcmd

end Sys2Proof.Machine
end

section
/-! The obligations about streams of codewords (42_placer.md R141, R142). -/

namespace Sys2Proof.Machine

/-- Settles O49: the stream is placed bit by bit, bit 7 of a codeword first. -/
theorem bitOrderOnTheGrid : Obligations.BitOrderOnTheGrid := by
  intro s stream h hf hp hfit
  obtain ⟨t, ht, hst⟩ := Placing.execAll_plData ⟨h, hf, .inl hp⟩ hfit
  refine ⟨t, ht, hst.placing.unlocked, fun q j d u hj hq hu => ?_⟩
  have hbit := hst.bits q (7 - j) d u (by omega) hq (by rw [← hu]; congr 1; omega)
  rwa [show 7 - (7 - j) = j by omega] at hbit

/-- Settles O50: by whether the Unset cells hold the stream, and whether it leaves any of them. -/
theorem streamFitsExactly : Obligations.StreamFitsExactly := by
  intro s stream h hf hp hpol
  have hplacing : Placing s := ⟨h, hf, .inl hp⟩
  obtain hlong | hfit := Nat.lt_or_ge (unsetAhead s).length (8 * stream.length)
  · obtain ⟨t, ht, hfault, hcode, hcount, hcmd⟩ := hplacing.execAll_overrun hlong
    obtain ⟨hzero, -⟩ := h.build_empty hp
    refine ⟨t, ht, ⟨fun hf' => absurd (hfault.symm.trans hf') (by decide), fun heq => by omega⟩, fun hlt => by omega,
      fun _ => ⟨hcode, ?_, hcmd⟩⟩
    rw [hcount, hzero]
    exact Nat.zero_add _
  · obtain ⟨t, ht, hst⟩ := hplacing.execAll_plData hfit
    obtain ⟨htinv, htf, htp⟩ := hst.placing
    have hahead : (unsetAhead t).length = (unsetAhead s).length - 8 * stream.length := by
      rw [hst.ahead, List.length_drop]
    cases hu : unsetAhead t with
    | nil =>
      rw [hu, List.length_nil] at hahead
      have hfinish := (execAll_append [.plFinish] ht).trans (execAll_cons (plFinishCompletes t htinv htf htp hu))
      exact ⟨_, hfinish, ⟨fun _ => by omega, fun _ => htf⟩, fun hlt => by omega, fun hlt => by omega⟩
    | cons u us =>
      rw [hu, List.length_cons] at hahead
      have hunderrun := plFinishUnderruns t u htinv htf htp (hst.params ▸ hpol) (by rw [hu]; rfl)
      have hfinish := (execAll_append [.plFinish] ht).trans (execAll_cons hunderrun)
      exact ⟨_, hfinish, ⟨fun hfault => absurd hfault (by simp), fun heq => by omega⟩, fun _ => ⟨rfl, rfl⟩,
        fun hlt => by omega⟩

end Sys2Proof.Machine
end

section
/-! SUPPORT. A step as the event it performs, and the issue of a word, locked and unlocked (20_memory.md R46; 43_control.md R150 to
R153). -/

namespace Sys2Proof.Machine

theorem step_nil {s : State} (h : s.host = []) : step s = .next (idleCycle s) := by
  rw [step, h]

theorem step_cons {s : State} {e : HostEvent} {rest : List HostEvent} (h : s.host = e :: rest) :
    step s = portEvent e { s with host := rest } := by
  rw [step, h]

/-- RESET's one word (30_encoding.md R53). -/
theorem encode_reset : encode .reset = 0x01000000#32 := by decide

theorem exec_reset (s : State) : exec .reset s = .next (resetState s) := rfl

/-- NOP does nothing, locked or not (R152). -/
theorem exec_nop (s : State) : exec .nop s = .next s := by
  cases hf : s.fault
  · rw [exec, execNop, command_unlocked hf]
    rfl
  · exact command_locked hf

/-- A word that decodes is run (R150). -/
theorem issue_of_decode {w : Word} {i : Instr} (h : decode w = .ok i) (s : State) : issue w s = exec i s := by
  rw [issue, h]

/-- RESET's word resets (R153). -/
theorem issue_reset (s : State) : issue 0x01000000#32 s = .next (resetState s) := by
  rw [← encode_reset, issue_of_decode (decode_encode .reset), exec_reset]

/-- A locked block ignores every word but RESET's (R151). -/
theorem issue_locked {w : Word} {s : State} (hf : s.fault = true) (hw : w ≠ 0x01000000#32) : issue w s = .next s := by
  cases hd : decode w with
  | ok i =>
    have hi : i ≠ .reset := by
      rintro rfl
      exact hw (encode_of_decode hd ▸ encode_reset)
    rw [issue_of_decode hd, exec_locked hi hf]
  | error e =>
    rw [issue, hd]
    simp [rejectWord_eq, hf]

end Sys2Proof.Machine
end

section
/-! SUPPORT. Legal states never stop the machine: what a command's pseudocode comes to in one (43_control.md R150, R154). -/

namespace Sys2Proof.Machine

/-- Pseudocode that does not stop the model. -/
def Ran.Runs : Ran → Prop
  | .halted _ => False
  | _ => True

theorem runs_raiseIf {p : Prop} [Decidable p] {c : FaultCode} {k : State → Ran} {s : State} (hk : ¬p → (k s).Runs) :
    (raiseIf p c k s).Runs := by
  by_cases hp : p
  · rw [raiseIf_pos hp]
    trivial
  · rw [raiseIf_neg hp]
    exact hk hp

/-- A command whose pseudocode does not stop the model answers a next state (R150, R151). -/
theorem command_runs {i : Instr} {body : State → Ran} {s : State} (hb : (body s).Runs) : ∃ t, command i body s = .next t := by
  cases hf : s.fault
  · rw [command_unlocked hf]
    generalize body s = x at hb ⊢
    cases x with
    | done t => exact ⟨t, rfl⟩
    | raised c t => exact ⟨_, rfl⟩
    | halted f => exact False.elim hb
  · exact ⟨s, command_locked hf⟩

/-- Placing bits in BUILD or PLACE does not stop the model (42_placer.md R134, R138). -/
theorem placeBits_runs {s : State} (h : s.Inv) (hp : s.phase = .build ∨ s.phase = .place) (bs : List Bool) :
    (placeBits bs { s with phase := .place }).Runs := by
  obtain ⟨hidle, -⟩ := placing_phase hp
  have hs : legalSize s.size := inv_legalSize h hidle
  obtain ⟨-, t, ht, -⟩ | ⟨-, t, ht, -⟩ := placeBits_spec bs { s with phase := .place } hs (h.on_path hidle)
  · rw [ht]; trivial
  · rw [ht]; trivial

/-- Nor does PL_FINISH's pseudocode in BUILD or PLACE (42_placer.md R140). -/
theorem finish_runs {s : State} (h : s.Inv) (hp : s.phase = .build ∨ s.phase = .place) :
    (((seek s).andThen finishRemainder).andThen fun s => .done { s with phase := .finished }).Runs := by
  obtain ⟨hidle, -⟩ := placing_phase hp
  have hs := inv_legalSize h hidle
  obtain ⟨c, hseek, hc, -⟩ := seek_spec hs (h.on_path hidle)
  rw [hseek, andThen_done]
  unfold finishRemainder
  split
  · trivial
  · split
    · trivial
    · obtain ⟨t, ht, -⟩ := zeroFill_spec (s := { s with cursor := c }) hs hc
      rw [ht]
      trivial

/-- Every command answers a next state from a legal state. -/
theorem exec_runs (i : Instr) {s : State} (h : s.Inv) : ∃ t, exec i s = .next t := by
  cases i with
  | nop => exact ⟨s, exec_nop s⟩
  | reset => exact ⟨_, exec_reset s⟩
  | gfMul a b =>
    unfold exec execGfMul
    exact command_runs trivial
  | gfExp e =>
    unfold exec execGfExp
    exact command_runs trivial
  | gfDiv _ _ | gfLog _ | rsStart _ | rsData _ | mtxInit _ => exact command_runs (runs_raiseIf fun _ => trivial)
  | rsRdec _ | rsRdgen _ => exact command_runs (runs_raiseIf fun _ => runs_raiseIf fun _ => trivial)
  | modRsv row col dark =>
    refine command_runs (runs_raiseIf fun hp => runs_raiseIf fun hc => ?_)
    have hlt := (inv_cellIndex_lt h (by simp [not_not.1 hp]) hc).2
    dsimp only
    rw [memRead_eq hlt]
    refine runs_raiseIf fun _ => ?_
    rw [memWrite_eq hlt]
    trivial
  | modRd row col =>
    refine command_runs (runs_raiseIf fun hp => runs_raiseIf fun hc => ?_)
    rw [memRead_eq (inv_cellIndex_lt h hp hc).2]
    trivial
  | plData d => exact command_runs (runs_raiseIf fun hp => placeBits_runs h (placing_of_check hp) _)
  | plFinish => exact command_runs (runs_raiseIf fun hp => finish_runs h (placing_of_check hp))

/-- So does every issued word. -/
theorem issue_runs (w : Word) {s : State} (h : s.Inv) : ∃ t, issue w s = .next t := by
  cases hd : decode w with
  | ok i =>
    rw [issue_of_decode hd]
    exact exec_runs i h
  | error e =>
    rw [issue, hd]
    exact ⟨_, rejectWord_eq e w s⟩

end Sys2Proof.Machine
end

section
/-! SUPPORT. Two runs of a command's pseudocode from related states: a relation on states lifted to how the runs end, with a rule
per way of composing pseudocode (43_control.md R150). -/

namespace Sys2Proof

/-- The part of the block a command works (30_encoding.md R53). -/
inductive Instr.Part where
  | control
  | gf
  | rs
  | placer

/-- The rows of the opcode map by their high digit (30_encoding.md R53). -/
@[simp] def Instr.part : Instr → Instr.Part
  | .nop | .reset => .control
  | .gfMul .. | .gfDiv .. | .gfExp .. | .gfLog .. => .gf
  | .rsStart .. | .rsData .. | .rsRdec .. | .rsRdgen .. => .rs
  | .mtxInit .. | .modRsv .. | .modRd .. | .plData .. | .plFinish => .placer

end Sys2Proof

namespace Sys2Proof.Machine

/-- Two runs of pseudocode end alike, in states that `P` relates. -/
inductive Ran.Related (P : State → State → Prop) : Ran → Ran → Prop
  | done {s u : State} (h : P s u) : Related P (.done s) (.done u)
  | raised (c : FaultCode) {s u : State} (h : P s u) : Related P (.raised c s) (.raised c u)
  | halted (f : Fault) : Related P (.halted f) (.halted f)

/-- A relation on states that sees the lock, and outlasts taking a fault and writing RESULT. -/
structure FrameRel (P : State → State → Prop) : Prop where
  fault : ∀ {s u}, P s u → u.fault = s.fault
  record : ∀ {s u} (c : FaultCode) (w : Word), P s u → P (recordFault c w s) (recordFault c w u)
  result : ∀ {s u} {n : Nat} (v : BitVec n), P s u → P (setResult v s) (setResult v u)

variable {P : State → State → Prop} {s u t : State}

/-- A check that comes out alike in both states (60_exceptions.md R160, R162). -/
theorem related_raiseIf {p : Prop} [Decidable p] {c : FaultCode} {k l : State → Ran} (h : P s u)
    (hk : ¬p → (k s).Related P (l u)) : (raiseIf p c k s).Related P (raiseIf p c l u) := by
  by_cases hp : p
  · rw [raiseIf_pos hp, raiseIf_pos hp]
    exact .raised c h
  · rw [raiseIf_neg hp, raiseIf_neg hp]
    exact hk hp

theorem related_andThen {x y : Ran} {k l : State → Ran} (hxy : x.Related P y)
    (hk : ∀ s u, P s u → (k s).Related P (l u)) : (x.andThen k).Related P (y.andThen l) := by
  cases hxy with
  | done h => exact hk _ _ h
  | raised c h => exact .raised c h
  | halted f => exact .halted f

/-- A command answers alike in two related states whose pseudocode ends alike (43_control.md R150, R151). -/
theorem command_related (hP : FrameRel P) {i : Instr} {body body' : State → Ran} (h : P s u)
    (ht : command i body s = .next t) (hb : (body s).Related P (body' u)) :
    ∃ v, command i body' u = .next v ∧ P t v := by
  cases hf : s.fault with
  | true =>
    rw [command_locked hf] at ht
    obtain rfl := Host.Outcome.next.inj ht
    exact ⟨u, command_locked ((hP.fault h).trans hf), h⟩
  | false =>
    rw [command_unlocked hf] at ht
    rw [command_unlocked ((hP.fault h).trans hf)]
    generalize body s = x, body' u = y at hb ht ⊢
    cases hb with
    | done hd =>
      obtain rfl := Host.Outcome.next.inj ht
      exact ⟨_, rfl, hd⟩
    | raised c hr =>
      obtain rfl := Host.Outcome.next.inj ht
      exact ⟨_, rfl, hP.record c _ hr⟩
    | halted f => cases ht

/-- The GF commands read no state: they answer alike in any two related ones (40_gf_arith.md R66 to R69). -/
theorem exec_gf_related (hP : FrameRel P) {i : Instr} (hi : i.part = .gf) (h : P s u) (ht : exec i s = .next t) :
    ∃ v, exec i u = .next v ∧ P t v := by
  cases i with
  | gfMul a b =>
    unfold exec execGfMul at ht ⊢
    exact command_related hP h ht (.done (hP.result _ h))
  | gfExp e =>
    unfold exec execGfExp at ht ⊢
    exact command_related hP h ht (.done (hP.result _ h))
  | gfDiv _ _ | gfLog _ => exact command_related hP h ht (related_raiseIf h fun _ => .done (hP.result _ h))
  | _ => cases hi

end Sys2Proof.Machine
end

section
/-! SUPPORT. The GF and RS commands with another placement unit (43_control.md R150; 00_scope.md R3). -/

namespace Sys2Proof.Machine

/-- The contents of the placement unit (10_state.md R26, R37 to R39; 20_memory.md R41). -/
structure PlacerUnit where
  phase : Phase
  ver : Byte
  cursor : Cursor
  plCnt : BitVec 16
  modmem : ModMem

/-- The state with another placement unit. -/
def withPlacer (x : PlacerUnit) (s : State) : State :=
  { s with phase := x.phase, ver := x.ver, cursor := x.cursor, plCnt := x.plCnt, modmem := x.modmem }

theorem withPlacer_frameRel (x : PlacerUnit) : FrameRel fun s u => u = withPlacer x s where
  fault := by rintro s _ rfl; rfl
  record := by rintro s _ c w rfl; rfl
  result := by rintro s _ n v rfl; rfl

/-- The GF and RS commands do the same with another placement unit. -/
theorem exec_withPlacer {i : Instr} (hi : i.part = .gf ∨ i.part = .rs) (x : PlacerUnit) {s t : State}
    (ht : exec i s = .next t) : exec i (withPlacer x s) = .next (withPlacer x t) := by
  have hP := withPlacer_frameRel x
  suffices h : ∃ v, exec i (withPlacer x s) = .next v ∧ v = withPlacer x t by
    obtain ⟨v, hv, rfl⟩ := h
    exact hv
  obtain hi | hi := hi
  · exact exec_gf_related hP hi rfl ht
  · cases i with
    | rsStart _ | rsData _ => exact command_related hP rfl ht (related_raiseIf rfl fun _ => .done rfl)
    | rsRdec _ | rsRdgen _ =>
      exact command_related hP rfl ht (related_raiseIf rfl fun _ => related_raiseIf rfl fun _ => .done rfl)
    | _ => cases hi

/-- They leave the placement unit as it was: with the state's own in place of it they do the same. -/
theorem exec_placer_kept {i : Instr} (hi : i.part = .gf ∨ i.part = .rs) {s t : State} (ht : exec i s = .next t) :
    t = withPlacer ⟨s.phase, s.ver, s.cursor, s.plCnt, s.modmem⟩ t :=
  Host.Outcome.next.inj (ht.symm.trans (exec_withPlacer hi ⟨s.phase, s.ver, s.cursor, s.plCnt, s.modmem⟩ ht))

end Sys2Proof.Machine
end

section
/-! SUPPORT. The placement and GF commands with another RS unit (43_control.md R150; 00_scope.md R3). -/

namespace Sys2Proof.Machine

/-- The contents of the RS unit (10_state.md R32 to R36). -/
structure RsUnit where
  active : Bool
  n : Byte
  g : RegFile
  r : RegFile
  cnt : BitVec 16

/-- The state with another RS unit. -/
def withRs (x : RsUnit) (s : State) : State :=
  { s with rsActive := x.active, rsN := x.n, g := x.g, r := x.r, rsCnt := x.cnt }

theorem withRs_frameRel (x : RsUnit) : FrameRel fun s u => u = withRs x s where
  fault := by rintro s _ rfl; rfl
  record := by rintro s _ c w rfl; rfl
  result := by rintro s _ n v rfl; rfl

@[simp] theorem withRs_cursor (x : RsUnit) (s : State) : (withRs x s).cursor = s.cursor := rfl

@[simp] theorem withRs_size (x : RsUnit) (s : State) : (withRs x s).size = s.size := rfl

@[simp] theorem withRs_params (x : RsUnit) (s : State) : (withRs x s).params = s.params := rfl

@[simp] theorem cursorIndex_withRs (x : RsUnit) (s : State) : cursorIndex (withRs x s) = cursorIndex s := rfl

@[simp] theorem memRead_withRs (x : RsUnit) (idx : Nat) (s : State) : memRead idx (withRs x s) = memRead idx s := rfl

/-- Pseudocode that does the same with another RS unit. -/
def RsBlind (k : State → Ran) : Prop :=
  ∀ (x : RsUnit) (s : State), (k s).Related (fun s u => u = withRs x s) (k (withRs x s))

theorem RsBlind.andThen {k l : State → Ran} (hk : RsBlind k) (hl : RsBlind l) : RsBlind fun s => (k s).andThen l := by
  intro x s
  refine related_andThen (hk x s) ?_
  rintro t _ rfl
  exact hl x t

theorem memWrite_rsBlind (idx : Nat) (c : ModCode) : RsBlind (memWrite idx c) := by
  intro x s
  by_cases h : idx < Config.modmemSize
  · rw [memWrite_eq h, memWrite_eq h]
    exact .done rfl
  · rw [memWrite, memWrite, if_neg h, if_neg h]
    exact .halted _

theorem memWrite_cursor_rsBlind (c : ModCode) : RsBlind fun s => memWrite (cursorIndex s) c s :=
  fun x s => memWrite_rsBlind (cursorIndex s) c x s

theorem seekWithin_rsBlind : ∀ k, RsBlind (seekWithin k)
  | 0 => fun _ _ => .halted _
  | k + 1 => fun x s => by
    rw [seekWithin, seekWithin, withRs_cursor, cursorIndex_withRs, memRead_withRs]
    split
    · exact .done rfl
    · split
      · exact .halted _
      · split
        · exact .done rfl
        · exact seekWithin_rsBlind k x (stepCursor s)

theorem placeBit_rsBlind (b : Bool) : RsBlind (placeBit b) :=
  RsBlind.andThen (seekWithin_rsBlind _) fun x s => related_raiseIf rfl fun _ =>
    RsBlind.andThen (memWrite_cursor_rsBlind (dataCode b)) (fun _ _ => .done rfl) x s

theorem placeBits_rsBlind : ∀ bs : List Bool, RsBlind (placeBits bs)
  | [] => fun _ _ => .done rfl
  | b :: bs => RsBlind.andThen (placeBit_rsBlind b) (placeBits_rsBlind bs)

theorem zeroFillWithin_rsBlind : ∀ k, RsBlind (zeroFillWithin k)
  | 0 => fun _ _ => .halted _
  | k + 1 => RsBlind.andThen (seekWithin_rsBlind _) fun x s => by
    rw [withRs_cursor]
    split
    · exact .done rfl
    · exact RsBlind.andThen (memWrite_cursor_rsBlind _) (fun x s => zeroFillWithin_rsBlind k x (stepCursor s)) x s

theorem finishRemainder_rsBlind : RsBlind finishRemainder := by
  intro x s
  rw [finishRemainder, finishRemainder, withRs_cursor, withRs_params]
  split
  · exact .done rfl
  · split
    · exact .raised _ rfl
    · exact zeroFillWithin_rsBlind _ x s

/-- The placement and GF commands do the same with another RS unit. -/
theorem exec_withRs {i : Instr} (hi : i.part = .gf ∨ i.part = .placer) (x : RsUnit) {s t : State}
    (ht : exec i s = .next t) : exec i (withRs x s) = .next (withRs x t) := by
  have hP := withRs_frameRel x
  suffices h : ∃ v, exec i (withRs x s) = .next v ∧ v = withRs x t by
    obtain ⟨v, hv, rfl⟩ := h
    exact hv
  obtain hi | hi := hi
  · exact exec_gf_related hP hi rfl ht
  · cases i with
    | mtxInit v => exact command_related hP rfl ht (related_raiseIf rfl fun _ => .done rfl)
    | modRsv row col dark =>
      refine command_related hP rfl ht (related_raiseIf rfl fun _ => related_raiseIf rfl fun _ => ?_)
      dsimp only
      rw [withRs_size, memRead_withRs]
      split
      · exact .halted _
      · exact related_raiseIf rfl fun _ => memWrite_rsBlind _ _ x s
    | modRd row col =>
      refine command_related hP rfl ht (related_raiseIf rfl fun _ => related_raiseIf rfl fun _ => ?_)
      rw [withRs_size, memRead_withRs]
      split
      · exact .halted _
      · exact .done rfl
    | plData d =>
      exact command_related hP rfl ht (related_raiseIf rfl fun _ => placeBits_rsBlind _ x { s with phase := .place })
    | plFinish =>
      exact command_related hP rfl ht (related_raiseIf rfl fun _ =>
        RsBlind.andThen (RsBlind.andThen (seekWithin_rsBlind _) finishRemainder_rsBlind) (fun _ _ => .done rfl) x s)
    | _ => cases hi

/-- They leave the RS unit as it was: with the state's own in place of it they do the same. -/
theorem exec_rs_kept {i : Instr} (hi : i.part = .gf ∨ i.part = .placer) {s t : State} (ht : exec i s = .next t) :
    t = withRs ⟨s.rsActive, s.rsN, s.g, s.r, s.rsCnt⟩ t :=
  Host.Outcome.next.inj (ht.symm.trans (exec_withRs hi ⟨s.rsActive, s.rsN, s.g, s.r, s.rsCnt⟩ ht))

end Sys2Proof.Machine
end

section
/-! SUPPORT. Steps of two states that differ in unspecified contents alone (43_control.md R154). -/

namespace Sys2Proof.Machine

variable {s u t : State}

/-- One of two such states is the other with new contents in place of the unspecified ones. -/
theorem sameButUnspecified.exists_contents (h : sameButUnspecified s u) : ∃ g r m,
    u = { s with g := g, r := r, modmem := m } ∧ (s.rsActive = true → g = s.g ∧ r = s.r) ∧
      (s.phase ≠ .idle → m = s.modmem) :=
  ⟨u.g, u.r, u.modmem, h⟩

theorem sameButUnspecified.refl (s : State) : sameButUnspecified s s := ⟨rfl, fun _ => ⟨rfl, rfl⟩, fun _ => rfl⟩

theorem sameButUnspecified.host_eq (h : sameButUnspecified s u) : u.host = s.host := (congrArg State.host h.1 :)

theorem sameButUnspecified.host (h : sameButUnspecified s u) (rest : List HostEvent) :
    sameButUnspecified { s with host := rest } { u with host := rest } := by
  obtain ⟨g, r, m, rfl, hrs, hm⟩ := h.exists_contents
  exact ⟨rfl, hrs, hm⟩

theorem sameButUnspecified.reply (h : sameButUnspecified s u) (rep : Reply) :
    sameButUnspecified { s with reply := rep } { u with reply := rep } := by
  obtain ⟨g, r, m, rfl, hrs, hm⟩ := h.exists_contents
  exact ⟨rfl, hrs, hm⟩

theorem sameButUnspecified_frameRel : FrameRel sameButUnspecified where
  fault h := (congrArg State.fault h.1 :)
  record c w h := by
    obtain ⟨g, r, m, rfl, hrs, hm⟩ := h.exists_contents
    exact ⟨rfl, hrs, hm⟩
  result v h := by
    obtain ⟨g, r, m, rfl, hrs, hm⟩ := h.exists_contents
    exact ⟨rfl, hrs, hm⟩

/-- No register shows unspecified contents (10_state.md R21). -/
theorem readPort_same (h : sameButUnspecified s u) (a : PortAddr) : readPort u a = readPort s a := by
  obtain ⟨g, r, m, rfl, -⟩ := h.exists_contents
  rfl

/-- The RS commands read G and R during a block alone, and RS_START writes them whole (41_rs_encoder.md R84 to R87). -/
theorem exec_rs_same {i : Instr} (hi : i.part = .rs) (h : sameButUnspecified s u) (ht : exec i s = .next t) :
    ∃ v, exec i u = .next v ∧ sameButUnspecified t v := by
  have hP := sameButUnspecified_frameRel
  obtain ⟨g, r, m, rfl, hrs, hm⟩ := h.exists_contents
  cases i with
  | rsStart n => exact command_related hP h ht (related_raiseIf h fun _ => .done ⟨rfl, fun _ => ⟨rfl, rfl⟩, hm⟩)
  | rsData d =>
    refine command_related hP h ht (related_raiseIf h fun ha => ?_)
    obtain ⟨rfl, rfl⟩ := hrs (Bool.eq_true_of_not_eq_false ha)
    exact .done ⟨rfl, fun _ => ⟨rfl, rfl⟩, hm⟩
  | rsRdec _ | rsRdgen _ =>
    refine command_related hP h ht (related_raiseIf h fun ha => related_raiseIf h fun _ => ?_)
    obtain ⟨rfl, rfl⟩ := hrs (Bool.eq_true_of_not_eq_false ha)
    exact .done ⟨rfl, fun _ => ⟨rfl, rfl⟩, hm⟩
  | _ => cases hi

/-- The placement commands other than MTX_INIT raise SEQUENCE in IDLE, and MTX_INIT writes MODMEM whole (42_placer.md R135 to R140);
with a matrix only the RS unit differs. -/
theorem exec_placer_same {i : Instr} (hi : i.part = .placer) (h : sameButUnspecified s u) (ht : exec i s = .next t) :
    ∃ v, exec i u = .next v ∧ sameButUnspecified t v := by
  have hP := sameButUnspecified_frameRel
  obtain ⟨g, r, m, rfl, hrs, hm⟩ := h.exists_contents
  by_cases hp : s.phase = .idle
  · cases i with
    | mtxInit v => exact command_related hP h ht (related_raiseIf h fun _ => .done ⟨rfl, hrs, fun _ => rfl⟩)
    | modRsv _ _ _ | modRd _ _ | plData _ | plFinish =>
      exact command_related hP h ht (related_raiseIf h fun hcheck => by simp [hp] at hcheck)
    | _ => cases hi
  · obtain rfl := hm hp
    refine ⟨_, exec_withRs (.inr hi) ⟨s.rsActive, s.rsN, g, r, s.rsCnt⟩ ht, ?_⟩
    rw [exec_rs_kept (.inr hi) ht]
    exact ⟨rfl, hrs, fun _ => rfl⟩

/-- No command reads unspecified contents. -/
theorem exec_same {i : Instr} (h : sameButUnspecified s u) (ht : exec i s = .next t) :
    ∃ v, exec i u = .next v ∧ sameButUnspecified t v := by
  cases hpart : i.part with
  | gf => exact exec_gf_related sameButUnspecified_frameRel hpart h ht
  | rs => exact exec_rs_same hpart h ht
  | placer => exact exec_placer_same hpart h ht
  | control =>
    cases i with
    | nop =>
      obtain rfl := Host.Outcome.next.inj ((exec_nop s).symm.trans ht)
      exact ⟨u, exec_nop u, h⟩
    | reset =>
      obtain rfl := Host.Outcome.next.inj ((exec_reset s).symm.trans ht)
      obtain ⟨g, r, m, rfl, -⟩ := h.exists_contents
      exact ⟨_, exec_reset _, .refl _⟩
    | _ => cases hpart

/-- No issued word does (43_control.md R150). -/
theorem issue_same {w : Word} (h : sameButUnspecified s u) (ht : issue w s = .next t) :
    ∃ v, issue w u = .next v ∧ sameButUnspecified t v := by
  cases hd : decode w with
  | ok i =>
    rw [issue_of_decode hd] at ht ⊢
    exact exec_same h ht
  | error e =>
    have hreject : ∀ x, issue w x = rejectWord e w x := fun x => by rw [issue, hd]
    rw [hreject, rejectWord_eq] at ht ⊢
    obtain rfl := Host.Outcome.next.inj ht
    refine ⟨_, rfl, ?_⟩
    rw [sameButUnspecified_frameRel.fault h]
    split
    · exact h
    · exact sameButUnspecified_frameRel.record _ w h

/-- No event at the port does (20_memory.md R46 to R48; 70_reset_and_hazards.md R180). -/
theorem portEvent_same {e : HostEvent} (h : sameButUnspecified s u) (ht : portEvent e s = .next t) :
    ∃ v, portEvent e u = .next v ∧ sameButUnspecified t v := by
  cases e with
  | read a =>
    obtain rfl := Host.Outcome.next.inj ht
    refine ⟨_, rfl, ?_⟩
    rw [readPort_same h]
    exact h.reply _
  | write a w =>
    rw [portEvent, writePort] at ht ⊢
    split at ht
    · next ha =>
      rw [if_pos ha]
      exact issue_same (h.reply .acked) ht
    · next ha =>
      rw [if_neg ha]
      obtain rfl := Host.Outcome.next.inj ht
      exact ⟨_, rfl, h.reply .acked⟩
  | resetLow cut =>
    obtain rfl := Host.Outcome.next.inj ht
    obtain ⟨g, r, m, rfl, -⟩ := h.exists_contents
    exact ⟨_, rfl, .refl _⟩
  | outside v => cases ht

/-- No step does. -/
theorem step_same (h : sameButUnspecified s u) (ht : step s = .next t) :
    ∃ v, step u = .next v ∧ sameButUnspecified t v := by
  cases hh : s.host with
  | nil =>
    rw [step_nil hh] at ht
    obtain rfl := Host.Outcome.next.inj ht
    exact ⟨_, step_nil (h.host_eq.trans hh), h.reply .none⟩
  | cons e rest =>
    rw [step_cons hh] at ht
    rw [step_cons (h.host_eq.trans hh)]
    exact portEvent_same (h.host rest) ht

end Sys2Proof.Machine
end

section
/-! The obligations about control (43_control.md R150 to R154). -/

namespace Sys2Proof.Machine

/-- Settles O7: a write to CMD issues its word, and a word that decodes is run. -/
theorem stepRunsTheDecodedCommand : Obligations.StepRunsTheDecodedCommand := by
  intro s w rest i hh hd
  rw [step_write_cmd hh, issue_of_decode hd]

/-- Settles O8: by the lock, then by the decoding. -/
theorem issueFollowsTheCycle : Obligations.IssueFollowsTheCycle := by
  intro w s
  split
  · next hf =>
    split
    · next hw => rw [hw, issue_reset]
    · next hw => exact issue_locked hf hw
  · next hf =>
    split
    · next i hd => exact issue_of_decode hd s
    · next hd => exact issue_of_decode_error hd (Bool.eq_false_of_not_eq_true hf)
    · next hd => exact issue_of_decode_error hd (Bool.eq_false_of_not_eq_true hf)

/-- Settles O9: the port acknowledges a word that a locked block ignores, and its reads do not look at the lock. -/
theorem lockedBlockIgnoresCommands : Obligations.LockedBlockIgnoresCommands := by
  refine fun s rest hf => ⟨fun w hh hw => ?_, fun a => step_read⟩
  rw [step_write_cmd hh]
  exact issue_locked (s := { s with host := rest, reply := .acked }) hf hw

/-- Settles O16: the state RESET leaves, read field by field. -/
theorem resetCommandCompletes : Obligations.ResetCommandCompletes := fun s =>
  ⟨resetState s, exec_reset s, rfl, rfl, rfl, rfl, rfl, rfl, rfl, rfl, rfl, rfl, rfl, rfl, rfl, rfl, rfl, rfl⟩

/-- Settles O28: NOP's pseudocode does nothing, and neither does a locked block. -/
theorem nopCompletes : Obligations.NopCompletes := exec_nop

/-- Settles O58: by the host's next event; no command's pseudocode stops the model in a legal state. -/
theorem legalStatesNeverStop : Obligations.LegalStatesNeverStop := by
  intro s h
  cases hh : s.host with
  | nil => exact .inl ⟨_, step_nil hh⟩
  | cons e rest =>
    cases e with
    | read a => exact .inl ⟨_, step_read hh⟩
    | write a w =>
      by_cases ha : a = 0#3
      · subst ha
        rw [step_write_cmd hh]
        exact .inl (issue_runs w (inv_reply h .acked rest))
      · exact .inl ⟨_, step_write_other hh ha⟩
    | resetLow cut => exact .inl ⟨_, step_cons hh⟩
    | outside v => exact .inr ⟨v, rest, rfl, step_cons hh⟩

/-- Settles O53: the commands do the same with any placement unit, and with the state's own in place of it they leave it. -/
theorem rsUnitIgnoresPlacer : Obligations.RsUnitIgnoresPlacer := by
  intro i s t phase ver cursor plCnt modmem hi ht
  have hpart : i.part = .gf ∨ i.part = .rs := by
    obtain ⟨_, _, rfl⟩ | ⟨_, _, rfl⟩ | ⟨_, rfl⟩ | ⟨_, rfl⟩ | ⟨_, rfl⟩ | ⟨_, rfl⟩ | ⟨_, rfl⟩ | ⟨_, rfl⟩ := hi <;> simp
  refine ⟨?_, exec_withPlacer hpart ⟨phase, ver, cursor, plCnt, modmem⟩ ht⟩
  rw [exec_placer_kept hpart ht]
  exact ⟨rfl, rfl, rfl, rfl, rfl⟩

/-- Settles O54: the commands do the same with any RS unit, and with the state's own in place of it they leave it. -/
theorem placerIgnoresRsUnit : Obligations.PlacerIgnoresRsUnit := by
  intro i s t active n g r cnt hi ht
  have hpart : i.part = .gf ∨ i.part = .placer := by
    obtain ⟨_, rfl⟩ | ⟨_, _, _, rfl⟩ | ⟨_, _, rfl⟩ | ⟨_, rfl⟩ | rfl | ⟨_, _, rfl⟩ | ⟨_, _, rfl⟩ | ⟨_, rfl⟩ | ⟨_, rfl⟩ := hi <;>
      simp
  refine ⟨?_, exec_withRs hpart ⟨active, n, g, r, cnt⟩ ht⟩
  rw [exec_rs_kept hpart ht]
  exact ⟨rfl, rfl, rfl, rfl, rfl⟩

/-- Settles O55: a step keeps the relation, and no register and no reply shows what it leaves open. -/
theorem unspecifiedContentsAreNeverRead : Obligations.UnspecifiedContentsAreNeverRead := by
  intro s u t h ht
  obtain ⟨v, hv, hsame⟩ := step_same h ht
  exact ⟨v, hv, hsame, (congrArg State.result hsame.1 :), (congrArg State.reply hsame.1 :), readPort_same hsame⟩

end Sys2Proof.Machine
end

section
/-! SUPPORT. Every fault of a command is its word recorded on the state it raised in, which is the state the command was issued in
unless bits were placed or sought before PL_OVERRUN or PL_UNDERRUN (60_exceptions.md R160, R163, R164). -/

namespace Sys2Proof.Machine

/-- The two faults that keep the state the command had reached (R164). -/
def midwayFaults : List FaultCode := [.plOverrun, .plUnderrun]

/-- FCODE 7 and 8 are theirs (R161). -/
theorem code_of_mem_midwayFaults {c : FaultCode} (h : c ∈ midwayFaults) : c.code = 7#4 ∨ c.code = 8#4 := by
  obtain rfl | rfl : c = .plOverrun ∨ c = .plUnderrun := by simpa [midwayFaults] using h
  · exact .inl rfl
  · exact .inr rfl

/-- Pseudocode of a command issued in `s` that raises in `s` itself, but for the two faults of R164, and leaves FAULT at 0 where
it ends. -/
def Ran.PreciseFrom (s : State) : Ran → Prop
  | .done t => t.fault = false
  | .raised c u => c ∈ midwayFaults ∨ u = s
  | .halted _ => True

/-- A check made in the state the command was issued in (R160, R162). -/
theorem preciseFrom_raiseIf {p : Prop} [Decidable p] {c : FaultCode} {k : State → Ran} {s : State}
    (hk : (k s).PreciseFrom s) : (raiseIf p c k s).PreciseFrom s := by
  by_cases hp : p
  · rw [raiseIf_pos hp]; exact .inr rfl
  · rw [raiseIf_neg hp]; exact hk

/-- Pseudocode that raises no other fault than those two is precise wherever it raises. -/
theorem Ran.FaultsIn.preciseFrom {x : Ran} (h : x.FaultsIn midwayFaults) (s : State) : x.PreciseFrom s := by
  cases x with
  | done t => exact h
  | raised c u => exact .inl h
  | halted f => trivial

/-- A command that locks the block has recorded its word (43_control.md R150). -/
theorem command_recordFault {i : Instr} {body : State → Ran} {s t : State} (h : command i body s = .next t)
    (hs : s.fault = false) (ht : t.fault = true) (hb : (body s).PreciseFrom s) :
    ∃ c u, (c ∈ midwayFaults ∨ u = s) ∧ t = recordFault c (encode i) u := by
  obtain ⟨hl, -⟩ | ⟨-, hd⟩ | ⟨-, c, u, hr, rfl⟩ := command_eq_next h
  · exact absurd (hl.symm.trans hs) (by decide)
  · rw [hd] at hb
    exact absurd (ht.symm.trans hb) (by decide)
  · rw [hr] at hb
    exact ⟨c, u, hb, rfl⟩

/-- Each command checks in the state it was issued in, and what follows its checks raises PL_OVERRUN or PL_UNDERRUN alone. -/
theorem exec_recordFault {i : Instr} {s t : State} (hs : s.fault = false) (h : exec i s = .next t) (ht : t.fault = true) :
    ∃ c u, (c ∈ midwayFaults ∨ u = s) ∧ t = recordFault c (encode i) u := by
  cases i with
  | reset =>
    obtain rfl := Host.Outcome.next.inj h
    simp at ht
  | nop => exact command_recordFault h hs ht hs
  | gfMul a b =>
    unfold exec execGfMul at h
    exact command_recordFault h hs ht hs
  | gfExp e =>
    unfold exec execGfExp at h
    exact command_recordFault h hs ht hs
  | gfDiv _ _ | gfLog _ | rsStart _ | rsData _ | mtxInit _ => exact command_recordFault h hs ht (preciseFrom_raiseIf hs)
  | rsRdec _ | rsRdgen _ => exact command_recordFault h hs ht (preciseFrom_raiseIf (preciseFrom_raiseIf hs))
  | modRsv row col dark =>
    refine command_recordFault h hs ht (preciseFrom_raiseIf (preciseFrom_raiseIf ?_))
    dsimp only
    split
    · trivial
    · exact preciseFrom_raiseIf ((memWrite_faultsIn _ _ hs).preciseFrom s)
  | modRd row col =>
    refine command_recordFault h hs ht (preciseFrom_raiseIf (preciseFrom_raiseIf ?_))
    split
    · trivial
    · exact hs
  | plData d =>
    have hplace := placeBits_faultsIn (cs := midwayFaults) (by decide) (bitsMsbFirst d) (s := { s with phase := .place }) hs
    exact command_recordFault h hs ht (preciseFrom_raiseIf (hplace.preciseFrom s))
  | plFinish =>
    have hseek := seekWithin_faultsIn (cs := midwayFaults) Config.pathFuel hs
    have hfinish := faultsIn_andThen hseek fun _ hu => finishRemainder_faultsIn (by decide) hu
    have hbody := faultsIn_andThen hfinish (k := fun u => .done { u with phase := .finished }) fun _ hu => hu
    exact command_recordFault h hs ht (preciseFrom_raiseIf (hbody.preciseFrom s))

end Sys2Proof.Machine

namespace Sys2Proof

/-- A command's fault has a code of 3 to 8: 1 and 2 are for words that are no command (60_exceptions.md R161). -/
theorem Instr.code_of_mem_faults {i : Instr} {c : Machine.FaultCode} (h : c ∈ i.faults) :
    3 ≤ c.code.toNat ∧ c.code.toNat ≤ 8 := by
  have hword : c ≠ .illegalOpcode ∧ c ≠ .reservedBits := by
    cases i with
    | gfDiv a b | gfLog a =>
      simp only [faults, List.mem_ite_nil_right, List.mem_singleton] at h
      simp [h.2]
    | _ => constructor <;> rintro rfl <;> simp at h
  cases c with
  | illegalOpcode => exact absurd rfl hword.1
  | reservedBits => exact absurd rfl hword.2
  | _ => decide

end Sys2Proof
end

section
/-! The obligations about exceptions (60_exceptions.md). -/

namespace Sys2Proof.Machine

/-- Settles O10: by what the step was; a locked block's issued word is RESET's or is ignored. -/
theorem onlyResetUnlocks : Obligations.OnlyResetUnlocks := by
  intro s t hf h
  obtain ⟨rest, rep, rfl⟩ | ⟨rest, cut, hh, rfl⟩ | ⟨rest, w, hh, h⟩ := step_eq_next h
  · exact .inl ⟨hf, rfl, rfl⟩
  · exact .inr ⟨rfl, rfl, rfl, rest, .inr ⟨cut, hh⟩⟩
  · by_cases hw : w = 0x01000000#32
    · subst hw
      rw [issue_reset] at h
      obtain rfl := Host.Outcome.next.inj h
      exact .inr ⟨rfl, rfl, rfl, rest, .inl hh⟩
    · rw [issue_locked (s := { s with host := rest, reply := .acked }) hf hw] at h
      obtain rfl := Host.Outcome.next.inj h
      exact .inl ⟨hf, rfl, rfl⟩

/-- Settles O19: a fault with another code was raised in the state the command was issued in. -/
theorem otherFaultsArePrecise : Obligations.OtherFaultsArePrecise := by
  intro i s t hs h ht h7 h8
  obtain ⟨c, u, hmid | rfl, rfl⟩ := exec_recordFault hs h ht
  · exact ((code_of_mem_midwayFaults hmid).elim h7 h8).elim
  · rfl

/-- Settles O20: the code is one of the command's own faults, the word is the one recorded, and a command that faults produces
no RESULT. -/
theorem faultsAreRecorded : Obligations.FaultsAreRecorded := by
  intro i s t hs h ht
  obtain ⟨d, hd, hcode⟩ := exec_fault hs h ht
  obtain ⟨hlow, hhigh⟩ := Instr.code_of_mem_faults hd
  obtain ⟨c, u, -, hrec⟩ := exec_recordFault hs h ht
  have hne : i ≠ .reset := by
    rintro rfl
    simp at hd
  have hresult : t.result = s.result :=
    (exec_effect hne h).result.resolve_right fun ⟨_, hunlocked, _⟩ => absurd (ht.symm.trans hunlocked) (by decide)
  exact ⟨hcode ▸ hlow, hcode ▸ hhigh, by rw [hrec, recordFault_faultCmd], hresult, ht⟩

/-- Settles O15: with no transaction, the step is the idle cycle. -/
theorem idleStepHoldsTheState : Obligations.IdleStepHoldsTheState := fun _ => step_nil

end Sys2Proof.Machine
end

section
/-! SUPPORT. What a reset leaves: the values of 70_reset_and_hazards.md R180, what they read as and why they are legal, and the
two steps that reset (R181; 43_control.md R153). -/

namespace Sys2Proof

/-- A field of zeros sets no bit (00_scope.md R11). -/
@[simp] theorem fieldAt_zero (k n : Nat) : fieldAt k 0#n = 0#32 := by
  simp [fieldAt, zext32]

end Sys2Proof

namespace Sys2Proof.Machine

/-- Every register has the value R180 gives it; G, R and MODMEM are left open, as they are there. -/
structure AtReset (s : State) : Prop where
  result : s.result = 0#32
  fault : s.fault = false
  fcode : s.fcode = 0#4
  faultCmd : s.faultCmd = 0#32
  rsActive : s.rsActive = false
  rsN : s.rsN = 0#8
  rsCnt : s.rsCnt = 0#16
  phase : s.phase = .idle
  ver : s.ver = 0#8
  cursor : s.cursor = .zero
  plCnt : s.plCnt = 0#16

theorem reset_atReset : AtReset .reset := ⟨rfl, rfl, rfl, rfl, rfl, rfl, rfl, rfl, rfl, rfl, rfl⟩

theorem resetState_atReset (s : State) : AtReset (resetState s) := ⟨rfl, rfl, rfl, rfl, rfl, rfl, rfl, rfl, rfl, rfl, rfl⟩

namespace AtReset
variable {s : State}

theorem statusWord_eq (h : AtReset s) : statusWord s = 0#32 := by
  simp [statusWord, h.rsActive, h.phase, h.cursor, h.fault, h.fcode, Phase.bits, Cursor.zero]

theorem cursorWord_eq (h : AtReset s) : cursorWord s = 0#32 := by
  simp [cursorWord, h.cursor, Cursor.zero]

theorem rsinfoWord_eq (h : AtReset s) : rsinfoWord s = 0#32 := by
  simp [rsinfoWord, h.rsN, h.rsCnt]

theorem size_eq (h : AtReset s) : s.size = 0 := by
  simp [State.size, sideOf, h.ver]

theorem plinfoWord_eq (h : AtReset s) : plinfoWord s = 0#32 := by
  simp [plinfoWord, h.plCnt, h.ver, h.size_eq]

/-- Every register but ID reads 0 (R180; 10_state.md R21). -/
theorem readPort_eq (h : AtReset s) {a : PortAddr} (ha : a ≠ 7#3) : readPort s a = 0#32 := by
  have haddr : a = 0#3 ∨ a = 1#3 ∨ a = 2#3 ∨ a = 3#3 ∨ a = 4#3 ∨ a = 5#3 ∨ a = 6#3 := by
    revert a
    decide
  obtain rfl | rfl | rfl | rfl | rfl | rfl | rfl := haddr
  · exact readPort_cmd s
  · exact h.result
  · exact h.statusWord_eq
  · exact h.cursorWord_eq
  · exact h.rsinfoWord_eq
  · exact h.plinfoWord_eq
  · exact h.faultCmd

/-- With legal parameters and a canonical MODMEM the values of R180 are legal: without a fault, a started RS unit or a matrix,
the rest of what a legal state asks for does not arise. -/
theorem inv (h : AtReset s) (hparams : s.params.wellFormed = true) (hmem : s.modmem.wf) : s.Inv where
  params_legal := hparams
  unlocked_clear _ := ⟨h.fcode, h.faultCmd⟩
  locked_code := by simp [h.fault]
  rsN_le := by simp [h.rsN]
  rs_inactive _ := ⟨h.rsN, h.rsCnt⟩
  g_generator := by simp [h.rsActive]
  r_tail_zero := by simp [h.rsActive]
  idle_iff := by simp [h.phase, h.ver]
  ver_le := by simp [h.ver]
  idle_zero _ := ⟨h.cursor, h.plCnt⟩
  on_path hmatrix := absurd h.phase hmatrix
  finished_done := by simp [h.phase]
  build_empty := by simp [h.phase]
  build_start := by simp [h.phase]
  count_le hmatrix := absurd h.phase hmatrix
  mem_wf := hmem
  mem_legal hmatrix := absurd h.phase hmatrix

end AtReset

/-- rst_n low resets and acknowledges nothing, whatever write it cuts (R181). -/
theorem step_resetLow {s : State} {cut : Option Word} {rest : List HostEvent} (h : s.host = .resetLow cut :: rest) :
    step s = .next { resetState s with host := rest, reply := .none } :=
  step_cons h

/-- RESET's word written to CMD resets and is acknowledged (43_control.md R153). -/
theorem step_write_reset {s : State} {rest : List HostEvent} (h : s.host = .write 0#3 0x01000000#32 :: rest) :
    step s = .next { resetState s with host := rest, reply := .acked } :=
  (step_write_cmd h).trans (issue_reset _)

end Sys2Proof.Machine
end

section
/-! The obligations about reset (70_reset_and_hazards.md). -/

namespace Sys2Proof.Machine

/-- Settles O17: both steps leave the reset state of the same state, and neither the cut word nor the reply enters it. -/
theorem resetPinMatchesResetCommand : Obligations.ResetPinMatchesResetCommand := fun s rest _ =>
  ⟨{ resetState s with host := rest }, step_resetLow rfl, step_write_reset rfl⟩

/-- Settles O18: the values of R180 read as 0, and ID shows the parameters, which a reset keeps. -/
theorem registersReadAfterReset : Obligations.RegistersReadAfterReset := by
  have hzero {a : PortAddr} (ha : a ≠ 7#3) : readPort .reset a = 0#32 := reset_atReset.readPort_eq ha
  obtain ⟨-, hid, -⟩ := idNeverChanges
  refine ⟨⟨?_, ?_, ?_, ?_, ?_, ?_, ?_, hid⟩, fun s _ => (resetState_atReset s).readPort_eq,
    fun s => idWord_congr (resetState_params s)⟩
  all_goals exact hzero (by decide)

/-- Settles O56: the values of R180 with the parameters of RSZP-1 and a MODMEM that lists no module. -/
theorem resetStateIsLegal : Obligations.ResetStateIsLegal :=
  reset_atReset.inv (by decide) (ModMem.unspecified_wf 0)

end Sys2Proof.Machine
end

section
/-! SUPPORT. The canonical form of MODMEM through every command, from any state: the placement unit's writes are at indexes of MODMEM, and
no other command but RESET touches it (20_memory.md R41; DESIGN CHOICE: log entry 14). -/

namespace Sys2Proof.Machine

/-- The state lists its module memory in the canonical form. -/
abbrev State.Canonical (s : State) : Prop := s.modmem.wf

/-- Pseudocode that leaves MODMEM canonical, whether it ends or raises. -/
abbrev Ran.Canonical (x : Ran) : Prop := x.Ends State.Canonical State.Canonical

/-- A write at an index of MODMEM keeps the form, and one elsewhere stops the model. -/
theorem memWrite_canonical (idx : Nat) (c : ModCode) {s : State} (hs : s.Canonical) : (memWrite idx c s).Canonical := by
  by_cases h : idx < Config.modmemSize
  · rw [memWrite_eq h]
    exact ModMem.put_wf c hs h
  · rw [memWrite, if_neg h]
    trivial

theorem seekWithin_canonical : ∀ (k : Nat) {s : State}, s.Canonical → (seekWithin k s).Canonical
  | 0, _, _ => trivial
  | k + 1, s, hs => by
    unfold seekWithin
    split
    · exact hs
    · split
      · trivial
      · split
        · exact hs
        · exact seekWithin_canonical k (s := stepCursor s) hs

theorem placeBit_canonical (b : Bool) {s : State} (hs : s.Canonical) : (placeBit b s).Canonical :=
  ends_andThen (seekWithin_canonical _ hs) fun _ ht =>
    ends_raiseIf ht fun _ => ends_andThen (memWrite_canonical _ _ ht) fun _ hu => hu

theorem placeBits_canonical : ∀ (bs : List Bool) {s : State}, s.Canonical → (placeBits bs s).Canonical
  | [], _, hs => hs
  | b :: bs, _, hs => ends_andThen (placeBit_canonical b hs) fun _ => placeBits_canonical bs

theorem zeroFillWithin_canonical : ∀ (k : Nat) {s : State}, s.Canonical → (zeroFillWithin k s).Canonical
  | 0, _, _ => trivial
  | k + 1, _, hs => ends_andThen (seekWithin_canonical _ hs) fun t ht => by
    split
    · exact ht
    · exact ends_andThen (memWrite_canonical _ _ ht) fun u hu => zeroFillWithin_canonical k (s := stepCursor u) hu

theorem finishRemainder_canonical {s : State} (hs : s.Canonical) : (finishRemainder s).Canonical := by
  unfold finishRemainder
  split
  · exact hs
  · split
    · exact hs
    · exact zeroFillWithin_canonical _ hs

/-- A command leaves MODMEM canonical when its pseudocode does in an unlocked block (43_control.md R150, R151). -/
theorem command_canonical {i : Instr} {body : State → Ran} {s t : State} (h : command i body s = .next t)
    (hs : s.Canonical) (hb : (body s).Canonical) : t.Canonical := by
  obtain ⟨-, rfl⟩ | ⟨-, ht⟩ | ⟨-, c, u, hu, rfl⟩ := command_ends h fun _ => hb
  · exact hs
  · exact ht
  · exact hu

/-- The placement commands keep the form: MTX_INIT empties the list, the others write through `memWrite` (42_placer.md R135 to
R140). -/
theorem exec_placer_canonical {i : Instr} (hi : i.part = .placer) {s t : State} (h : exec i s = .next t)
    (hs : s.Canonical) : t.Canonical := by
  cases i with
  | mtxInit v => exact command_canonical h hs (ends_raiseIf hs fun _ => ModMem.allUnset_wf)
  | modRsv row col dark =>
    refine command_canonical h hs (ends_raiseIf hs fun _ => ends_raiseIf hs fun _ => ?_)
    dsimp only
    split
    · trivial
    · exact ends_raiseIf hs fun _ => memWrite_canonical _ _ hs
  | modRd row col =>
    refine command_canonical h hs (ends_raiseIf hs fun _ => ends_raiseIf hs fun _ => ?_)
    split
    · trivial
    · exact hs
  | plData d =>
    exact command_canonical h hs (ends_raiseIf hs fun _ => placeBits_canonical _ (s := { s with phase := .place }) hs)
  | plFinish =>
    exact command_canonical h hs (ends_raiseIf hs fun _ =>
      ends_andThen (ends_andThen (seekWithin_canonical _ hs) fun _ => finishRemainder_canonical) fun _ hu => hu)
  | _ => cases hi

/-- Every command but RESET keeps the form: the GF and RS commands leave the placement unit as it was. -/
theorem exec_canonical {i : Instr} {s t : State} (hi : i ≠ .reset) (h : exec i s = .next t) (hs : s.Canonical) :
    t.Canonical := by
  cases hpart : i.part with
  | gf =>
    rw [exec_placer_kept (.inl hpart) h]
    exact hs
  | rs =>
    rw [exec_placer_kept (.inr hpart) h]
    exact hs
  | placer => exact exec_placer_canonical hpart h hs
  | control =>
    cases i with
    | nop =>
      obtain rfl := Host.Outcome.next.inj ((exec_nop s).symm.trans h)
      exact hs
    | reset => exact absurd rfl hi
    | _ => cases hpart

end Sys2Proof.Machine
end

section
/-! The obligation about the form of the module memory (20_memory.md R41). -/

namespace Sys2Proof.Machine

/-- Settles O59: a reset lists no module, the commands keep the form, and nothing else in a step touches MODMEM. -/
theorem stepKeepsCanonicalMemory : Obligations.StepKeepsCanonicalMemory := fun _ _ hs h =>
  step_keeps (P := State.Canonical) (fun _ _ _ hu => hu) (fun u _ => ModMem.unspecified_wf u.epoch)
    (fun _ _ _ hu => hu) (fun _ _ _ => exec_canonical) h hs

end Sys2Proof.Machine
end
